-- ==== Sys2Proof/Word.lean ====
section
/-! DEFINITION. The word types of the dispatcher: the 8-bit data byte, the 16-bit address field and the
32-bit transaction word (00_scope.md R8, 30_encoding.md R110). -/

namespace Sys2Proof

/-- A data byte of the CPU or PPU port (R8, `DATA_W` = 8). -/
abbrev Byte := BitVec 8

/-- The address field `T[23:8]` of a transaction word: a CPU address, or a PPU address whose two top
bits are 0 (R110, R112). -/
abbrev Addr := BitVec 16

/-- A transaction word (R110), a stored bank request (R38) or a CRC-32 (R367). -/
abbrev Word := BitVec 32

end Sys2Proof
end

