-- ==== Sys2Proof/Config.lean ====
section
/-! DEFINITION. What is fixed when the cartridge is built (10_state.md section 1), the parameters of
00_scope.md R8, the free values the spec leaves open, and the data form in which a board is described
(42_mapper_base.md R211, 43_board_patterns.md). Types and free constants only: every function over them
stands under `Machine/`. -/

namespace Sys2Proof.Machine

/-- Bytes of a Source or of a stream region by offset: strictly rising offsets, and no entry equal to
the value an unlisted offset reads as (`Memory.wf` in `Machine/Ops.lean`). -/
abbrev Memory := List Host.Cell

/-! ### Free values -/

/-- `SYSTEM_READ` (R8, R195, D37): the byte the collaborators answer for a read of an address they own.
The first argument is the draw counter of the state, so that two reads need not agree. No body: nothing
can be proved about the byte. -/
opaque Config.systemRead : Nat → Addr → Byte

/-- `SCANLINE` (R8, R232, D20): what `Ppu.GetScanline()` answers, one draw per query. No body. -/
opaque Config.scanline : Nat → Nat

/-- `BULK_CODEC` (R8, R394, D27): the run-length decoder of bulk method 1, which the source names and
does not define. `none` is a decode that fails. No body. -/
opaque Config.bulkDecode : List Byte → Option (List Byte)

/-! ### Window sets and mirroring -/

/-- The four window sets, each over the Source of the same name (R31, R39, D2). -/
inductive WinId where
  | prg | chr | nmt | wrk
deriving DecidableEq, Repr

/-- The five mirroring modes of R225. -/
inductive Mirroring where
  | h | v | s0 | s1 | four
deriving DecidableEq, Repr

/-- A mirroring table (R225): entry `j` is the 1 KiB nametable bank seen at PPU `$2000 + $400*j`. -/
structure Table where
  t0 : Nat
  t1 : Nat
  t2 : Nat
  t3 : Nat
deriving DecidableEq, Repr

/-- The mirroring helpers the source names (R223, R227 to R229). -/
inductive MirrorHelper where
  | hv | vh | hv01 | vh01
deriving DecidableEq, Repr

/-- `MIRROR_HELPER_ORDER` (R8, D15): the mode each value of a helper's argument selects, in rising order
of the value. -/
structure HelperOrder where
  hv : Mirroring × Mirroring
  vh : Mirroring × Mirroring
  hv01 : Mirroring × Mirroring × Mirroring × Mirroring
  vh01 : Mirroring × Mirroring × Mirroring × Mirroring
deriving DecidableEq, Repr

/-- `DIRTY_OFFSET` (R8, D33), in 9..15. -/
abbrev DirtyOffset := { n : Nat // 9 ≤ n ∧ n ≤ 15 }

/-- `WRAM_ZERO_SIZE` (R8, D34), 0 or 8192. -/
abbrev WramZeroSize := { n : Nat // n = 0 ∨ n = 8192 }

/-- What `CATALOGUE` holds of its ids (R350, D21): the modelled ones, and not 9999. -/
def catalogueLegal (ids : List Nat) : Bool :=
  [0, 1, 2, 3, 7].all ids.contains && !ids.contains 9999

/-- `CATALOGUE` (R8, D21). -/
abbrev Catalogue := { ids : List Nat // catalogueLegal ids = true }

/-- The parameters of R8 that are not free draws, each in its range. They are part of `cfg` (R30). -/
structure Params where
  /-- `BUS_CONFLICTS` (R192, D23) -/
  busConflicts : Bool
  /-- `MMC1_WRAM_GATE` (R298, D25) -/
  mmc1WramGate : Bool
  /-- `CRC_WITH_TRAINER` (R367, D32) -/
  crcWithTrainer : Bool
  /-- `DIRTY_OFFSET` (R364, D33) -/
  dirtyOffset : DirtyOffset
  /-- `WRAM_ZERO_SIZE` (R363, D34) -/
  wramZeroSize : WramZeroSize
  /-- `MIRROR_HELPER_ORDER` (R227 to R229, D15) -/
  helperOrder : HelperOrder
  /-- `CATALOGUE` (R350, D21): the board ids the real factory knows -/
  catalogue : Catalogue
deriving DecidableEq, Repr

/-! ### Boards as data -/

/-- The operations of an index, on natural numbers (R10); `eq` and `lt` give 1 or 0. -/
inductive IndexOp where
  | and | or | xor | add | mul | shl | shr | eq | lt
deriving DecidableEq, Repr

/-- How a board computes a bank index from its registers and `cfg` (R211): a literal, a register, the size
of a Source, the attribute flag, the index last requested at a place (`GetBank`, R157), a bit field, an
operation, a choice by a condition. With `eq` and `choose` every function of finitely many 8-bit registers
can be written (R251, R256: "the function from" the registers). -/
inductive Index where
  | const (n : Nat)
  | reg (k : Nat)
  | sourceSize (w : WinId)
  | attrFlag
  | getBank (w : WinId) (size base : Nat)
  | bits (hi lo : Nat) (i : Index)
  | op (o : IndexOp) (i j : Index)
  | choose (c i j : Index)
deriving DecidableEq, Repr

/-- What a template's `Update` or handler does (R211, R251, R256): window swaps (R152, R155), mirroring
(R223, R226), a choice by a condition, one action after another, a case for one literal CRC (R261), an action
that reads the scanline (R263). -/
inductive Action where
  | swap (w : WinId) (size base : Nat) (i : Index)
  | swapBanks (w : WinId) (size base : Nat) (is : List Index)
  | mirror (h : MirrorHelper) (i : Index)
  | setMode (m : Mirroring)
  | setTable (t : Table)
  | whenCrc (k : Word) (a : Action)
  | choose (c : Index) (a b : Action)
  | both (a b : Action)
  | nothing
  | withScanline (a : Action)
deriving DecidableEq, Repr

/-- The read functions a board binds (`BoardRead(f)` of R180): only MMC1's gated WRK read (R298). -/
inductive ReadFn where
  | mmc1Wrk
deriving DecidableEq, Repr

/-- The write functions a board binds (`BoardWrite(f)` of R180). -/
inductive WriteFn where
  | mmc1
  | mmc1Wrk
  | uxrom
  | cnrom
  | axrom
  | latchSelect
  | latchData
  | actions (as : List Action)
deriving DecidableEq, Repr

/-- The read bindings of R180. -/
inductive ReadBinding where
  | system
  | openBus
  | openBusHigh
  | const (c : Byte)
  | prgWin
  | wrkWin
  | boardRead (f : ReadFn)
deriving DecidableEq, Repr

/-- The write bindings of R180. -/
inductive WriteBinding where
  | system
  | ignore
  | wrkWin
  | prgSwap (size base : Nat)
  | chrSwap (size base : Nat)
  | mirrorSwap (helper : MirrorHelper)
  | boardWrite (f : WriteFn)
deriving DecidableEq, Repr

/-- One `Map(first, last, r, w)` call (R181); `none` is `keep`. -/
structure Mapping where
  first : Nat
  last : Nat
  read : Option ReadBinding
  write : Option WriteBinding
deriving DecidableEq, Repr

/-- The parameters of the command-latch template (R251); `conflicts` is the part R211 asks of every
board. -/
structure LatchParams where
  selFirst : Nat
  selLast : Nat
  datFirst : Nat
  datLast : Nat
  count : Nat
  selMask : Byte
  update : List Action
  latchDefault : Byte
  subDefaults : List Byte
  conflicts : Bool
deriving DecidableEq, Repr

/-- The parameters of the multicart menu template (R256). -/
structure MenuParams where
  count : Nat
  default : Nat
  update : List Action
deriving DecidableEq, Repr

/-- A board that is a list of `Map` calls and no register: the linear register and open-bus templates
(R250, R260) and any mixture of them. -/
structure PatternParams where
  maps : List Mapping
  conflicts : Bool
deriving DecidableEq, Repr

/-- The board built for the cartridge: the five of 44_boards.md and the templates of
43_board_patterns.md, `MENU4` (R259) among the menus. -/
inductive Board where
  | nrom
  | mmc1
  | uxrom
  | cnrom
  | axrom
  | menu (p : MenuParams)
  | latch (p : LatchParams)
  | pattern (p : PatternParams)
deriving DecidableEq, Repr

/-- The id the factory selects a board by (R350): a number, or the spec's own test board. -/
inductive BoardId where
  | number (n : Nat)
  | menu4
deriving DecidableEq, Repr

/-- The configuration `cfg` (R30): fixed when the board is constructed, never changed by a transaction.
`chrSize = 0` means 8 KiB of CHR RAM (R31), `wrkSize = 0` an absent WRK (R32). -/
structure Cartridge where
  boardId : BoardId
  board : Board
  crc : Word
  attrFlag : Option Bool
  prgSize : Nat
  prgBytes : Memory
  chrSize : Nat
  chrBytes : Memory
  wrkSize : Nat
  wrkBacked : Nat
  mirroring : Mirroring
  params : Params
deriving DecidableEq, Repr

end Sys2Proof.Machine
end

