-- ==== Sys2Proof/Syntax.lean ====
section
/-! DEFINITION. The transactions of the block: one constructor per row of spec/opcode_table.json. -/

namespace Sys2Proof

/-- The rows of the opcode table. The first eight are the transactions of R111 (`RESET` by its `h` bit);
the others are sub-cases of the four port transactions, by address (R116) or by the board built (R115).
`a` is the field `A`, `d` the field `D` of R110. -/
inductive Instr where
  | cpuRd (a : Addr)
  | cpuWr (a : Addr) (d : Byte)
  | ppuRd (a : Addr)
  | ppuWr (a : Addr) (d : Byte)
  | resetHard
  | resetSoft
  | save
  | load
  | prgRd (a : Addr)
  | wrkRd (a : Addr)
  | wrkWr (a : Addr) (d : Byte)
  | chrRd (a : Addr)
  | chrWr (a : Addr) (d : Byte)
  | nmtRd (a : Addr)
  | nmtWr (a : Addr) (d : Byte)
  | ppuPaletteRd (a : Addr)
  | ppuPaletteWr (a : Addr) (d : Byte)
  | nromWrIgnored (a : Addr) (d : Byte)
  | mmc1SerialReset (a : Addr) (d : Byte)
  | mmc1ShiftControl (a : Addr) (d : Byte)
  | mmc1ShiftChr0 (a : Addr) (d : Byte)
  | mmc1ShiftChr1 (a : Addr) (d : Byte)
  | mmc1ShiftPrg (a : Addr) (d : Byte)
  | uxromPrgSelect (a : Addr) (d : Byte)
  | cnromChrSelect (a : Addr) (d : Byte)
  | axromSelect (a : Addr) (d : Byte)
deriving DecidableEq, Repr

end Sys2Proof
end

