-- ==== Sys2Proof/WellFormed.lean ====
section
/-! DEFINITION. Which instruction terms stand for a word of their opcode-table row. -/

namespace Sys2Proof

open Machine (Board)

/-- `lo <= a < hi`, the address range of a row. -/
def inRange (lo hi : Nat) (a : Addr) : Bool := decide (lo ≤ a.toNat ∧ a.toNat < hi)

/-- The instruction's fields lie in its row's ranges: `A[15:14] = 0` on the PPU port (R112), the address
and data conditions of R115 and R116 for the sub-rows. -/
def Instr.wf : Instr → Bool
  | .cpuRd _ => true
  | .cpuWr _ _ => true
  | .ppuRd a => inRange 0 0x4000 a
  | .ppuWr a _ => inRange 0 0x4000 a
  | .resetHard => true
  | .resetSoft => true
  | .save => true
  | .load => true
  | .prgRd a => inRange 0x8000 0x10000 a
  | .wrkRd a => inRange 0x6000 0x8000 a
  | .wrkWr a _ => inRange 0x6000 0x8000 a
  | .chrRd a => inRange 0 0x2000 a
  | .chrWr a _ => inRange 0 0x2000 a
  | .nmtRd a => inRange 0x2000 0x3F00 a
  | .nmtWr a _ => inRange 0x2000 0x3F00 a
  | .ppuPaletteRd a => inRange 0x3F00 0x4000 a
  | .ppuPaletteWr a _ => inRange 0x3F00 0x4000 a
  | .nromWrIgnored a _ => inRange 0x8000 0x10000 a
  | .mmc1SerialReset a d => inRange 0x8000 0x10000 a && decide (0x80 ≤ d.toNat)
  | .mmc1ShiftControl a d => inRange 0x8000 0xA000 a && decide (d.toNat < 0x80)
  | .mmc1ShiftChr0 a d => inRange 0xA000 0xC000 a && decide (d.toNat < 0x80)
  | .mmc1ShiftChr1 a d => inRange 0xC000 0xE000 a && decide (d.toNat < 0x80)
  | .mmc1ShiftPrg a d => inRange 0xE000 0x10000 a && decide (d.toNat < 0x80)
  | .uxromPrgSelect a _ => inRange 0x8000 0x10000 a
  | .cnromChrSelect a _ => inRange 0x8000 0x10000 a
  | .axromSelect a _ => inRange 0x8000 0x10000 a

/-- The transactions of R111, of which every other row is a sub-case (R115, R116). -/
def Instr.isClass : Instr → Bool
  | .cpuRd _ | .cpuWr _ _ | .ppuRd _ | .ppuWr _ _ | .resetHard | .resetSoft | .save | .load => true
  | .prgRd _ | .wrkRd _ | .wrkWr _ _ | .chrRd _ | .chrWr _ _ | .nmtRd _ | .nmtWr _ _ => false
  | .ppuPaletteRd _ | .ppuPaletteWr _ _ | .nromWrIgnored _ _ => false
  | .mmc1SerialReset _ _ | .mmc1ShiftControl _ _ | .mmc1ShiftChr0 _ _ => false
  | .mmc1ShiftChr1 _ _ | .mmc1ShiftPrg _ _ => false
  | .uxromPrgSelect _ _ | .cnromChrSelect _ _ | .axromSelect _ _ => false

/-- Boards with no row of their own in R115: a write to `$8000..$FFFF` is then a plain `CPU_WR` (R117). -/
def boardHasNoRow : Board → Bool
  | .nrom | .mmc1 | .uxrom | .cnrom | .axrom => false
  | .menu _ | .latch _ | .pattern _ => true

/-- The instruction is the most specific row of its word when `b` is the board built: only that board's
rows apply (R115), and a sub-case goes before the transaction it is a case of (R116). `PPU_RD` and
`PPU_WR` are never the most specific row, since their sub-rows cover the whole 14-bit space. -/
def Instr.rowFor (b : Board) (i : Instr) : Bool :=
  i.wf && match i with
  | .cpuRd a => decide (a.toNat < 0x6000)
  | .cpuWr a _ => decide (a.toNat < 0x6000) || (decide (0x8000 ≤ a.toNat) && boardHasNoRow b)
  | .ppuRd _ | .ppuWr _ _ => false
  | .nromWrIgnored _ _ => decide (b = .nrom)
  | .mmc1SerialReset _ _ | .mmc1ShiftControl _ _ | .mmc1ShiftChr0 _ _ => decide (b = .mmc1)
  | .mmc1ShiftChr1 _ _ | .mmc1ShiftPrg _ _ => decide (b = .mmc1)
  | .uxromPrgSelect _ _ => decide (b = .uxrom)
  | .cnromChrSelect _ _ => decide (b = .cnrom)
  | .axromSelect _ _ => decide (b = .axrom)
  | .resetHard | .resetSoft | .save | .load => true
  | .prgRd _ | .wrkRd _ | .wrkWr _ _ | .chrRd _ | .chrWr _ _ | .nmtRd _ | .nmtWr _ _ => true
  | .ppuPaletteRd _ | .ppuPaletteWr _ _ => true

end Sys2Proof
end

