-- ==== Sys2Proof/Decode.lean ====
section
/-! DEFINITION. The transaction word of 30_encoding.md: its fields, the decoder (class first, then the
reserved fields, then the row), the encoder written from the same tables, and the opcode table's
match/mask pairs. -/

namespace Sys2Proof

open Machine (Board)

/-- `v[hi:lo]`, read as an unsigned number (R9). -/
def field {n : Nat} (v : BitVec n) (hi lo : Nat) : Nat := v.toNat / 2 ^ lo % 2 ^ (hi + 1 - lo)

/-- Why a word has no meaning (R113). Every reason is the refusal `ReservedEncoding`. -/
inductive DecodeError where
  /-- a reserved class of R111 -/
  | reservedClass (cls : Nat)
  /-- `T[27:25] != 0` -/
  | reservedBits (z : Nat)
  /-- `T[24] != 0` outside `RESET` -/
  | reservedMode (h : Nat)
  /-- an address that must be 0, or a PPU address with `A[15:14] != 0` -/
  | reservedAddress (a : Nat)
  /-- a data byte that must be 0 -/
  | reservedData (d : Nat)
deriving DecidableEq, Repr

/-- The reserved-field check of R113: `z = 0`, and `h`, `A`, `D` within what the class allows (a field
that must be 0 has the bound 0). -/
def checkFields (w : Word) (hMax aMax dMax : Nat) (i : Instr) : Except DecodeError Instr :=
  if field w 27 25 ≠ 0 then .error (.reservedBits (field w 27 25))
  else if hMax < field w 24 24 then .error (.reservedMode (field w 24 24))
  else if aMax < field w 23 8 then .error (.reservedAddress (field w 23 8))
  else if dMax < field w 7 0 then .error (.reservedData (field w 7 0))
  else .ok i

/-- The transaction of a word, by its class (R110, R111, R113, R114). Total: every other word is
rejected by name. -/
def decodeClass (w : Word) : Except DecodeError Instr :=
  let a : Addr := BitVec.ofNat 16 (field w 23 8)
  let d : Byte := BitVec.ofNat 8 (field w 7 0)
  match field w 31 28 with
  | 0x1 => checkFields w 0 0xFFFF 0 (.cpuRd a)
  | 0x2 => checkFields w 0 0xFFFF 0xFF (.cpuWr a d)
  | 0x3 => checkFields w 0 0x3FFF 0 (.ppuRd a)
  | 0x4 => checkFields w 0 0x3FFF 0xFF (.ppuWr a d)
  | 0x8 => checkFields w 1 0 0 (if field w 24 24 = 1 then .resetHard else .resetSoft)
  | 0x9 => checkFields w 0 0 0 .save
  | 0xA => checkFields w 0 0 0 .load
  | cls => .error (.reservedClass cls)

/-- MMC1's register decode (R115): the `D[7] = 1` row wins, then `A[14:13]` selects the register. -/
def refineMmc1 (a : Addr) (d : Byte) : Instr :=
  if 0x80 ≤ d.toNat then .mmc1SerialReset a d
  else if a.toNat < 0xA000 then .mmc1ShiftControl a d
  else if a.toNat < 0xC000 then .mmc1ShiftChr0 a d
  else if a.toNat < 0xE000 then .mmc1ShiftChr1 a d
  else .mmc1ShiftPrg a d

/-- The row of a `CPU_WR` to `$8000..$FFFF` (R115): only the rows of the board built apply. -/
def refinePrgWrite (b : Board) (a : Addr) (d : Byte) : Instr :=
  match b with
  | .nrom => .nromWrIgnored a d
  | .mmc1 => refineMmc1 a d
  | .uxrom => .uxromPrgSelect a d
  | .cnrom => .cnromChrSelect a d
  | .axrom => .axromSelect a d
  | .menu _ | .latch _ | .pattern _ => .cpuWr a d

/-- The row of a PPU read (R116). -/
def refinePpuRd (a : Addr) : Instr :=
  if 0x3F00 ≤ a.toNat then .ppuPaletteRd a else if a.toNat < 0x2000 then .chrRd a else .nmtRd a

/-- The row of a PPU write (R116). -/
def refinePpuWr (a : Addr) (d : Byte) : Instr :=
  if 0x3F00 ≤ a.toNat then .ppuPaletteWr a d else if a.toNat < 0x2000 then .chrWr a d else .nmtWr a d

/-- The most specific opcode-table row of a transaction when `b` is the board built (R115, R116). A
sub-row is left as it is. -/
def refine (b : Board) : Instr → Instr
  | .cpuRd a =>
    if 0x8000 ≤ a.toNat then .prgRd a else if 0x6000 ≤ a.toNat then .wrkRd a else .cpuRd a
  | .cpuWr a d =>
    if 0x8000 ≤ a.toNat then refinePrgWrite b a d
    else if 0x6000 ≤ a.toNat then .wrkWr a d else .cpuWr a d
  | .ppuRd a => refinePpuRd a
  | .ppuWr a d => refinePpuWr a d
  | i => i

/-- The decoder: the row a word stands for when `b` is the board built, or the reason it is reserved. -/
def decode (b : Board) (w : Word) : Except DecodeError Instr :=
  match decodeClass w with
  | .ok i => .ok (refine b i)
  | .error e => .error e

/-- A word from its fields (R110); `z` is 0. -/
def packWord (cls h : Nat) (a : Addr) (d : Byte) : Word :=
  BitVec.ofNat 32 (cls * 2 ^ 28 + h * 2 ^ 24 + a.toNat * 2 ^ 8 + d.toNat)

/-- The word of an instruction (R110, R111): a sub-row has the class of its transaction. -/
def encode : Instr → Word
  | .cpuRd a => packWord 0x1 0 a 0
  | .cpuWr a d => packWord 0x2 0 a d
  | .ppuRd a => packWord 0x3 0 a 0
  | .ppuWr a d => packWord 0x4 0 a d
  | .resetHard => packWord 0x8 1 0 0
  | .resetSoft => packWord 0x8 0 0 0
  | .save => packWord 0x9 0 0 0
  | .load => packWord 0xA 0 0 0
  | .prgRd a => packWord 0x1 0 a 0
  | .wrkRd a => packWord 0x1 0 a 0
  | .wrkWr a d => packWord 0x2 0 a d
  | .chrRd a => packWord 0x3 0 a 0
  | .chrWr a d => packWord 0x4 0 a d
  | .nmtRd a => packWord 0x3 0 a 0
  | .nmtWr a d => packWord 0x4 0 a d
  | .ppuPaletteRd a => packWord 0x3 0 a 0
  | .ppuPaletteWr a d => packWord 0x4 0 a d
  | .nromWrIgnored a d => packWord 0x2 0 a d
  | .mmc1SerialReset a d => packWord 0x2 0 a d
  | .mmc1ShiftControl a d => packWord 0x2 0 a d
  | .mmc1ShiftChr0 a d => packWord 0x2 0 a d
  | .mmc1ShiftChr1 a d => packWord 0x2 0 a d
  | .mmc1ShiftPrg a d => packWord 0x2 0 a d
  | .uxromPrgSelect a d => packWord 0x2 0 a d
  | .cnromChrSelect a d => packWord 0x2 0 a d
  | .axromSelect a d => packWord 0x2 0 a d

/-- The `match` and `mask` of the instruction's row in spec/opcode_table.json (R115, R116). -/
def Instr.pattern : Instr → Word × Word
  | .cpuRd _ => (0x10000000, 0xFF0000FF)
  | .cpuWr _ _ => (0x20000000, 0xFF000000)
  | .ppuRd _ => (0x30000000, 0xFFC000FF)
  | .ppuWr _ _ => (0x40000000, 0xFFC00000)
  | .resetHard => (0x81000000, 0xFFFFFFFF)
  | .resetSoft => (0x80000000, 0xFFFFFFFF)
  | .save => (0x90000000, 0xFFFFFFFF)
  | .load => (0xA0000000, 0xFFFFFFFF)
  | .prgRd _ => (0x10800000, 0xFF8000FF)
  | .wrkRd _ => (0x10600000, 0xFFE000FF)
  | .wrkWr _ _ => (0x20600000, 0xFFE00000)
  | .chrRd _ => (0x30000000, 0xFFE000FF)
  | .chrWr _ _ => (0x40000000, 0xFFE00000)
  | .nmtRd _ => (0x30200000, 0xFFE000FF)
  | .nmtWr _ _ => (0x40200000, 0xFFE00000)
  | .ppuPaletteRd _ => (0x303F0000, 0xFFFF00FF)
  | .ppuPaletteWr _ _ => (0x403F0000, 0xFFFF0000)
  | .nromWrIgnored _ _ => (0x20800000, 0xFF800000)
  | .mmc1SerialReset _ _ => (0x20800080, 0xFF800080)
  | .mmc1ShiftControl _ _ => (0x20800000, 0xFFE00080)
  | .mmc1ShiftChr0 _ _ => (0x20A00000, 0xFFE00080)
  | .mmc1ShiftChr1 _ _ => (0x20C00000, 0xFFE00080)
  | .mmc1ShiftPrg _ _ => (0x20E00000, 0xFFE00080)
  | .uxromPrgSelect _ _ => (0x20800000, 0xFF800000)
  | .cnromChrSelect _ _ => (0x20800000, 0xFF800000)
  | .axromSelect _ _ => (0x20800000, 0xFF800000)

/-- The agents that issue transactions (R6, R111). -/
inductive Agent where
  | cpuPort
  | ppuPort
  | host
deriving DecidableEq, Repr

/-- The agent of a transaction (R6, R111). -/
def Instr.agent : Instr → Agent
  | .cpuRd _ | .cpuWr _ _ | .prgRd _ | .wrkRd _ | .wrkWr _ _ | .nromWrIgnored _ _ => .cpuPort
  | .mmc1SerialReset _ _ | .mmc1ShiftControl _ _ | .mmc1ShiftChr0 _ _ => .cpuPort
  | .mmc1ShiftChr1 _ _ | .mmc1ShiftPrg _ _ => .cpuPort
  | .uxromPrgSelect _ _ | .cnromChrSelect _ _ | .axromSelect _ _ => .cpuPort
  | .ppuRd _ | .ppuWr _ _ | .chrRd _ | .chrWr _ _ | .nmtRd _ | .nmtWr _ _ => .ppuPort
  | .ppuPaletteRd _ | .ppuPaletteWr _ _ => .ppuPort
  | .resetHard | .resetSoft | .save | .load => .host

/-- The board whose rows `decodeTableWord` uses: the one of the cartridge of `State.reset` (assumption
2), so that it names what `step` runs there. -/
def tableBoard : Board := .mmc1

/-- A table word as the machine receives it: its `nbits` low bits, every bit above them 0. A transaction
word has one length, 32 bits (R114), and no byte order of its own. -/
def tableWord (nbits w : Nat) : Word := BitVec.ofNat 32 (w % 2 ^ nbits)

/-- The instruction the decoder reads from a table word on the board of `State.reset`. -/
def decodeTableWord (nbits w : Nat) : Option Instr :=
  match decode tableBoard (tableWord nbits w) with
  | .ok i => some i
  | .error _ => none

end Sys2Proof
end

