-- ==== Sys2Proof/Machine/Operands.lean ====
section
/-! DEFINITION. Operand forms and fixed tables: window geometry (R39), the masking law (R150, R151), swap
well-formedness (R153), the PPU address map (R75), mirroring tables and helpers (R225, R227 to R229), the
`Map` check (R182). Functions of their arguments alone; no state. -/

namespace Sys2Proof.Machine

/-! ### Window geometry and Sources -/

/-- `B.span` (R39). -/
def span : WinId → Nat
  | .prg => 32768
  | .chr => 8192
  | .nmt => 4096
  | .wrk => 8192

/-- `B.page` (R39). -/
def pageSize : WinId → Nat
  | .prg => 8192
  | .chr => 1024
  | .nmt => 1024
  | .wrk => 8192

/-- `SWAP_SIZES` (R8). -/
def swapSizes : List Nat := [1024, 2048, 4096, 8192, 16384, 32768]

/-- CHR is RAM exactly when the cartridge has no CHR ROM (R31, D11). -/
def Cartridge.chrIsRam (c : Cartridge) : Bool := c.chrSize == 0

/-- The size of a window set's Source (R31): 8192 bytes of CHR RAM for a cartridge without CHR ROM, 4096
bytes of nametable RAM on a four-screen cartridge and 2048 otherwise. -/
def Cartridge.sourceSize (c : Cartridge) : WinId → Nat
  | .prg => c.prgSize
  | .chr => if c.chrIsRam then 8192 else c.chrSize
  | .nmt => if c.mirroring = .four then 4096 else 2048
  | .wrk => c.wrkSize

/-- The size of a window set's writable bytes: the Source size, or 0 over a ROM (R31, R36). -/
def Cartridge.ramSize (c : Cartridge) : WinId → Nat
  | .prg => 0
  | .chr => if c.chrIsRam then 8192 else 0
  | .nmt => c.sourceSize .nmt
  | .wrk => c.wrkSize

/-- WRK is present (R32). -/
def Cartridge.hasWrk (c : Cartridge) : Bool := c.wrkSize != 0

/-! ### The masking law -/

/-- The largest power of two `<= n`, for `n >= 1` (R10). -/
def pow2floor (n : Nat) : Nat := 2 ^ n.log2

/-- `BankCount(src, size)` (R150). -/
def bankCount (srcSize size : Nat) : Nat :=
  if srcSize < size then 1 else pow2floor (srcSize / size)

/-- `u32(x)` (R10). -/
def u32 (x : Nat) : Nat := x % 2 ^ 32

/-- `Mask(i, src, size)` (R151). -/
def maskIndex (i srcSize size : Nat) : Nat := u32 i &&& (bankCount srcSize size - 1)

/-- `WellFormedSwap(B, size, base)` (R153). -/
def wellFormedSwap (w : WinId) (size base : Nat) : Bool :=
  swapSizes.contains size && size % pageSize w == 0 && base % pageSize w == 0
    && decide (base + size ≤ span w)

/-! ### Address maps -/

/-- Where a PPU address leads (R75): a window set and an offset in it, or the palette, which is not the
cartridge's. -/
def ppuRoute (p : Addr) : Option (WinId × Nat) :=
  if 0x3F00 ≤ p.toNat then none
  else if p.toNat < 0x2000 then some (.chr, p.toNat)
  else some (.nmt, (p.toNat - 0x2000) % 0x1000)

/-- The offset of a CPU address in the Prg window set (R180). -/
def prgOffset (a : Addr) : Nat := a.toNat - 0x8000

/-- The offset of a CPU address in the Wrk window set (R180). -/
def wrkOffset (a : Addr) : Nat := a.toNat - 0x6000

/-- `A[15:8]`, what `OpenBusHigh` reads (R198). -/
def highByte (a : Addr) : Byte := BitVec.ofNat 8 (field a 15 8)

/-- The `Map` check of R182. -/
def mapLegal (m : Mapping) : Bool :=
  decide (m.first ≤ m.last) && decide (0x4020 ≤ m.first) && decide (m.last ≤ 0xFFFF)
    && (m.read != some .prgWin || decide (0x8000 ≤ m.first))
    && ((m.read != some .wrkWin && m.write != some .wrkWin)
      || (decide (0x6000 ≤ m.first) && decide (m.last ≤ 0x7FFF)))

/-! ### Mirroring -/

/-- `MirrorTable(m)` (R225). -/
def mirrorTable : Mirroring → Table
  | .h => ⟨0, 0, 1, 1⟩
  | .v => ⟨0, 1, 0, 1⟩
  | .s0 => ⟨0, 0, 0, 0⟩
  | .s1 => ⟨1, 1, 1, 1⟩
  | .four => ⟨0, 1, 2, 3⟩

/-- The default of `MIRROR_HELPER_ORDER` (R227 to R229). -/
def HelperOrder.standard : HelperOrder where
  hv := (.h, .v)
  vh := (.v, .h)
  hv01 := (.h, .v, .s0, .s1)
  vh01 := (.v, .h, .s0, .s1)

/-- The mode a two-valued helper selects by `d[0]`. -/
def pick2 (p : Mirroring × Mirroring) (d : Nat) : Mirroring := if d % 2 = 0 then p.1 else p.2

/-- The mode a four-valued helper selects by `d[1:0]`. -/
def pick4 (p : Mirroring × Mirroring × Mirroring × Mirroring) (d : Nat) : Mirroring :=
  match d % 4 with
  | 0 => p.1
  | 1 => p.2.1
  | 2 => p.2.2.1
  | _ => p.2.2.2

/-- The mode a mirroring helper selects for an argument (R227 to R229). -/
def helperMode (o : HelperOrder) (h : MirrorHelper) (d : Nat) : Mirroring :=
  match h with
  | .hv => pick2 o.hv d
  | .vh => pick2 o.vh d
  | .hv01 => pick4 o.hv01 d
  | .vh01 => pick4 o.vh01 d

end Sys2Proof.Machine
end

