-- ==== Sys2Proof/Machine/State.lean ====
section
/-! DEFINITION. The state of the block (10_state.md R34) as plain data, the outcomes of a transaction, and
the state after reset. -/

namespace Sys2Proof.Machine

/-! ### Errors, refusals, outputs -/

/-- What `InvalidHeader` records (R420). -/
inductive HeaderFault where
  | signature
  | size
deriving DecidableEq, Repr

/-- What `CorruptSaveState` records: the check of R391, R394 or R401 that failed. -/
inductive LoadCheck where
  /-- fewer than 8 bytes left for a chunk header (R391) -/
  | truncatedHeader
  /-- a chunk length beyond the bytes left in its scope (R391) -/
  | lengthExceeds
  /-- a fixed-size read beyond the scope (R391) -/
  | truncatedRead
  /-- a bulk method byte other than 0 and 1 (R394) -/
  | bulkMethod
  /-- a bulk decode that fails (R394) -/
  | bulkDecode
  /-- a bulk payload that does not give exactly the Source's size (R394, R401) -/
  | bulkSize
  /-- the board has registers and the stream no `REG` (R401) -/
  | missingReg
  /-- a `REG` payload shorter than the board's layout (R401) -/
  | shortReg
  /-- a register value outside its legal range (R401) -/
  | illegalReg
  /-- a known tag twice (R401) -/
  | duplicateTag
deriving DecidableEq, Repr

/-- The source's error taxonomy (R420), each error with the value it records. -/
inductive Error where
  | invalidHeader (why : HeaderFault)
  | unsupportedMapper (id : Nat)
  | corruptSaveState (check : LoadCheck)
  | outOfMemory (size : Nat)
deriving DecidableEq, Repr

/-- The reasons a transaction is refused (R423). -/
inductive RefuseReason where
  | reservedEncoding
  | notPoweredOn
  | ppuPalette
  | illFormedSwap
  | getBankGranularity
  | illFormedMap
deriving DecidableEq, Repr

/-- How a transaction ends when it is not done (R13): refused, or with an error returned to the host. -/
inductive Stop where
  | refused (r : RefuseReason)
  | error (e : Error)
deriving DecidableEq, Repr

/-- The events of a transaction (R12). -/
inductive Event where
  | ppuUpdate
  | ppuSetMirroring (t : Table)
deriving DecidableEq, Repr

/-- What a transaction returns (R12, R13): nothing, a byte, a save stream, an error, a refusal. -/
inductive Result where
  | done
  | byte (v : Byte)
  | stream (bs : List Byte)
  | error (e : Error)
  | refused (r : RefuseReason)
deriving DecidableEq, Repr

/-- The reasons a run stops. -/
inductive Fault where
  /-- Raised by `step` when no transaction waits: the block never starts one (R7). Safe: the model stops
  where nothing happens. -/
  | noTransaction
  /-- Raised by `boot` for an identification, factory or allocation error (R421: no board exists and no
  transaction can run). Safe: the spec's own stop. -/
  | error (e : Error)
deriving DecidableEq, Repr

/-- The reasons the model gives no meaning. -/
inductive Refusal where
  /-- Raised by `exec` for an instruction without a meaning yet; no arm does. Safe. -/
  | notModelled (mnemonic : String)
  /-- Raised by `boot` for a board the spec does not define (R350, R351). Safe: the spec's own refusal,
  which errs toward unprovable. -/
  | boardNotModelled (id : Nat)
deriving DecidableEq, Repr

/-! ### The pieces of the state -/

/-- One page of a window set (R38). -/
structure Page where
  off : Nat
  req : Word
  size : Nat
  sub : Nat
deriving DecidableEq, Repr

/-- MMC1's registers (R290). -/
structure Mmc1Regs where
  ctrl : BitVec 5
  chr0 : BitVec 5
  chr1 : BitVec 5
  prg : BitVec 5
  shift : BitVec 5
  count : BitVec 3
deriving DecidableEq, Repr

/-- The register record of the board built (R41): R281, R290, R310, R320, R330, R256, R252. -/
inductive BoardRegs where
  | none
  | mmc1 (r : Mmc1Regs)
  | uxrom (prg : Byte)
  | cnrom (chr : Byte)
  | axrom (reg : Byte)
  | menu (menu : Byte)
  | latch (latch : Byte) (sub : List Byte)
deriving DecidableEq, Repr

/-- A transaction an agent has issued (R6): its word, and the stream that travels beside a `LOAD`
(R110). -/
structure Transaction where
  word : Word
  stream : List Byte
deriving DecidableEq, Repr

/-- The dispatch table `S.bus` (R35) as the ranges that `Map` installed since the clean slate, the last
one first; `Bus.readAt` and `Bus.writeAt` give the binding of one address (assumption 12). -/
abbrev Bus := List Mapping

/-- The state. The fields down to `refused` are the record of R34 with the configuration of R30 beside it;
the others are the model's own. -/
structure State where
  /-- `cfg` (R30); no transaction changes it -/
  cart : Cartridge
  /-- `S.bus` (R35) -/
  bus : Bus
  /-- `S.latch` (R37) -/
  latch : Byte
  /-- `S.prg`, 4 pages (R39) -/
  prg : List Page
  /-- `S.chr`, 8 pages (R39) -/
  chr : List Page
  /-- `S.nmt`, 4 pages (R39) -/
  nmt : List Page
  /-- `S.wrk`, 1 page (R39) -/
  wrk : List Page
  /-- `S.ram.CHR` (R36), empty when CHR is ROM -/
  ramChr : Memory
  /-- `S.ram.NMT` (R36) -/
  ramNmt : Memory
  /-- `S.ram.WRK` (R36), empty when WRK is absent -/
  ramWrk : Memory
  /-- `S.board` (R41) -/
  board : BoardRegs
  /-- `S.powered` (R43) -/
  powered : Bool
  /-- `S.refused` (R44) -/
  refused : Bool
  /-- the transactions issued and not yet answered, the next one first (R6, R87, R95) -/
  pending : List Transaction
  /-- the stream beside the transaction being answered (R110, R405) -/
  stream : List Byte
  /-- what the last transaction returned (R12, R13) -/
  result : Result
  /-- the events of the last transaction, in order (R12) -/
  events : List Event
  /-- how many free values have been drawn (R195, R232) -/
  draws : Nat
deriving DecidableEq, Repr

/-! ### The state after reset -/

/-- The parameters of the cartridge of `State.reset`: the defaults of R8, and for its three OPEN
parameters the values of assumption 15, which no transaction reads. -/
def resetParams : Params where
  busConflicts := false
  mmc1WramGate := false
  crcWithTrainer := false
  dirtyOffset := ⟨9, by decide⟩
  wramZeroSize := ⟨0, by decide⟩
  helperOrder := HelperOrder.standard
  catalogue := ⟨[0, 1, 2, 3, 7], by decide⟩

/-- The cartridge of `State.reset` (assumption 2, DESIGN CHOICE: the spec fixes no cartridge): an MMC1 with
32 KiB of PRG of which no byte is listed, CHR RAM and 8 KiB of WRK. -/
def resetCart : Cartridge where
  boardId := .number 1
  board := .mmc1
  crc := 0
  attrFlag := none
  prgSize := 32768
  prgBytes := []
  chrSize := 0
  chrBytes := []
  wrkSize := 8192
  wrkBacked := 0
  mirroring := .h
  params := resetParams

/-- The state right after `RESET HARD` (R46, R450), on the cartridge `resetCart`: MMC1's hard-reset
registers (R290), PRG mode 3 and single-screen nametables (R297), the bindings of R185 and R291. The
latch and RAM contents, which the spec leaves to a draw, are 0 (assumptions 3 and 4, DESIGN CHOICE). -/
def State.reset : State where
  cart := resetCart
  bus :=
    [⟨0x8000, 0xFFFF, none, some (.boardWrite .mmc1)⟩,
     ⟨0x6000, 0x7FFF, some .wrkWin, some .wrkWin⟩,
     ⟨0x8000, 0xFFFF, some .prgWin, some .ignore⟩]
  latch := 0
  prg := [⟨0, 0, 16384, 0⟩, ⟨8192, 0, 16384, 1⟩, ⟨16384, 15, 16384, 0⟩, ⟨24576, 15, 16384, 1⟩]
  chr :=
    [⟨0, 0, 8192, 0⟩, ⟨1024, 0, 8192, 1⟩, ⟨2048, 0, 8192, 2⟩, ⟨3072, 0, 8192, 3⟩,
     ⟨4096, 0, 8192, 4⟩, ⟨5120, 0, 8192, 5⟩, ⟨6144, 0, 8192, 6⟩, ⟨7168, 0, 8192, 7⟩]
  nmt := [⟨0, 0, 1024, 0⟩, ⟨0, 0, 1024, 0⟩, ⟨0, 0, 1024, 0⟩, ⟨0, 0, 1024, 0⟩]
  wrk := [⟨0, 0, 8192, 0⟩]
  ramChr := []
  ramNmt := []
  ramWrk := []
  board := .mmc1 ⟨0x0C, 0, 0, 0, 0, 0⟩
  powered := true
  refused := false
  pending := []
  stream := []
  result := .done
  events := []
  draws := 0

end Sys2Proof.Machine
end

