-- ==== Sys2Proof/Machine/Flags.lean ====
section
/-! DEFINITION. The flags of the block. It has no condition codes (R33, R42); its one-bit state is
`S.powered` (R43) and `S.refused` (R44), and the output that works like a flag is the `PpuUpdate` event,
raised once per transaction (R230). -/

namespace Sys2Proof.Machine

/-- The check `S.powered = 1` before `k` (R43, R190, R404). -/
def powerGate (s : State) (k : Except Stop State) : Except Stop State :=
  if s.powered then k else .error (.refused .notPoweredOn)

/-- A transaction starts with no result and no event: those in the state are the last one's. -/
def clearOutput (s : State) : State := { s with result := .done, events := [] }

/-- `emit PpuUpdate`, once per transaction and before any other event (R230, R231). -/
def notePpu (s : State) : State :=
  if s.events = [] then { s with events := [.ppuUpdate] } else s

/-- `emit PpuSetMirroring(t)` (R226). -/
def emitMirroring (t : Table) (s : State) : State :=
  { s with events := s.events ++ [.ppuSetMirroring t] }

/-- `RESET` and `LOAD` emit no events (R230). -/
def dropEvents (s : State) : State := { s with events := [] }

end Sys2Proof.Machine
end

