-- ==== Sys2Proof/Machine/Ops.lean ====
section
/-! DEFINITION. The named operations over memory, window pages and Sources, the one way a transaction ends
when it is not done (R421, R423), and taking the next transaction. -/

namespace Sys2Proof.Machine

/-! ### Memory -/

/-- What an offset nothing has written or listed reads as (assumption 4). -/
def unlistedByte : Byte := 0

/-- The canonical form: offsets strictly rising, no entry equal to an unlisted byte. -/
abbrev Memory.wf (m : Memory) : Prop :=
  m.Pairwise (fun c d => c.1 < d.1) ∧ ∀ c ∈ m, c.2 ≠ unlistedByte

/-- Every listed offset lies below `size`. -/
abbrev Memory.within (m : Memory) (size : Nat) : Prop := ∀ c ∈ m, c.1 < size

/-- The byte at an offset. -/
def Memory.read (m : Memory) (o : Nat) : Byte :=
  match m with
  | [] => unlistedByte
  | (k, v) :: rest => if k = o then v else Memory.read rest o

/-- The entry of a byte in front of later ones: none for an unlisted byte. -/
def Memory.cons (o : Nat) (v : Byte) (m : Memory) : Memory :=
  if v = unlistedByte then m else (o, v) :: m

/-- Writing a byte at an offset; the canonical form is kept. -/
def Memory.write (m : Memory) (o : Nat) (v : Byte) : Memory :=
  match m with
  | [] => Memory.cons o v []
  | (k, w) :: rest =>
    if o < k then Memory.cons o v ((k, w) :: rest)
    else if o = k then Memory.cons o v rest
    else (k, w) :: Memory.write rest o v

/-- The bytes at `0 .. size - 1`, in offset order (R399, R400). -/
def Memory.toBytes (m : Memory) (size : Nat) : List Byte := (List.range size).map m.read

/-- The memory that holds `bs` from offset `o` on. -/
def Memory.ofBytes (o : Nat) : List Byte → Memory
  | [] => []
  | v :: rest => Memory.cons o v (Memory.ofBytes (o + 1) rest)

/-! ### Window sets and Sources in the state -/

/-- The pages of a window set. -/
def State.pages (s : State) : WinId → List Page
  | .prg => s.prg
  | .chr => s.chr
  | .nmt => s.nmt
  | .wrk => s.wrk

/-- The state with other pages in one window set. -/
def State.setPages (s : State) (w : WinId) (ps : List Page) : State :=
  match w with
  | .prg => { s with prg := ps }
  | .chr => { s with chr := ps }
  | .nmt => { s with nmt := ps }
  | .wrk => { s with wrk := ps }

/-- `S.ram.X` (R36); PRG has none. -/
def State.ram (s : State) : WinId → Memory
  | .prg => []
  | .chr => s.ramChr
  | .nmt => s.ramNmt
  | .wrk => s.ramWrk

/-- The state with other contents in one writable Source; PRG is never written (R77). -/
def State.setRam (s : State) (w : WinId) (m : Memory) : State :=
  match w with
  | .prg => s
  | .chr => { s with ramChr := m }
  | .nmt => { s with ramNmt := m }
  | .wrk => { s with ramWrk := m }

/-- Whether a Source is writable (R31, R77). -/
def Cartridge.writable (c : Cartridge) : WinId → Bool
  | .prg => false
  | .chr => c.chrIsRam
  | .nmt => true
  | .wrk => true

/-- `Bytes(X)` of R160: configuration for a ROM, state for a RAM. -/
def State.sourceBytes (s : State) (w : WinId) : Memory :=
  match w with
  | .prg => s.cart.prgBytes
  | .chr => if s.cart.chrIsRam then s.ramChr else s.cart.chrBytes
  | .nmt => s.ramNmt
  | .wrk => s.ramWrk

/-- Replaces the pages `first .. first + count - 1` of a page list that starts at page `j`; `new k` is the
`k`th of them. -/
def replacePages (first count : Nat) (new : Nat → Page) : Nat → List Page → List Page
  | _, [] => []
  | j, p :: ps =>
    (if first ≤ j ∧ j < first + count then new (j - first) else p)
      :: replacePages first count new (j + 1) ps

/-! ### How a transaction ends -/

/-- A refused or failed transaction, in one place. A refusal leaves the state as it was except for the mark
`S.refused` (R423, R44); an error leaves the state as it was (R421). The reason is what the transaction
returns. There is no trap entry and no return from one: nothing is saved and control goes nowhere (R428,
R429). -/
def takeStop (stop : Stop) (s : State) : State :=
  match stop with
  | .refused r => { s with refused := true, result := .refused r, events := [] }
  | .error e => { s with result := .error e, events := [] }

/-- One transaction (R13, R83): its outputs start empty, and its body either completes or stops, from the
state in which the transaction began. -/
def transact (s : State) (body : State → Except Stop State) : State :=
  match body (clearOutput s) with
  | .ok t => t
  | .error stop => takeStop stop (clearOutput s)

/-- A transaction whose word is reserved (R113, R423). -/
def refuseWord (s : State) : State :=
  transact s fun _ => .error (.refused .reservedEncoding)

/-! ### The next transaction -/

/-- Takes the next waiting transaction: its word, and the state in which it is answered (R87). -/
def fetch (s : State) : Option (Word × State) :=
  match s.pending with
  | [] => none
  | t :: rest => some (t.word, { s with pending := rest, stream := t.stream })

/-- The waiting transactions with the word of the next one replaced (or one added where none waits). -/
def putWord (w : Word) : List Transaction → List Transaction
  | [] => [⟨w, []⟩]
  | t :: rest => { t with word := w } :: rest

end Sys2Proof.Machine
end

