-- ==== Sys2Proof/Machine/Windows.lean ====
section
/-! DEFINITION. BankedMemory windowing (40_bankedmemory.md): `SwapBank`, `SwapBanks`, `GetBank`, and the
byte read and write through a window. -/

namespace Sys2Proof.Machine

/-- Page `k` of a swap of size `size` that requests index `i` (R152): the offset is 0 over an absent
Source. -/
def swappedPage (c : Cartridge) (w : WinId) (size i k : Nat) : Page where
  off :=
    if c.sourceSize w = 0 then 0
    else (maskIndex i (c.sourceSize w) size * size + k * pageSize w) % c.sourceSize w
  req := BitVec.ofNat 32 i
  size := size
  sub := k

/-- The page change of `SwapBank<size, base>(B, i)` (R152), without its event. -/
def mapBank (w : WinId) (size base i : Nat) (s : State) : State :=
  s.setPages w
    (replacePages (base / pageSize w) (size / pageSize w) (swappedPage s.cart w size i) 0 (s.pages w))

/-- The window sets the PPU sees: a swap of one emits `PpuUpdate` (R152, R230). -/
def ppuSees : WinId → Bool
  | .prg => false
  | .chr => true
  | .nmt => true
  | .wrk => false

/-- A well-formed `SwapBank<size, base>(B, i)` (R152) with its event. The modelled boards call it directly:
every swap of theirs is well-formed, which is a property of the board and is checked once (R153, R424,
assumption 28). -/
def swapBank (w : WinId) (size base i : Nat) (s : State) : State :=
  mapBank w size base i (if ppuSees w then notePpu s else s)

/-- `SwapBank<size, base>(B, i)` with the check of R153. -/
def swapBankChecked (w : WinId) (size base i : Nat) (s : State) : Except Stop State :=
  if wellFormedSwap w size base then .ok (swapBank w size base i s)
  else .error (.refused .illFormedSwap)

/-- The page changes of `SwapBanks<size, base>(B, i0, ...)` (R155), without events. -/
def mapBanks (w : WinId) (size : Nat) : Nat → List Nat → State → State
  | _, [], s => s
  | base, i :: is, s => mapBanks w size (base + size) is (mapBank w size base i s)

/-- Every one of the consecutive swaps is well-formed (R155, R156). -/
def wellFormedSwaps (w : WinId) (size : Nat) : Nat → List Nat → Bool
  | _, [] => true
  | base, _ :: is => wellFormedSwap w size base && wellFormedSwaps w size (base + size) is

/-- `SwapBanks<size, base>(B, i0, ...)` (R155): checked as a whole before any page changes (R156).
R155 asks for at least one index; with none it completes, and notes `PpuUpdate` for a window set the PPU sees
(assumption 35, DESIGN CHOICE). -/
def swapBanksChecked (w : WinId) (size base : Nat) (is : List Nat) (s : State) : Except Stop State :=
  if wellFormedSwaps w size base is then
    .ok (mapBanks w size base is (if ppuSees w then notePpu s else s))
  else .error (.refused .illFormedSwap)

/-- `GetBank<size, base>(B)` (R157, R158). -/
def getBank (w : WinId) (size base : Nat) (s : State) : Except Stop Nat :=
  if wellFormedSwap w size base then
    match (s.pages w)[base / pageSize w]? with
    | some p =>
      if p.size = size ∧ p.sub = 0 then .ok p.req.toNat
      else .error (.refused .getBankGranularity)
    | none => .error (.refused .illFormedSwap)
  else .error (.refused .illFormedSwap)

/-- The Source offset of byte `o` of a window set (R160, R161). -/
def sourceOffset (w : WinId) (o : Nat) (s : State) : Nat :=
  match (s.pages w)[o / pageSize w]? with
  | some p => (p.off + o % pageSize w) % s.cart.sourceSize w
  | none => o % pageSize w % s.cart.sourceSize w

/-- `ReadBM(B, o)` (R160); an absent Source reads as open bus (R162). -/
def readBM (w : WinId) (o : Nat) (s : State) : Byte :=
  if s.cart.sourceSize w = 0 then s.latch
  else (s.sourceBytes w).read (sourceOffset w o s)

/-- `WriteBM(B, o, v)` (R161): nothing over an absent or read-only Source (R162, R77). -/
def writeBM (w : WinId) (o : Nat) (v : Byte) (s : State) : State :=
  if s.cart.sourceSize w = 0 ∨ s.cart.writable w = false then s
  else s.setRam w ((s.ram w).write (sourceOffset w o s) v)

end Sys2Proof.Machine
end

