-- ==== Sys2Proof/Machine/Bus.lean ====
section
/-! DEFINITION. The dispatch table (41_bus.md sections 1 and 2): `Map`, the base bindings, and the binding
of one address. -/

namespace Sys2Proof.Machine

/-- The range of a mapping holds the address. -/
def Mapping.covers (m : Mapping) (a : Nat) : Bool := decide (m.first ≤ a) && decide (a ≤ m.last)

/-- The read binding that the last `Map` covering the address installed (R183); `OpenBus` after the clean
slate (R185). -/
def lookupRead (a : Nat) : Bus → ReadBinding
  | [] => .openBus
  | m :: rest =>
    match m.covers a, m.read with
    | true, some r => r
    | _, _ => lookupRead a rest

/-- The write binding that the last `Map` covering the address installed (R183); `Ignore` after the clean
slate (R185). -/
def lookupWrite (a : Nat) : Bus → WriteBinding
  | [] => .ignore
  | m :: rest =>
    match m.covers a, m.write with
    | true, some w => w
    | _, _ => lookupWrite a rest

/-- `S.bus[a].read` (R35): the system region `$0000..$401F` always holds `System`. -/
def Bus.readAt (b : Bus) (a : Nat) : ReadBinding := if a < 0x4020 then .system else lookupRead a b

/-- `S.bus[a].write` (R35). -/
def Bus.writeAt (b : Bus) (a : Nat) : WriteBinding := if a < 0x4020 then .system else lookupWrite a b

/-- A well-formed `Map` call (R181). -/
def install (m : Mapping) (s : State) : State := { s with bus := m :: s.bus }

/-- `Map(first, last, r, w)` with the check of R182. -/
def mapRange (m : Mapping) (s : State) : Except Stop State :=
  if mapLegal m then .ok (install m s) else .error (.refused .illFormedMap)

/-- Several `Map` calls, in order. -/
def mapRanges : List Mapping → State → Except Stop State
  | [], s => .ok s
  | m :: ms, s =>
    match mapRange m s with
    | .ok t => mapRanges ms t
    | .error e => .error e

/-- The base bindings over a clean slate (R185, R451). -/
def baseBus (c : Cartridge) : Bus :=
  if c.hasWrk then
    [⟨0x6000, 0x7FFF, some .wrkWin, some .wrkWin⟩, ⟨0x8000, 0xFFFF, some .prgWin, some .ignore⟩]
  else [⟨0x8000, 0xFFFF, some .prgWin, some .ignore⟩]

end Sys2Proof.Machine
end

