-- ==== Sys2Proof/Machine/Mapper.lean ====
section
/-! DEFINITION. The mapper base (42_mapper_base.md): default windows, mirroring, the linear swap kinds, and
the scanline query. -/

namespace Sys2Proof.Machine

/-- `SetNmt(t)` (R226). -/
def setNmt (t : Table) (s : State) : State := mapBanks .nmt 1024 0 [t.t0, t.t1, t.t2, t.t3] s

/-- `SetMirroring(t)` (R226): nothing on a four-screen cartridge, else `PpuUpdate`, the event of the call,
and the nametable swap. -/
def setMirroring (t : Table) (s : State) : State :=
  if s.cart.mirroring = .four then s else setNmt t (emitMirroring t (notePpu s))

/-- `SetMirroring(m)` for a mode (R225, R226). -/
def setMode (m : Mirroring) (s : State) : State := setMirroring (mirrorTable m) s

/-- A mirroring helper's call with argument `d` (R227 to R229). -/
def runHelper (h : MirrorHelper) (d : Nat) (s : State) : State :=
  setMode (helperMode s.cart.params.helperOrder h d) s

/-- The windows a hard reset sets before the board's `SubReset` (R213). -/
def defaultWindows (s : State) : State :=
  setNmt (mirrorTable s.cart.mirroring)
    (mapBank .wrk 8192 0 0 (mapBank .chr 8192 0 0 (mapBank .prg 32768 0 0 s)))

/-- `Scanline()` (R232): a fresh draw. -/
def scanline (s : State) : Nat × State := (Config.scanline s.draws, { s with draws := s.draws + 1 })

end Sys2Proof.Machine
end

