-- ==== Sys2Proof/Machine/Patterns.lean ====
section
/-! DEFINITION. The board templates (43_board_patterns.md): the actions a template's `Update` and handlers
are made of, the command latch, the multicart menu, and the linear and open-bus `Map` calls. -/

namespace Sys2Proof.Machine

/-! ### Actions -/

/-- A truth value as a number. -/
def bit (p : Prop) [Decidable p] : Nat := if p then 1 else 0

/-- The operations of an index (R10). -/
def IndexOp.run (o : IndexOp) (m n : Nat) : Nat :=
  match o with
  | .and => m &&& n
  | .or => m ||| n
  | .xor => m ^^^ n
  | .add => m + n
  | .mul => m * n
  | .shl => m <<< n
  | .shr => m >>> n
  | .eq => bit (m = n)
  | .lt => bit (m < n)

/-- A bank index of a template, over its registers `regs` (R211, R152, R157, R164, R262). A register the
board does not have reads as 0 (assumption 36, DESIGN CHOICE: the spec gives no board such an index). -/
def evalIndex (regs : List Nat) (i : Index) (s : State) : Except Stop Nat :=
  match i with
  | .const n => .ok n
  | .reg k => .ok (regs.getD k 0)
  | .sourceSize w => .ok (s.cart.sourceSize w)
  | .attrFlag => .ok (bit (s.cart.attrFlag = some true))
  | .getBank w size base => getBank w size base s
  | .bits hi lo i =>
    match evalIndex regs i s with
    | .ok n => .ok (n / 2 ^ lo % 2 ^ (hi + 1 - lo))
    | .error e => .error e
  | .op o i j =>
    match evalIndex regs i s, evalIndex regs j s with
    | .ok m, .ok n => .ok (o.run m n)
    | .error e, _ => .error e
    | _, .error e => .error e
  | .choose c i j =>
    match evalIndex regs c s with
    | .ok n => if n = 0 then evalIndex regs j s else evalIndex regs i s
    | .error e => .error e

/-- Scrambled address lines (R164, R262): `(r ^ X) | O`. -/
def Index.scrambled (k x o : Nat) : Index := .op .or (.op .xor (.reg k) (.const x)) (.const o)

/-- A table over an index, such as the first bank of each image (R256), and the index beyond it. -/
def Index.table (i : Index) (beyond : Index) : Nat → List Nat → Index
  | _, [] => beyond
  | k, n :: ns => .choose (.op .eq i (.const k)) (.const n) (Index.table i beyond (k + 1) ns)

/-- The indices of a `SwapBanks`, left to right. -/
def evalIndices (regs : List Nat) : List Index → State → Except Stop (List Nat)
  | [], _ => .ok []
  | i :: is, s =>
    match evalIndex regs i s, evalIndices regs is s with
    | .ok n, .ok ns => .ok (n :: ns)
    | .error e, _ => .error e
    | _, .error e => .error e

/-- One action of a template. A CRC case applies on exact equality with its literal (R261, R352); an
action that reads the scanline (R263) draws it and sees it as one more register, after the others
(assumption 20). -/
def runAction (regs : List Nat) (act : Action) (s : State) : Except Stop State :=
  match act with
  | .swap w size base i =>
    match evalIndex regs i s with
    | .ok n => swapBankChecked w size base n s
    | .error e => .error e
  | .swapBanks w size base is =>
    match evalIndices regs is s with
    | .ok ns => swapBanksChecked w size base ns s
    | .error e => .error e
  | .mirror h i =>
    match evalIndex regs i s with
    | .ok n => .ok (runHelper h n s)
    | .error e => .error e
  | .setMode m => .ok (setMode m s)
  | .setTable t => .ok (setMirroring t s)
  | .whenCrc k a => if s.cart.crc = k then runAction regs a s else .ok s
  | .choose c a b =>
    match evalIndex regs c s with
    | .ok n => if n = 0 then runAction regs b s else runAction regs a s
    | .error e => .error e
  | .both a b =>
    match runAction regs a s with
    | .ok t => runAction regs b t
    | .error e => .error e
  | .nothing => .ok s
  | .withScanline a => runAction (regs ++ [(scanline s).1]) a (scanline s).2

/-- The actions of a template, in order; the first refusal ends them. -/
def runActions (regs : List Nat) : List Action → State → Except Stop State
  | [], s => .ok s
  | a :: as, s =>
    match runAction regs a s with
    | .ok t => runActions regs as t
    | .error e => .error e

/-! ### Command latch -/

/-- The conditions of R251 on the parameters of a `LATCH` board. -/
abbrev LatchParams.legal (p : LatchParams) : Prop :=
  0x4020 ≤ p.selFirst ∧ p.selFirst ≤ p.selLast ∧ p.selLast ≤ 0xFFFF
    ∧ 0x4020 ≤ p.datFirst ∧ p.datFirst ≤ p.datLast ∧ p.datLast ≤ 0xFFFF
    ∧ (p.selLast < p.datFirst ∨ p.datLast < p.selFirst)
    ∧ 1 ≤ p.count ∧ p.subDefaults.length = p.count

/-- `Update(S.board)` of a `LATCH` board (R251, R254): its actions over all its registers, the latch as
register 0 and `sub[k]` as register `k + 1`. -/
def latchUpdate (p : LatchParams) (s : State) : Except Stop State :=
  match s.board with
  | .latch l sub => runActions ((l :: sub).map BitVec.toNat) p.update s
  | _ => .ok s

/-- `LATCH` write to an address in `Asel` (R253). -/
def latchSelect (e : Byte) (s : State) : State :=
  match s.board with
  | .latch _ sub => { s with board := .latch e sub }
  | _ => s

/-- `LATCH` write to an address in `Adat` (R254): nothing when the select is beyond the sub-registers
(D45). -/
def latchData (e : Byte) (s : State) : Except Stop State :=
  match s.cart.board, s.board with
  | .latch p, .latch l sub =>
    if (l &&& p.selMask).toNat < p.count then
      latchUpdate p { s with board := .latch l (sub.set (l &&& p.selMask).toNat e) }
    else .ok s
  | _, _ => .ok s

/-- `LATCH.SubReset(hard)` (R255). -/
def latchSubReset (p : LatchParams) (s : State) : Except Stop State :=
  match mapRanges
      [⟨p.selFirst, p.selLast, none, some (.boardWrite .latchSelect)⟩,
       ⟨p.datFirst, p.datLast, none, some (.boardWrite .latchData)⟩] s with
  | .ok t => latchUpdate p t
  | .error e => .error e

/-! ### Multicart menu -/

/-- The conditions of R256 on the parameters of a `MENU` board, with the 8 bits of its register as the bound
of `MENU_COUNT` (assumption 31). -/
abbrev MenuParams.legal (p : MenuParams) : Prop := 1 ≤ p.count ∧ p.count ≤ 256 ∧ p.default < p.count

/-- `Update(menu)` of a `MENU` board (R256): its actions over `menu`, register 0. -/
def menuUpdate (p : MenuParams) (s : State) : Except Stop State :=
  match s.board with
  | .menu m => runActions [m.toNat] p.update s
  | _ => .ok s

/-- The menu register after a reset (R257): its default, or the next image, wrapping to 0 after the last
(D38). -/
def nextMenu (p : MenuParams) (hard : Bool) (m : Byte) : Byte :=
  if hard then BitVec.ofNat 8 p.default else BitVec.ofNat 8 ((m.toNat + 1) % p.count)

/-- `MENU.SubReset(hard)` (R257). -/
def menuSubReset (p : MenuParams) (hard : Bool) (s : State) : Except Stop State :=
  match s.board with
  | .menu m => menuUpdate p { s with board := .menu (nextMenu p hard m) }
  | _ => .ok s

/-- The parameters of `MENU4` (R259). -/
def menu4Params : MenuParams where
  count := 4
  default := 0
  update := [.swap .prg 32768 0 (.reg 0), .swap .chr 8192 0 (.reg 0)]

/-- `MENU4` (R259), the spec's own example board. -/
def menu4 : Board := .menu menu4Params

/-! ### Linear registers and open-bus reads -/

/-- `LINEAR(range, kind)` (R250): the `Map` call of a register whose value is the bank index. -/
def linearMap (first last : Nat) (kind : WriteBinding) : Mapping := ⟨first, last, none, some kind⟩

/-- `OPENBUS(range, kind)` (R260): the `Map` call of reads a board does not decode. -/
def openBusMap (first last : Nat) (kind : ReadBinding) : Mapping := ⟨first, last, some kind, none⟩

end Sys2Proof.Machine
end

