-- ==== Sys2Proof/Machine/Boards.lean ====
section
/-! DEFINITION. The modelled boards (44_boards.md), each with its registers' hard defaults, handlers and
window update, and the parts R211 asks of every board, chosen by the board built. -/

namespace Sys2Proof.Machine

/-! ### MMC1 -/

/-- MMC1's registers after a hard reset (R290). -/
def mmc1Defaults : Mmc1Regs := ⟨0x0C, 0, 0, 0, 0, 0⟩

/-- `UpdatePrg()` (R297). -/
def mmc1UpdatePrg (r : Mmc1Regs) (s : State) : State :=
  match field r.ctrl 3 2 with
  | 2 => swapBank .prg 16384 0x4000 (field r.prg 3 0) (swapBank .prg 16384 0 0 s)
  | 3 => swapBank .prg 16384 0x4000 0x0F (swapBank .prg 16384 0 (field r.prg 3 0) s)
  | _ => swapBank .prg 32768 0 (field r.prg 3 0 / 2) s

/-- `UpdateChr()` (R297). -/
def mmc1UpdateChr (r : Mmc1Regs) (s : State) : State :=
  if field r.ctrl 4 4 = 0 then swapBank .chr 8192 0 (r.chr0.toNat / 2) s
  else swapBank .chr 4096 0x1000 r.chr1.toNat (swapBank .chr 4096 0 r.chr0.toNat s)

/-- The mirroring mode `ctrl[1:0]` selects (R290, R297). -/
def mmc1Mode (r : Mmc1Regs) : Mirroring :=
  match field r.ctrl 1 0 with
  | 0 => .s0
  | 1 => .s1
  | 2 => .v
  | _ => .h

/-- `UpdateMirror()` (R297). -/
def mmc1UpdateMirror (r : Mmc1Regs) (s : State) : State := setMode (mmc1Mode r) s

/-- `UpdatePrg(); UpdateChr(); UpdateMirror()` (R291, R293, R406). -/
def mmc1Update (r : Mmc1Regs) (s : State) : State :=
  mmc1UpdateMirror r (mmc1UpdateChr r (mmc1UpdatePrg r s))

/-- The serial step `Shift(E)` (R293): the registers after it, and the value of a fifth write. -/
def mmc1Shift (e : Byte) (r : Mmc1Regs) : Mmc1Regs × Option (BitVec 5) :=
  if r.count.toNat < 4 then
    ({ r with
        shift := r.shift ||| BitVec.ofNat 5 (field e 0 0 <<< r.count.toNat)
        count := r.count + 1 }, none)
  else
    ({ r with shift := 0, count := 0 },
      some (r.shift ||| BitVec.ofNat 5 (field e 0 0 <<< r.count.toNat)))

/-- `MMC1_SERIAL_RESET` (R292). -/
def mmc1SerialReset (r : Mmc1Regs) (s : State) : State :=
  let r' : Mmc1Regs := { r with shift := 0, count := 0, ctrl := r.ctrl ||| 0x0C }
  mmc1UpdatePrg r' { s with board := .mmc1 r' }

/-- `MMC1_SHIFT_CONTROL` (R293): the serial step, and on a fifth write the commit to `ctrl`. -/
def mmc1ShiftControl (e : Byte) (r : Mmc1Regs) (s : State) : State :=
  let r' := (mmc1Shift e r).1
  match (mmc1Shift e r).2 with
  | none => { s with board := .mmc1 r' }
  | some v => mmc1Update { r' with ctrl := v } { s with board := .mmc1 { r' with ctrl := v } }

/-- `MMC1_SHIFT_CHR0` (R294): the serial step, and on a fifth write the commit to `chr0`. -/
def mmc1ShiftChr0 (e : Byte) (r : Mmc1Regs) (s : State) : State :=
  let r' := (mmc1Shift e r).1
  match (mmc1Shift e r).2 with
  | none => { s with board := .mmc1 r' }
  | some v => mmc1UpdateChr { r' with chr0 := v } { s with board := .mmc1 { r' with chr0 := v } }

/-- `MMC1_SHIFT_CHR1` (R295): the serial step, and on a fifth write the commit to `chr1`. -/
def mmc1ShiftChr1 (e : Byte) (r : Mmc1Regs) (s : State) : State :=
  let r' := (mmc1Shift e r).1
  match (mmc1Shift e r).2 with
  | none => { s with board := .mmc1 r' }
  | some v => mmc1UpdateChr { r' with chr1 := v } { s with board := .mmc1 { r' with chr1 := v } }

/-- `MMC1_SHIFT_PRG` (R296): the serial step, and on a fifth write the commit to `prg`. -/
def mmc1ShiftPrg (e : Byte) (r : Mmc1Regs) (s : State) : State :=
  let r' := (mmc1Shift e r).1
  match (mmc1Shift e r).2 with
  | none => { s with board := .mmc1 r' }
  | some v => mmc1UpdatePrg { r' with prg := v } { s with board := .mmc1 { r' with prg := v } }

/-- The row of a write to MMC1's serial port (R115): `E[7]` resets, else the address selects the register. -/
def mmc1Row (a : Addr) (e : Byte) (r : Mmc1Regs) (s : State) : State :=
  if field e 7 7 = 1 then mmc1SerialReset r s
  else if a.toNat < 0xA000 then mmc1ShiftControl e r s
  else if a.toNat < 0xC000 then mmc1ShiftChr0 e r s
  else if a.toNat < 0xE000 then mmc1ShiftChr1 e r s
  else mmc1ShiftPrg e r s

/-- MMC1's write function (R291 to R296); nothing where the registers are another board's (assumption 25). -/
def mmc1Write (a : Addr) (e : Byte) (s : State) : State :=
  match s.board with
  | .mmc1 r => mmc1Row a e r s
  | _ => s

/-- `prg[4]` of MMC1 disables WRK under `MMC1_WRAM_GATE` (R290, R298). -/
def mmc1WrkDisabled (s : State) : Bool :=
  match s.board with
  | .mmc1 r => field r.prg 4 4 == 1
  | _ => false

/-- `MMC1WrkRead(A)` (R298). -/
def mmc1WrkRead (a : Addr) (s : State) : Byte :=
  if mmc1WrkDisabled s then s.latch else readBM .wrk (wrkOffset a) s

/-- `MMC1WrkWrite(A, E)` (R298). -/
def mmc1WrkWrite (a : Addr) (e : Byte) (s : State) : State :=
  if mmc1WrkDisabled s then s else writeBM .wrk (wrkOffset a) e s

/-- MMC1's `Map` calls (R291). -/
def mmc1Install (s : State) : State :=
  let t := install ⟨0x8000, 0xFFFF, none, some (.boardWrite .mmc1)⟩ s
  if s.cart.params.mmc1WramGate && s.cart.hasWrk then
    install ⟨0x6000, 0x7FFF, some (.boardRead .mmc1Wrk), some (.boardWrite .mmc1Wrk)⟩ t
  else t

/-! ### UxROM, CNROM, AxROM -/

/-- The two swaps of UxROM's `SubReset` and load (R311, R406). -/
def uxromUpdate (prg : Byte) (s : State) : State :=
  swapBank .prg 16384 0x4000 0xFFFFFFFF (swapBank .prg 16384 0 prg.toNat s)

/-- `UXROM_PRG_SELECT` (R312); nothing where the registers are another board's (assumption 25). -/
def uxromWrite (e : Byte) (s : State) : State :=
  match s.board with
  | .uxrom _ => swapBank .prg 16384 0 e.toNat { s with board := .uxrom e }
  | _ => s

/-- The swap of CNROM's `SubReset` and load (R321, R406). -/
def cnromUpdate (chr : Byte) (s : State) : State := swapBank .chr 8192 0 chr.toNat s

/-- `CNROM_CHR_SELECT` (R322); nothing where the registers are another board's (assumption 25). -/
def cnromWrite (e : Byte) (s : State) : State :=
  match s.board with
  | .cnrom _ => cnromUpdate e { s with board := .cnrom e }
  | _ => s

/-- `AxUpdate()` (R331). -/
def axromUpdate (reg : Byte) (s : State) : State :=
  setMode (if field reg 4 4 = 1 then .s1 else .s0) (swapBank .prg 32768 0 (field reg 3 0) s)

/-- `AXROM_SELECT` (R332); nothing where the registers are another board's (assumption 25). -/
def axromWrite (e : Byte) (s : State) : State :=
  match s.board with
  | .axrom _ => axromUpdate e { s with board := .axrom e }
  | _ => s

/-! ### The parts of a board, by the board built -/

/-- `HardDefaults` (R211, R281, R290, R310, R320, R330, R256, R252). -/
def hardDefaults : Board → BoardRegs
  | .nrom => .none
  | .mmc1 => .mmc1 mmc1Defaults
  | .uxrom => .uxrom 0
  | .cnrom => .cnrom 0
  | .axrom => .axrom 0
  | .menu p => .menu (BitVec.ofNat 8 p.default)
  | .latch p => .latch p.latchDefault p.subDefaults
  | .pattern _ => .none

/-- `Board.conflicts` (R192): R280, R290, R310, R320, R330; a menu has no register the CPU reaches. -/
def boardConflicts : Board → Bool
  | .nrom | .mmc1 | .axrom | .menu _ => false
  | .uxrom | .cnrom => true
  | .latch p => p.conflicts
  | .pattern p => p.conflicts

/-- `Update`: the windows and mirroring of the registers (R211), which a load recomputes (R406). -/
def boardUpdate (s : State) : Except Stop State :=
  match s.cart.board, s.board with
  | .mmc1, .mmc1 r => .ok (mmc1Update r s)
  | .uxrom, .uxrom prg => .ok (uxromUpdate prg s)
  | .cnrom, .cnrom chr => .ok (cnromUpdate chr s)
  | .axrom, .axrom reg => .ok (axromUpdate reg s)
  | .menu p, _ => menuUpdate p s
  | .latch p, _ => latchUpdate p s
  | _, _ => .ok s

/-- `SubReset(hard)` (R214): R282, R291, R311, R321, R331, R257, R255, R250 and R260. -/
def subReset (hard : Bool) (s : State) : Except Stop State :=
  match s.cart.board with
  | .nrom => .ok s
  | .mmc1 => boardUpdate (mmc1Install s)
  | .uxrom => boardUpdate (install ⟨0x8000, 0xFFFF, none, some (.boardWrite .uxrom)⟩ s)
  | .cnrom => boardUpdate (install ⟨0x8000, 0xFFFF, none, some (.boardWrite .cnrom)⟩ s)
  | .axrom => boardUpdate (install ⟨0x8000, 0xFFFF, none, some (.boardWrite .axrom)⟩ s)
  | .menu p => menuSubReset p hard s
  | .latch p => latchSubReset p s
  | .pattern p => mapRanges p.maps s

/-- A board's read function (R180). -/
def boardRead (f : ReadFn) (a : Addr) (s : State) : Byte :=
  match f with
  | .mmc1Wrk => mmc1WrkRead a s

/-- A board's write function (R180) on the address and the bus value `e`, which a template's handler sees as
its registers 1 and 0. -/
def boardWrite (f : WriteFn) (a : Addr) (e : Byte) (s : State) : Except Stop State :=
  match f with
  | .mmc1 => .ok (mmc1Write a e s)
  | .mmc1Wrk => .ok (mmc1WrkWrite a e s)
  | .uxrom => .ok (uxromWrite e s)
  | .cnrom => .ok (cnromWrite e s)
  | .axrom => .ok (axromWrite e s)
  | .latchSelect => .ok (latchSelect e s)
  | .latchData => latchData e s
  | .actions as => runActions [e.toNat, a.toNat] as s

/-! ### Register bytes -/

/-- The bytes of the `REG` chunk (R398): R299, R313, R323, R333, and `MENU4`'s `menu`. For any other menu its `menu`,
and for a latch board the latch and then the sub-registers (assumption 19, DESIGN CHOICE: R398 gives neither). -/
def regBytes : BoardRegs → List Byte
  | .none => []
  | .mmc1 r =>
    [r.ctrl.setWidth 8, r.chr0.setWidth 8, r.chr1.setWidth 8, r.prg.setWidth 8, r.shift.setWidth 8,
     r.count.setWidth 8]
  | .uxrom v => [v]
  | .cnrom v => [v]
  | .axrom v => [v]
  | .menu v => [v]
  | .latch l sub => l :: sub

/-- The board has registers: its `RegLayout` is not empty (R397, R401; for a menu other than `MENU4`, a latch and a
pattern board assumption 19). -/
def hasRegs : Board → Bool
  | .nrom | .pattern _ => false
  | .mmc1 | .uxrom | .cnrom | .axrom | .menu _ | .latch _ => true

/-- MMC1's legal ranges on load (R299). -/
def mmc1Legal (ctrl chr0 chr1 prg shift count : Byte) : Bool :=
  decide (ctrl.toNat < 32) && decide (chr0.toNat < 32) && decide (chr1.toNat < 32)
    && decide (prg.toNat < 32) && decide (shift.toNat < 32) && decide (count.toNat < 5)
    && decide (shift.toNat < 2 ^ count.toNat)

/-- The registers of a `REG` payload, or the check it fails (R401): too short, or a value outside its legal
range. Extra bytes are ignored. R401 gives `menu < MENU_COUNT` for `MENU4`; any other menu has the same range, and
a latch board takes every byte (assumption 19, DESIGN CHOICE). -/
def regsOfBytes (b : Board) (bs : List Byte) : Except LoadCheck BoardRegs :=
  match b, bs with
  | .nrom, _ => .ok .none
  | .pattern _, _ => .ok .none
  | .mmc1, c :: c0 :: c1 :: p :: sh :: n :: _ =>
    if mmc1Legal c c0 c1 p sh n then
      .ok (.mmc1 ⟨c.setWidth 5, c0.setWidth 5, c1.setWidth 5, p.setWidth 5, sh.setWidth 5, n.setWidth 3⟩)
    else .error .illegalReg
  | .uxrom, v :: _ => .ok (.uxrom v)
  | .cnrom, v :: _ => .ok (.cnrom v)
  | .axrom, v :: _ => .ok (.axrom v)
  | .menu p, v :: _ => if p.count ≤ v.toNat then .error .illegalReg else .ok (.menu v)
  | .latch p, l :: sub =>
    if sub.length < p.count then .error .shortReg else .ok (.latch l (sub.take p.count))
  | _, _ => .error .shortReg

end Sys2Proof.Machine
end

