-- ==== Sys2Proof/Machine/Port.lean ====
section
/-! DEFINITION. The port transactions (41_bus.md sections 3 and 4) and the meanings of their base rows
(R116). -/

namespace Sys2Proof.Machine

/-! ### The four port transactions -/

/-- The byte a read binding drives (R180, R190, R195, R198), and the state after it: only a `System` read
draws a value. -/
def readBound (r : ReadBinding) (a : Addr) (s : State) : Byte × State :=
  match r with
  | .system => (Config.systemRead s.draws a, { s with draws := s.draws + 1 })
  | .openBus => (s.latch, s)
  | .openBusHigh => (highByte a, s)
  | .const c => (c, s)
  | .prgWin => (readBM .prg (prgOffset a) s, s)
  | .wrkWin => (readBM .wrk (wrkOffset a) s, s)
  | .boardRead f => (boardRead f a s, s)

/-- `BusValue(A, D)` (R192). -/
def busValue (a : Addr) (d : Byte) (s : State) : Byte :=
  if s.cart.params.busConflicts ∧ boardConflicts s.cart.board ∧ 0x8000 ≤ a.toNat then
    d &&& readBM .prg (prgOffset a) s
  else d

/-- The effect of a write binding (R180, R191, R221 to R223): `d` is the CPU's byte, `e` the bus value. -/
def writeBound (w : WriteBinding) (a : Addr) (d e : Byte) (s : State) : Except Stop State :=
  match w with
  | .system => .ok s
  | .ignore => .ok s
  | .wrkWin => .ok (writeBM .wrk (wrkOffset a) d s)
  | .prgSwap size base => swapBankChecked .prg size base e.toNat s
  | .chrSwap size base => swapBankChecked .chr size base e.toNat s
  | .mirrorSwap h => .ok (runHelper h e.toNat s)
  | .boardWrite f => boardWrite f a e s

/-- `CPU_RD A` (R190). -/
def cpuRead (a : Addr) (s : State) : State :=
  transact s fun s =>
    powerGate s
      (let r := readBound (s.bus.readAt a.toNat) a s
       .ok { r.2 with latch := r.1, result := .byte r.1 })

/-- `CPU_WR A, D` (R191): the latch takes the CPU's byte, the handler the bus value (D47). -/
def cpuWrite (a : Addr) (d : Byte) (s : State) : State :=
  transact s fun s =>
    powerGate s
      (let t := { s with latch := d }
       writeBound (s.bus.writeAt a.toNat) a d (busValue a d t) t)

/-- `PPU_RD P` (R193). -/
def ppuRead (p : Addr) (s : State) : State :=
  transact s fun s =>
    powerGate s
      (match ppuRoute p with
       | none => .error (.refused .ppuPalette)
       | some (w, o) => .ok { s with result := .byte (readBM w o s) })

/-- `PPU_WR P, D` (R194). -/
def ppuWrite (p : Addr) (d : Byte) (s : State) : State :=
  transact s fun s =>
    powerGate s
      (match ppuRoute p with
       | none => .error (.refused .ppuPalette)
       | some (w, o) => .ok (writeBM w o d s))

/-! ### Meanings of the base rows -/

/-- `CPU_RD` (R190). -/
def execCpuRd (a : Addr) (s : State) : Host.Outcome State Fault Refusal := .next (cpuRead a s)

/-- `CPU_WR` (R191). -/
def execCpuWr (a : Addr) (d : Byte) (s : State) : Host.Outcome State Fault Refusal :=
  .next (cpuWrite a d s)

/-- `PPU_RD` (R193). -/
def execPpuRd (a : Addr) (s : State) : Host.Outcome State Fault Refusal := .next (ppuRead a s)

/-- `PPU_WR` (R194). -/
def execPpuWr (a : Addr) (d : Byte) (s : State) : Host.Outcome State Fault Refusal :=
  .next (ppuWrite a d s)

/-- `PRG_RD`: the `CPU_RD` of `$8000..$FFFF` (R116), under whatever binding the address has (R181). -/
def execPrgRd (a : Addr) (s : State) : Host.Outcome State Fault Refusal := .next (cpuRead a s)

/-- `WRK_RD`: the `CPU_RD` of `$6000..$7FFF` (R116). -/
def execWrkRd (a : Addr) (s : State) : Host.Outcome State Fault Refusal := .next (cpuRead a s)

/-- `WRK_WR`: the `CPU_WR` of `$6000..$7FFF` (R116). -/
def execWrkWr (a : Addr) (d : Byte) (s : State) : Host.Outcome State Fault Refusal :=
  .next (cpuWrite a d s)

/-- `CHR_RD`: the `PPU_RD` of `$0000..$1FFF` (R116). -/
def execChrRd (a : Addr) (s : State) : Host.Outcome State Fault Refusal := .next (ppuRead a s)

/-- `CHR_WR`: the `PPU_WR` of `$0000..$1FFF` (R116). -/
def execChrWr (a : Addr) (d : Byte) (s : State) : Host.Outcome State Fault Refusal :=
  .next (ppuWrite a d s)

/-- `NMT_RD`: the `PPU_RD` of `$2000..$3EFF` (R116). -/
def execNmtRd (a : Addr) (s : State) : Host.Outcome State Fault Refusal := .next (ppuRead a s)

/-- `NMT_WR`: the `PPU_WR` of `$2000..$3EFF` (R116). -/
def execNmtWr (a : Addr) (d : Byte) (s : State) : Host.Outcome State Fault Refusal :=
  .next (ppuWrite a d s)

/-- `PPU_PALETTE_RD`: the `PPU_RD` of `$3F00..$3FFF`, refused with `PpuPalette` (R113, R423): the state is
kept and the mark set. -/
def execPpuPaletteRd (a : Addr) (s : State) : Host.Outcome State Fault Refusal := .next (ppuRead a s)

/-- `PPU_PALETTE_WR`: the `PPU_WR` of `$3F00..$3FFF`, refused with `PpuPalette` (R113, R423). -/
def execPpuPaletteWr (a : Addr) (d : Byte) (s : State) : Host.Outcome State Fault Refusal :=
  .next (ppuWrite a d s)

end Sys2Proof.Machine
end

