-- ==== Sys2Proof/Machine/BoardRows.lean ====
section
/-! DEFINITION. The meanings of the board rows (R115). Each is the `CPU_WR` of its word: it reaches whatever
binding the address has, which on the row's board is that board's handler in `Machine/Boards.lean`, where
each row's effect has a definition of its own (assumption 14). -/

namespace Sys2Proof.Machine

/-- `NROM_WR_IGNORED` (R283): the binding is `Ignore`. -/
def execNromWrIgnored (a : Addr) (d : Byte) (s : State) : Host.Outcome State Fault Refusal :=
  .next (cpuWrite a d s)

/-- `MMC1_SERIAL_RESET` (R292): `mmc1SerialReset`. -/
def execMmc1SerialReset (a : Addr) (d : Byte) (s : State) : Host.Outcome State Fault Refusal :=
  .next (cpuWrite a d s)

/-- `MMC1_SHIFT_CONTROL` (R293): `mmc1ShiftControl`. -/
def execMmc1ShiftControl (a : Addr) (d : Byte) (s : State) : Host.Outcome State Fault Refusal :=
  .next (cpuWrite a d s)

/-- `MMC1_SHIFT_CHR0` (R294): `mmc1ShiftChr0`. -/
def execMmc1ShiftChr0 (a : Addr) (d : Byte) (s : State) : Host.Outcome State Fault Refusal :=
  .next (cpuWrite a d s)

/-- `MMC1_SHIFT_CHR1` (R295): `mmc1ShiftChr1`. -/
def execMmc1ShiftChr1 (a : Addr) (d : Byte) (s : State) : Host.Outcome State Fault Refusal :=
  .next (cpuWrite a d s)

/-- `MMC1_SHIFT_PRG` (R296): `mmc1ShiftPrg`. -/
def execMmc1ShiftPrg (a : Addr) (d : Byte) (s : State) : Host.Outcome State Fault Refusal :=
  .next (cpuWrite a d s)

/-- `UXROM_PRG_SELECT` (R312): `uxromWrite`. -/
def execUxromPrgSelect (a : Addr) (d : Byte) (s : State) : Host.Outcome State Fault Refusal :=
  .next (cpuWrite a d s)

/-- `CNROM_CHR_SELECT` (R322): `cnromWrite`. -/
def execCnromChrSelect (a : Addr) (d : Byte) (s : State) : Host.Outcome State Fault Refusal :=
  .next (cpuWrite a d s)

/-- `AXROM_SELECT` (R332): `axromWrite`. -/
def execAxromSelect (a : Addr) (d : Byte) (s : State) : Host.Outcome State Fault Refusal :=
  .next (cpuWrite a d s)

end Sys2Proof.Machine
end

