-- ==== Sys2Proof/Machine/Codec.lean ====
section
/-! DEFINITION. The save-state codec (46_state_codec.md): Saver, Loader, the block's chunks, what `SAVE`
writes, what `LOAD` checks and applies. -/

namespace Sys2Proof.Machine

/-! ### Little-endian numbers and tags -/

/-- The two bytes of a `u16`, little-endian (R79, R390). -/
def bytes16 (n : Nat) : List Byte := [BitVec.ofNat 8 n, BitVec.ofNat 8 (n / 2 ^ 8)]

/-- The four bytes of a `u32`, little-endian (R79, R121). -/
def bytes32 (n : Nat) : List Byte :=
  [BitVec.ofNat 8 n, BitVec.ofNat 8 (n / 2 ^ 8), BitVec.ofNat 8 (n / 2 ^ 16), BitVec.ofNat 8 (n / 2 ^ 24)]

/-- The number of little-endian bytes (R79). -/
def numberOf : List Byte → Nat
  | [] => 0
  | b :: bs => b.toNat + 256 * numberOf bs

/-- A FourCC (R122): its first character in bits 7..0. -/
def fourCC (a b c d : Byte) : Nat := numberOf [a, b, c, d]

/-- The tag `REG` (R122, R123). -/
def tagReg : Nat := fourCC 0x52 0x45 0x47 0x00

/-- The tag `WRK` (R123, R397). -/
def tagWrk : Nat := fourCC 0x57 0x52 0x4B 0x00

/-- The tag `CRM` (R123, R397). -/
def tagCrm : Nat := fourCC 0x43 0x52 0x4D 0x00

/-! ### Saver -/

/-- A Saver (R390): the bytes so far, and the starts of the open chunks, the innermost first. -/
structure Saver where
  bytes : List Byte
  starts : List Nat
deriving DecidableEq, Repr

/-- A new Saver. -/
def Saver.new : Saver := ⟨[], []⟩

/-- `Begin(tag)` (R390): the tag, and 0 in place of the length. -/
def Saver.beginChunk (sv : Saver) (tag : Nat) : Saver :=
  ⟨sv.bytes ++ bytes32 tag ++ bytes32 0, sv.bytes.length :: sv.starts⟩

/-- `Write(bytes)` (R390). -/
def Saver.write (sv : Saver) (bs : List Byte) : Saver := { sv with bytes := sv.bytes ++ bs }

/-- `Write8(v)` (R390). -/
def Saver.write8 (sv : Saver) (v : Byte) : Saver := sv.write [v]

/-- `Write16(v)` (R390). -/
def Saver.write16 (sv : Saver) (n : Nat) : Saver := sv.write (bytes16 n)

/-- `Write32(v)` (R390). -/
def Saver.write32 (sv : Saver) (n : Nat) : Saver := sv.write (bytes32 n)

/-- `End()` (R390): the length of the innermost open chunk is put in its place. With no chunk open, of which R390
does not speak, the Saver stays as it is (assumption 37, DESIGN CHOICE). -/
def Saver.endChunk (sv : Saver) : Saver :=
  match sv.starts with
  | [] => sv
  | p :: rest =>
    ⟨sv.bytes.take (p + 4) ++ bytes32 (sv.bytes.length - p - 8) ++ sv.bytes.drop (p + 8), rest⟩

/-- One chunk with a raw payload. -/
def Saver.chunk (sv : Saver) (tag : Nat) (payload : List Byte) : Saver :=
  ((sv.beginChunk tag).write payload).endChunk

/-- One bulk chunk (R394): method byte 0, then the raw bytes. -/
def Saver.bulk (sv : Saver) (tag : Nat) (data : List Byte) : Saver :=
  (((sv.beginChunk tag).write8 0).write data).endChunk

/-- The block's save stream (R397 to R400, R404). -/
def saveStream (s : State) : List Byte :=
  let sv0 := Saver.new
  let sv1 := if hasRegs s.cart.board then sv0.chunk tagReg (regBytes s.board) else sv0
  let sv2 := if s.cart.hasWrk then sv1.bulk tagWrk (s.ramWrk.toBytes s.cart.wrkSize) else sv1
  let sv3 := if s.cart.chrIsRam then sv2.bulk tagCrm (s.ramChr.toBytes 8192) else sv2
  sv3.bytes

/-! ### Loader -/

/-- A Loader (R391, R392): the bytes left in each open scope, the innermost first. -/
structure Loader where
  scopes : List (List Byte)
deriving DecidableEq, Repr

/-- A Loader over a whole stream. -/
def Loader.new (bs : List Byte) : Loader := ⟨[bs]⟩

/-- The bytes left in the current scope; none where no scope is open, of which R391 does not speak (assumption 38,
DESIGN CHOICE). -/
def Loader.current (ld : Loader) : List Byte := ld.scopes.headD []

/-- `Begin()` (R391): `none` at the end of the scope, else the tag, with a child scope open. -/
def Loader.beginChunk (ld : Loader) : Except LoadCheck (Option (Nat × Loader)) :=
  let cur := ld.current
  if cur = [] then .ok none
  else if cur.length < 8 then .error .truncatedHeader
  else
    let tag := numberOf (cur.take 4)
    let len := numberOf ((cur.drop 4).take 4)
    let rest := cur.drop 8
    if rest.length < len then .error .lengthExceeds
    else .ok (some (tag, ⟨rest.take len :: rest.drop len :: ld.scopes.tail⟩))

/-- `Read(buffer)` of `n` bytes (R391). -/
def Loader.readBytes (ld : Loader) (n : Nat) : Except LoadCheck (List Byte × Loader) :=
  if ld.current.length < n then .error .truncatedRead
  else .ok (ld.current.take n, ⟨ld.current.drop n :: ld.scopes.tail⟩)

/-- `Read8()` (R391). -/
def Loader.read8 (ld : Loader) : Except LoadCheck (Byte × Loader) :=
  match ld.readBytes 1 with
  | .ok (bs, ld') => .ok (bs.headD 0, ld')
  | .error e => .error e

/-- A little-endian number of `n` bytes. -/
def Loader.readNumber (ld : Loader) (n : Nat) : Except LoadCheck (Nat × Loader) :=
  match ld.readBytes n with
  | .ok (bs, ld') => .ok (numberOf bs, ld')
  | .error e => .error e

/-- `Read16()` (R391). -/
def Loader.read16 (ld : Loader) : Except LoadCheck (Nat × Loader) := ld.readNumber 2

/-- `Read32()` (R391). -/
def Loader.read32 (ld : Loader) : Except LoadCheck (Nat × Loader) := ld.readNumber 4

/-- `End()` (R391): skips the rest of the current scope and returns to its parent. The outermost scope has none, and
R391 does not speak of it: no scope is left (assumption 38, DESIGN CHOICE). -/
def Loader.endChunk (ld : Loader) : Loader := ⟨ld.scopes.tail⟩

/-! ### What a load reads -/

/-- The chunks a load has met (R405). -/
structure Collected where
  reg : Option BoardRegs
  wrk : Option (List Byte)
  crm : Option (List Byte)
deriving DecidableEq, Repr

/-- Nothing met yet. -/
def Collected.empty : Collected := ⟨none, none, none⟩

/-- A bulk payload that must give exactly `size` bytes (R394, R401). -/
def readBulk (size : Nat) (ld : Loader) : Except LoadCheck (List Byte) :=
  match ld.read8 with
  | .error e => .error e
  | .ok (method, ld') =>
    let data : Except LoadCheck (List Byte) :=
      if method = 0 then .ok ld'.current
      else if method = 1 then
        match Config.bulkDecode ld'.current with
        | some bs => .ok bs
        | none => .error .bulkDecode
      else .error .bulkMethod
    match data with
    | .ok bs => if bs.length = size then .ok bs else .error .bulkSize
    | .error e => .error e

/-- One chunk, its tag read and its scope open (R401): a known tag is read once, any other is skipped
(R393). -/
def readChunk (c : Cartridge) (tag : Nat) (ld : Loader) (got : Collected) : Except LoadCheck Collected :=
  if tag = tagReg then
    if got.reg.isSome then .error .duplicateTag
    else
      match regsOfBytes c.board ld.current with
      | .ok r => .ok { got with reg := some r }
      | .error e => .error e
  else if tag = tagWrk then
    if got.wrk.isSome then .error .duplicateTag
    else
      match readBulk (c.sourceSize .wrk) ld with
      | .ok bs => .ok { got with wrk := some bs }
      | .error e => .error e
  else if tag = tagCrm then
    if got.crm.isSome then .error .duplicateTag
    else
      match readBulk (c.sourceSize .chr) ld with
      | .ok bs => .ok { got with crm := some bs }
      | .error e => .error e
  else .ok got

/-- The sibling chunks of the current scope, in stream order (R391, R427), up to the end of the scope or a
tag 0, which `Begin` cannot tell from it (R122, assumption 34). `fuel` bounds their number: a chunk has at
least 8 bytes. -/
def readChunks (c : Cartridge) : Nat → Loader → Collected → Except LoadCheck Collected
  | 0, _, got => .ok got
  | fuel + 1, ld, got =>
    match ld.beginChunk with
    | .error e => .error e
    | .ok none => .ok got
    | .ok (some (tag, child)) =>
      if tag = 0 then .ok got
      else
        match readChunk c tag child got with
        | .error e => .error e
        | .ok got' => readChunks c fuel child.endChunk got'

/-- A whole stream, parsed and validated (R401, R405): a board with registers needs a `REG`. -/
def parseStream (c : Cartridge) (bs : List Byte) : Except LoadCheck Collected :=
  match readChunks c (bs.length + 1) (Loader.new bs) Collected.empty with
  | .error e => .error e
  | .ok got =>
    if hasRegs c.board && got.reg.isNone then .error .missingReg else .ok got

/-- Loaded bytes of one writable Source; CHR ROM has none to change (R31, assumption 17). -/
def loadRam (w : WinId) (data : Option (List Byte)) (s : State) : State :=
  match data with
  | none => s
  | some bs => if s.cart.writable w then s.setRam w (Memory.ofBytes 0 bs) else s

/-- Loaded registers. -/
def loadRegs (reg : Option BoardRegs) (s : State) : State :=
  match reg with
  | none => s
  | some r => { s with board := r }

/-- What a validated stream changes before `LoadUpdate()` (R405). -/
def applyLoad (got : Collected) (s : State) : State :=
  loadRam .chr got.crm (loadRam .wrk got.wrk (loadRegs got.reg s))

end Sys2Proof.Machine
end

