-- ==== Sys2Proof/Machine/HostPort.lean ====
section
/-! DEFINITION. The host's transactions: `RESET` (70_reset_and_hazards.md), `SAVE` and `LOAD`
(46_state_codec.md section 3). -/

namespace Sys2Proof.Machine

/-- The part of a reset before `SubReset` (R450, R451, R213): the clean slate and base bindings, and on a
hard reset the board's defaults, the default windows and `S.powered`. -/
def resetBase (hard : Bool) (s : State) : State :=
  let t := { s with bus := baseBus s.cart }
  if hard then defaultWindows { t with board := hardDefaults s.cart.board, powered := true } else t

/-- `RESET h` (R450). -/
def resetBlock (hard : Bool) (s : State) : State :=
  transact s fun s =>
    if hard = false ∧ s.powered = false then .error (.refused .notPoweredOn)
    else
      match subReset hard (resetBase hard s) with
      | .ok t => .ok (dropEvents t)
      | .error e => .error e

/-- `SAVE` (R404). -/
def saveBlock (s : State) : State :=
  transact s fun s => powerGate s (.ok { s with result := .stream (saveStream s) })

/-- `LOAD stream` (R405): parse and validate first, then apply, then `LoadUpdate()` (R406); no event
(R230). -/
def loadBlock (s : State) : State :=
  transact s fun s =>
    powerGate s
      (match parseStream s.cart s.stream with
       | .error c => .error (.error (.corruptSaveState c))
       | .ok got =>
         match boardUpdate (applyLoad got s) with
         | .ok t => .ok (dropEvents t)
         | .error e => .error e)

/-- `RESET_HARD` (R450). -/
def execResetHard (s : State) : Host.Outcome State Fault Refusal := .next (resetBlock true s)

/-- `RESET_SOFT` (R450). -/
def execResetSoft (s : State) : Host.Outcome State Fault Refusal := .next (resetBlock false s)

/-- `SAVE` (R404). -/
def execSave (s : State) : Host.Outcome State Fault Refusal := .next (saveBlock s)

/-- `LOAD` (R405). -/
def execLoad (s : State) : Host.Outcome State Fault Refusal := .next (loadBlock s)

end Sys2Proof.Machine
end

