-- ==== Sys2Proof/Machine/Dispatch.lean ====
section
/-! DEFINITION. The dispatch of an instruction to its meaning: one arm per row of the opcode table. -/

namespace Sys2Proof.Machine

def exec (i : Instr) (s : State) : Host.Outcome State Fault Refusal :=
  match i with
  | .cpuRd a => Sys2Proof.Machine.execCpuRd a s
  | .cpuWr a d => Sys2Proof.Machine.execCpuWr a d s
  | .ppuRd a => Sys2Proof.Machine.execPpuRd a s
  | .ppuWr a d => Sys2Proof.Machine.execPpuWr a d s
  | .resetHard => Sys2Proof.Machine.execResetHard s
  | .resetSoft => Sys2Proof.Machine.execResetSoft s
  | .save => Sys2Proof.Machine.execSave s
  | .load => Sys2Proof.Machine.execLoad s
  | .prgRd a => Sys2Proof.Machine.execPrgRd a s
  | .wrkRd a => Sys2Proof.Machine.execWrkRd a s
  | .wrkWr a d => Sys2Proof.Machine.execWrkWr a d s
  | .chrRd a => Sys2Proof.Machine.execChrRd a s
  | .chrWr a d => Sys2Proof.Machine.execChrWr a d s
  | .nmtRd a => Sys2Proof.Machine.execNmtRd a s
  | .nmtWr a d => Sys2Proof.Machine.execNmtWr a d s
  | .ppuPaletteRd a => Sys2Proof.Machine.execPpuPaletteRd a s
  | .ppuPaletteWr a d => Sys2Proof.Machine.execPpuPaletteWr a d s
  | .nromWrIgnored a d => Sys2Proof.Machine.execNromWrIgnored a d s
  | .mmc1SerialReset a d => Sys2Proof.Machine.execMmc1SerialReset a d s
  | .mmc1ShiftControl a d => Sys2Proof.Machine.execMmc1ShiftControl a d s
  | .mmc1ShiftChr0 a d => Sys2Proof.Machine.execMmc1ShiftChr0 a d s
  | .mmc1ShiftChr1 a d => Sys2Proof.Machine.execMmc1ShiftChr1 a d s
  | .mmc1ShiftPrg a d => Sys2Proof.Machine.execMmc1ShiftPrg a d s
  | .uxromPrgSelect a d => Sys2Proof.Machine.execUxromPrgSelect a d s
  | .cnromChrSelect a d => Sys2Proof.Machine.execCnromChrSelect a d s
  | .axromSelect a d => Sys2Proof.Machine.execAxromSelect a d s

end Sys2Proof.Machine
end

