-- ==== Sys2Proof/Machine/Step.lean ====
section
/-! DEFINITION. One step: the next waiting transaction, decoded on the board built and run. -/

namespace Sys2Proof.Machine

/-- One step of the block is one transaction, performed atomically (R5, R83). A reserved word is refused
(R113), before any other check (R427). With no transaction waiting the run stops (assumption 8). -/
def step (s : State) : Host.Outcome State Fault Refusal :=
  match fetch s with
  | none => .fault .noTransaction
  | some (w, t) =>
    match decode t.cart.board w with
    | .ok i => exec i t
    | .error _ => .next (refuseWord t)

/-- The state with a table word as its next transaction. -/
def State.withFetchWord (s : State) (nbits w : Nat) : State :=
  { s with pending := putWord (tableWord nbits w) s.pending }

end Sys2Proof.Machine
end

