-- ==== Sys2Proof/Machine/Assembler.lean ====
section
/-! DEFINITION. The spec's way of writing transactions (30_encoding.md section 5): lines, their words and
their text, and the pseudo-instructions. -/

namespace Sys2Proof.Machine

/-- A line of the syntax of R124. -/
inductive Line where
  | rd (a : Addr)
  | wr (a : Addr) (d : Byte)
  | prd (p : Addr)
  | pwr (p : Addr) (d : Byte)
  | resetHard
  | resetSoft
  | save
  | load (stream : String)
deriving DecidableEq, Repr

/-- The transaction of a line (R124). -/
def Line.instr : Line → Instr
  | .rd a => .cpuRd a
  | .wr a d => .cpuWr a d
  | .prd p => .ppuRd p
  | .pwr p d => .ppuWr p d
  | .resetHard => .resetHard
  | .resetSoft => .resetSoft
  | .save => .save
  | .load _ => .load

/-- The word of a line (R124). -/
def Line.word (l : Line) : Word := encode l.instr

/-- A hexadecimal digit. -/
def hexDigit (n : Nat) : Char := if n < 10 then Char.ofNat (48 + n) else Char.ofNat (55 + n)

/-- `digits` hexadecimal digits of a number, behind a `$` (R124). -/
def hexText (digits n : Nat) : String :=
  "$" ++ String.ofList ((List.range digits).map fun k => hexDigit (n / 16 ^ (digits - 1 - k) % 16))

/-- The text of a line (R124); `#` marks a data byte. -/
def Line.text : Line → String
  | .rd a => "RD " ++ hexText 4 a.toNat
  | .wr a d => "WR " ++ hexText 4 a.toNat ++ ", #" ++ hexText 2 d.toNat
  | .prd p => "PRD " ++ hexText 4 p.toNat
  | .pwr p d => "PWR " ++ hexText 4 p.toNat ++ ", #" ++ hexText 2 d.toNat
  | .resetHard => "RESET HARD"
  | .resetSoft => "RESET SOFT"
  | .save => "SAVE"
  | .load stream => "LOAD " ++ stream

/-- The pseudo-instructions of R125. `v` of `MMC1W` has 5 bits. -/
inductive Pseudo where
  | powerOn
  | rdw (a : Addr)
  | mmc1w (a : Addr) (v : BitVec 5)
  | mmc1rst (a : Addr)
deriving DecidableEq, Repr

/-- Bit `k` of an MMC1 register value, as the data byte of its serial write (R125). -/
def serialBit (v : BitVec 5) (k : Nat) : Byte := BitVec.ofNat 8 (v.toNat / 2 ^ k % 2)

/-- The expansion of a pseudo-instruction (R125). -/
def Pseudo.expand : Pseudo → List Line
  | .powerOn => [.resetHard]
  | .rdw a => [.rd a, .rd (a + 1)]
  | .mmc1w a v =>
    [.wr a (serialBit v 0), .wr a (serialBit v 1), .wr a (serialBit v 2), .wr a (serialBit v 3),
     .wr a (serialBit v 4)]
  | .mmc1rst a => [.wr a 0x80]

/-- The value of an `RDW` (R125): `lo + 256 * hi`. -/
def rdwValue (lo hi : Byte) : Nat := lo.toNat + 256 * hi.toNat

end Sys2Proof.Machine
end

