-- ==== Sys2Proof/Machine/Factory.lean ====
section
/-! DEFINITION. Before the first transaction (45_factory_identification.md, 70_reset_and_hazards.md section
2): the iNES header, the CRC database, the factory, the power-on state and the host's boot. -/

namespace Sys2Proof.Machine

/-! ### The iNES header -/

/-- Byte `k` of the cartridge file; the size check of R362 fails on a file that lacks a header byte that
matters (assumption 29). -/
def fileByte (file : List Byte) (k : Nat) : Byte := file.getD k 0

/-- The fields of the header (R118, R119, R363). -/
structure Header where
  prgSize : Nat
  chrSize : Nat
  mirroring : Mirroring
  battery : Bool
  trainer : Bool
  mapperId : Nat
  vs : Bool
  wrkSize : Nat
  dirty : Bool
deriving DecidableEq, Repr

/-- The flags word `F` (R119). -/
def headerFlags (file : List Byte) : Nat := numberOf [fileByte file 6, fileByte file 7]

/-- Bit `k` of the flags word. -/
def flagBit (file : List Byte) (k : Nat) : Bool := (headerFlags file).testBit k

/-- The dirty-header check (R364, C3): a printable byte at `DIRTY_OFFSET .. 15`. -/
def dirtyHeader (offset : Nat) (file : List Byte) : Bool :=
  (List.range 16).any fun k =>
    decide (offset ≤ k) && decide (0x20 ≤ (fileByte file k).toNat)
      && decide ((fileByte file k).toNat ≤ 0x7E)

/-- The header fields of a file (R363). Four-screen goes before the vertical bit. -/
def readHeader (p : Params) (file : List Byte) : Header where
  prgSize := (fileByte file 4).toNat * 16384
  chrSize := (fileByte file 5).toNat * 8192
  mirroring := if flagBit file 3 then .four else if flagBit file 0 then .v else .h
  battery := flagBit file 1
  trainer := flagBit file 2
  mapperId := headerFlags file / 2 ^ 12 % 16 * 16 + headerFlags file / 2 ^ 4 % 16
  vs := flagBit file 8
  wrkSize :=
    if (fileByte file 8).toNat = 0 then p.wramZeroSize else (fileByte file 8).toNat * 8192
  dirty := dirtyHeader p.dirtyOffset file

/-- The signature check (R361). -/
def signatureOk (file : List Byte) : Bool := file.take 4 == [0x4E, 0x45, 0x53, 0x1A]

/-- Where the PRG bytes start (R360). -/
def prgStart (h : Header) : Nat := if h.trainer then 528 else 16

/-- The size check (R362). -/
def sizesOk (h : Header) (file : List Byte) : Bool :=
  h.prgSize != 0 && decide (prgStart h + h.prgSize + h.chrSize ≤ file.length)

/-! ### CRC-32 and the database -/

/-- One bit of the reflected CRC-32 (R367). -/
def crcBit (c : Word) : Word := if c.getLsbD 0 then (c >>> 1) ^^^ 0xEDB88320 else c >>> 1

/-- One byte of the reflected CRC-32 (R367). -/
def crcByte (c : Word) (b : Byte) : Word :=
  crcBit (crcBit (crcBit (crcBit (crcBit (crcBit (crcBit (crcBit (c ^^^ b.setWidth 32))))))))

/-- The CRC-32 of a byte list (R367). -/
def crc32 (bs : List Byte) : Word := bs.foldl crcByte 0xFFFFFFFF ^^^ 0xFFFFFFFF

/-- The television or arcade system of a database entry (R368). -/
inductive System where
  | ntsc | pal | vs | pc10
deriving DecidableEq, Repr

/-- A database entry (R368) with its attribute flag (R366). -/
structure DbEntry where
  crc : Word
  boardId : Nat
  prgSize : Nat
  chrSize : Nat
  wrkSize : Nat
  system : System
  mirroring : Mirroring
  battery : Bool
  trainer : Bool
  badDump : Bool
  hacked : Bool
  translated : Bool
  unlicensed : Bool
  bootleg : Bool
  attrFlag : Option Bool
deriving DecidableEq, Repr

/-- The lookup (R368, D46): the entry whose key equals the CRC, or a miss. Over a sorted table with unique
keys a search from the front finds what a binary search finds. -/
def dbLookup (db : List DbEntry) (crc : Word) : Option DbEntry := db.find? (fun e => e.crc = crc)

/-- What identification gives (R366): the fields of `cfg`, and the outputs that change no bus rule. -/
structure Identified where
  boardId : Nat
  crc : Word
  attrFlag : Option Bool
  prg : List Byte
  chr : List Byte
  wrkSize : Nat
  wrkBacked : Nat
  mirroring : Mirroring
  battery : Bool
  system : Option System
  vs : Bool
  dirty : Bool
deriving DecidableEq, Repr

/-- The payload the CRC covers (R367): PRG then CHR, the trainer first under `CRC_WITH_TRAINER`. -/
def crcPayload (p : Params) (h : Header) (file : List Byte) : List Byte :=
  (if p.crcWithTrainer && h.trainer then (file.drop 16).take 512 else [])
    ++ (file.drop (prgStart h)).take (h.prgSize + h.chrSize)

/-- The system the header names: only its VS flag does (assumption 22). -/
def headerSystem (h : Header) : Option System := if h.vs then some .vs else none

/-- A hit overrides the mapper id, mirroring, battery and system (R369); on a miss the header's values
stand (R370). Sizes are the header's. -/
def withDatabase (hit : Option DbEntry) (h : Header) (crc : Word) (file : List Byte) : Identified :=
  let battery := match hit with
    | some e => e.battery
    | none => h.battery
  { boardId := match hit with
      | some e => e.boardId
      | none => h.mapperId
    crc := crc
    attrFlag := match hit with
      | some e => e.attrFlag
      | none => none
    prg := (file.drop (prgStart h)).take h.prgSize
    chr := (file.drop (prgStart h + h.prgSize)).take h.chrSize
    wrkSize := h.wrkSize
    wrkBacked := if battery then h.wrkSize else 0
    mirroring := match hit with
      | some e => e.mirroring
      | none => h.mirroring
    battery := battery
    system := match hit with
      | some e => some e.system
      | none => headerSystem h
    vs := h.vs
    dirty := h.dirty }

/-- Identification (R361 to R372): signature, then sizes, then CRC and lookup. -/
def identify (p : Params) (db : List DbEntry) (file : List Byte) : Except Error Identified :=
  let h := readHeader p file
  if signatureOk file = false then .error (.invalidHeader .signature)
  else if sizesOk h file = false then .error (.invalidHeader .size)
  else
    let crc := crc32 (crcPayload p h file)
    .ok (withDatabase (dbLookup db crc) h crc file)

/-! ### The factory -/

/-- The boards of 44_boards.md by their ids (R340, R350). -/
def modelledBoard : Nat → Option Board
  | 0 => some .nrom
  | 1 => some .mmc1
  | 2 => some .uxrom
  | 3 => some .cnrom
  | 7 => some .axrom
  | _ => none

/-- MMC1's size limits (R290, R351). -/
def withinLimits (b : Board) (prgSize chrSize : Nat) : Bool :=
  decide (b ≠ .mmc1) || (decide (prgSize ≤ 262144) && decide (chrSize ≤ 131072))

/-- `Create(id, crc, attribute)` (R350 to R352): neither the CRC nor the attribute takes part. -/
def create (p : Params) (id : BoardId) (prgSize chrSize : Nat) : Host.Outcome Board Fault Refusal :=
  match id with
  | .menu4 => .next menu4
  | .number n =>
    match modelledBoard n with
    | some b => if withinLimits b prgSize chrSize then .next b else .refused (.boardNotModelled n)
    | none =>
      if p.catalogue.val.contains n then .refused (.boardNotModelled n)
      else .fault (.error (.unsupportedMapper n))

/-! ### Power-on and boot -/

/-- The pages of a window set before the first hard reset (R46: undefined; assumption 16). -/
def unsetPages (w : WinId) : List Page := List.replicate (span w / pageSize w) ⟨0, 0, pageSize w, 0⟩

/-- The draws of a power-on (R8, R46): `INIT_LATCH`, and `INIT_RAM` of each writable Source by offset. A byte
beyond the list is unlisted, one beyond the Source is dropped. -/
structure PowerDraws where
  latch : Byte
  chr : List Byte
  nmt : List Byte
  wrk : List Byte
deriving DecidableEq, Repr

/-- The power-on contents of a writable Source. -/
def initialRam (c : Cartridge) (w : WinId) (bs : List Byte) : Memory :=
  Memory.ofBytes 0 (bs.take (c.ramSize w))

/-- The state at power-on, before the first reset (R43, R46, R353): not powered, with the draws for the latch
and RAM, and the transactions the host will issue. -/
def State.powerOn (c : Cartridge) (d : PowerDraws) (pending : List Transaction) : State where
  cart := c
  bus := []
  latch := d.latch
  prg := unsetPages .prg
  chr := unsetPages .chr
  nmt := unsetPages .nmt
  wrk := unsetPages .wrk
  ramChr := initialRam c .chr d.chr
  ramNmt := initialRam c .nmt d.nmt
  ramWrk := initialRam c .wrk d.wrk
  board := hardDefaults c.board
  powered := false
  refused := false
  pending := pending
  stream := []
  result := .done
  events := []
  draws := 0

/-- What the host brings to a boot (R456): the parameters, the database, the cartridge file, the Source whose
allocation fails if one does (R420), the battery image if it has one, the power-on draws, and the
transactions the agents issue after the `RESET HARD`. -/
structure BootInput where
  params : Params
  db : List DbEntry
  file : List Byte
  allocFails : Option WinId
  battery : Option (List Byte)
  draws : PowerDraws
  pending : List Transaction
deriving DecidableEq, Repr

/-- The configuration of an identified cartridge and its board (R366). -/
def cartridgeOf (p : Params) (d : Identified) (b : Board) : Cartridge where
  boardId := .number d.boardId
  board := b
  crc := d.crc
  attrFlag := d.attrFlag
  prgSize := d.prg.length
  prgBytes := Memory.ofBytes 0 d.prg
  chrSize := d.chr.length
  chrBytes := Memory.ofBytes 0 d.chr
  wrkSize := d.wrkSize
  wrkBacked := d.wrkBacked
  mirroring := d.mirroring
  params := p

/-- The battery image in `S.ram.WRK` (R456 step 4, D36); without one the draw stands. -/
def withBattery (image : Option (List Byte)) (s : State) : State :=
  match image with
  | none => s
  | some bs => { s with ramWrk := initialRam s.cart .wrk bs }

/-- The `RESET HARD` the host issues at the end of a boot (R456 step 5). -/
def bootReset : Transaction := ⟨encode .resetHard, []⟩

/-- The host's boot (R372, R456): identify, build the Sources, build the board, place the battery image,
issue `RESET HARD`, which is the first transaction to be answered. -/
def boot (h : BootInput) : Host.Outcome State Fault Refusal :=
  match identify h.params h.db h.file with
  | .error e => .fault (.error e)
  | .ok d =>
    match h.allocFails with
    | some w => .fault (.error (.outOfMemory ((cartridgeOf h.params d .nrom).sourceSize w)))
    | none =>
      match create h.params (.number d.boardId) d.prg.length d.chr.length with
      | .fault r => .fault r
      | .refused r => .refused r
      | .next b => .next (withBattery h.battery
        (State.powerOn (cartridgeOf h.params d b) h.draws (bootReset :: h.pending)))

/-- The codes of the errors (R420, D30). -/
def Error.code : Error → Nat
  | .invalidHeader _ => 1
  | .unsupportedMapper _ => 2
  | .corruptSaveState _ => 3
  | .outOfMemory _ => 4

end Sys2Proof.Machine
end

