-- ==== Sys2Proof/Safety.lean ====
section
/-! DEFINITION. The terms of the claims: when a state is well-formed, when the windows and the dispatch table
follow the board's registers, the windows each board's rules give, the rows of one transaction, and when a
run is accepted. Nothing here takes part in a step. -/

namespace Sys2Proof.Machine

/-! ### Well-formed states -/

/-- The fields of a page lie in their ranges (R38): an offset in the Source, a swap size of `SWAP_SIZES`, and
a position inside the swap. -/
abbrev Page.wf (c : Cartridge) (w : WinId) (p : Page) : Prop :=
  p.off < max (c.sourceSize w) 1 ∧ p.size ∈ swapSizes ∧ p.sub * pageSize w < p.size

/-- A window set has the pages of R39, each with fields in range. -/
abbrev pagesWf (c : Cartridge) (w : WinId) (ps : List Page) : Prop :=
  ps.length = span w / pageSize w ∧ ∀ p ∈ ps, p.wf c w

/-- MMC1's legal registers (R290): `count` 0..4, `shift` below `2^count`. -/
abbrev Mmc1Regs.legal (r : Mmc1Regs) : Prop :=
  r.count.toNat < 5 ∧ r.shift.toNat < 2 ^ r.count.toNat

/-- The register record is the one of the board built (R41), its values legal (`menu < MENU_COUNT` for the
modelled menu, R401). -/
abbrev regsMatch : Board → BoardRegs → Prop
  | .nrom, .none => True
  | .mmc1, .mmc1 r => r.legal
  | .uxrom, .uxrom _ => True
  | .cnrom, .cnrom _ => True
  | .axrom, .axrom _ => True
  | .menu p, .menu m => p = menu4Params → m.toNat < 4
  | .latch _, .latch _ _ => True
  | .pattern _, .none => True
  | _, _ => False

/-- A writable Source's contents are in canonical form and lie inside the Source (R36). -/
abbrev ramWf (c : Cartridge) (w : WinId) (m : Memory) : Prop := m.wf ∧ m.within (c.ramSize w)

/-- A well-formed state: RAM in canonical form inside its Source, page fields in range, registers of the
board built. -/
structure State.Wf (s : State) : Prop where
  chrRam : ramWf s.cart .chr s.ramChr
  nmtRam : ramWf s.cart .nmt s.ramNmt
  wrkRam : ramWf s.cart .wrk s.ramWrk
  prgPages : pagesWf s.cart .prg s.prg
  chrPages : pagesWf s.cart .chr s.chr
  nmtPages : pagesWf s.cart .nmt s.nmt
  wrkPages : pagesWf s.cart .wrk s.wrk
  regs : regsMatch s.cart.board s.board

/-! ### Windows and table as functions of the board -/

/-- The boards of 44_boards.md and `MENU4` (R340). -/
def modelled : Board → Bool
  | .nrom | .mmc1 | .uxrom | .cnrom | .axrom => true
  | .menu p => decide (p = menu4Params)
  | .latch _ | .pattern _ => false

/-- The dispatch table a reset of a modelled board leaves (R185, R282, R291, R311, R321, R331, R259). -/
def boardTable (c : Cartridge) : Bus :=
  match c.board with
  | .mmc1 =>
    (if c.params.mmc1WramGate && c.hasWrk then
        [⟨0x6000, 0x7FFF, some (.boardRead .mmc1Wrk), some (.boardWrite .mmc1Wrk)⟩] else [])
      ++ ⟨0x8000, 0xFFFF, none, some (.boardWrite .mmc1)⟩ :: baseBus c
  | .uxrom => ⟨0x8000, 0xFFFF, none, some (.boardWrite .uxrom)⟩ :: baseBus c
  | .cnrom => ⟨0x8000, 0xFFFF, none, some (.boardWrite .cnrom)⟩ :: baseBus c
  | .axrom => ⟨0x8000, 0xFFFF, none, some (.boardWrite .axrom)⟩ :: baseBus c
  | .nrom | .menu _ | .latch _ | .pattern _ => baseBus c

/-- The pages of one swap that covers `count` pages. -/
def swapPages (c : Cartridge) (w : WinId) (size i count : Nat) : List Page :=
  (List.range count).map (swappedPage c w size i)

/-- The Prg pages of a 32 KiB bank. -/
def prg32 (c : Cartridge) (i : Nat) : List Page := swapPages c .prg 32768 i 4

/-- The Prg pages of a 16 KiB bank at `$8000` and one at `$C000`. -/
def prg16 (c : Cartridge) (i j : Nat) : List Page := swapPages c .prg 16384 i 2 ++ swapPages c .prg 16384 j 2

/-- The Chr pages of an 8 KiB bank. -/
def chr8 (c : Cartridge) (i : Nat) : List Page := swapPages c .chr 8192 i 8

/-- The Chr pages of a 4 KiB bank at `$0000` and one at `$1000`. -/
def chr4 (c : Cartridge) (i j : Nat) : List Page := swapPages c .chr 4096 i 4 ++ swapPages c .chr 4096 j 4

/-- The Nmt pages of a mirroring table. -/
def nmtOf (c : Cartridge) (t : Table) : List Page :=
  [swappedPage c .nmt 1024 t.t0 0, swappedPage c .nmt 1024 t.t1 0, swappedPage c .nmt 1024 t.t2 0,
   swappedPage c .nmt 1024 t.t3 0]

/-- The Nmt pages of a mode a board selects: a four-screen cartridge ignores it (R226). -/
def nmtOfMode (c : Cartridge) (m : Mirroring) : List Page :=
  nmtOf c (mirrorTable (if c.mirroring = .four then .four else m))

/-- MMC1's Prg pages (R297). -/
def mmc1PrgPages (c : Cartridge) (r : Mmc1Regs) : List Page :=
  if field r.ctrl 3 2 = 3 then prg16 c (field r.prg 3 0) 15
  else if field r.ctrl 3 2 = 2 then prg16 c 0 (field r.prg 3 0)
  else prg32 c (field r.prg 3 0 / 2)

/-- MMC1's Chr pages (R297). -/
def mmc1ChrPages (c : Cartridge) (r : Mmc1Regs) : List Page :=
  if field r.ctrl 4 4 = 1 then chr4 c r.chr0.toNat r.chr1.toNat else chr8 c (r.chr0.toNat / 2)

/-- The mode of MMC1's `ctrl[1:0]` (R290). -/
def mmc1Mirroring (r : Mmc1Regs) : Mirroring :=
  [Mirroring.s0, .s1, .v, .h].getD (field r.ctrl 1 0) .h

/-- The mode of AxROM's `reg[4]` (R330). -/
def axromMirroring (reg : Byte) : Mirroring := if field reg 4 4 = 1 then .s1 else .s0

/-- The events of a `SetMirroring` that finds `PpuUpdate` already noted or notes it (R226, R230). -/
def mirrorEvents (c : Cartridge) (m : Mirroring) : List Event :=
  if c.mirroring = .four then [] else [.ppuUpdate, .ppuSetMirroring (mirrorTable m)]

/-- The four window sets of a state. -/
structure Windows where
  prg : List Page
  chr : List Page
  nmt : List Page
  wrk : List Page
deriving DecidableEq, Repr

/-- The windows of a state. -/
def State.windows (s : State) : Windows := ⟨s.prg, s.chr, s.nmt, s.wrk⟩

/-- The windows the rules of a modelled board give its registers (R340): R282, R297, R311, R321, R331, R259
over the default windows of R213. -/
def boardWindows (c : Cartridge) (regs : BoardRegs) : Windows :=
  let wrk := swapPages c .wrk 8192 0 1
  let home := nmtOf c (mirrorTable c.mirroring)
  match c.board, regs with
  | .mmc1, .mmc1 r => ⟨mmc1PrgPages c r, mmc1ChrPages c r, nmtOfMode c (mmc1Mirroring r), wrk⟩
  | .uxrom, .uxrom prg => ⟨prg16 c prg.toNat 0xFFFFFFFF, chr8 c 0, home, wrk⟩
  | .cnrom, .cnrom chr => ⟨prg32 c 0, chr8 c chr.toNat, home, wrk⟩
  | .axrom, .axrom reg => ⟨prg32 c (field reg 3 0), chr8 c 0, nmtOfMode c (axromMirroring reg), wrk⟩
  | .menu _, .menu m => ⟨prg32 c m.toNat, chr8 c m.toNat, home, wrk⟩
  | _, _ => ⟨prg32 c 0, chr8 c 0, home, wrk⟩

/-- Once powered, the dispatch table is the board's, and the windows are the ones the board's rules compute
from its registers (R402, R407, R455). -/
def State.Settled (s : State) : Prop :=
  s.powered = true → s.bus = boardTable s.cart ∧ s.windows = boardWindows s.cart s.board

/-- A powered state of a modelled board that is well-formed and settled: what every run of that board reaches
after its first hard reset. -/
structure State.Ready (s : State) (b : Board) : Prop where
  wf : s.Wf
  settled : s.Settled
  powered : s.powered = true
  board : s.cart.board = b

/-! ### Rows of one transaction -/

/-- The rows that are a `CPU_RD` of an address (R116). -/
def cpuReads (a : Addr) : List Instr := [.cpuRd a, .prgRd a, .wrkRd a]

/-- The rows that are a `CPU_WR` of a byte to an address (R115, R116). -/
def cpuWrites (a : Addr) (d : Byte) : List Instr :=
  [.cpuWr a d, .wrkWr a d, .nromWrIgnored a d, .mmc1SerialReset a d, .mmc1ShiftControl a d,
   .mmc1ShiftChr0 a d, .mmc1ShiftChr1 a d, .mmc1ShiftPrg a d, .uxromPrgSelect a d, .cnromChrSelect a d,
   .axromSelect a d]

/-- The four rows of a serial write of MMC1, by address (R293 to R296). -/
def mmc1ShiftRow (a : Addr) (d : Byte) : Instr := refineMmc1 a d

/-- The rows that are a `PPU_RD` of an address (R113, R116). -/
def ppuReads (a : Addr) : List Instr := [.ppuRd a, .chrRd a, .nmtRd a, .ppuPaletteRd a]

/-- The rows that are a `PPU_WR` of a byte to an address (R113, R116). -/
def ppuWrites (a : Addr) (d : Byte) : List Instr := [.ppuWr a d, .chrWr a d, .nmtWr a d, .ppuPaletteWr a d]

/-- The words R113 reserves, in its own terms. -/
def ReservedWord (w : Word) : Prop :=
  let cls := field w 31 28
  let a := field w 23 8
  cls ∉ [0x1, 0x2, 0x3, 0x4, 0x8, 0x9, 0xA] ∨ field w 27 25 ≠ 0
    ∨ (field w 24 24 ≠ 0 ∧ cls ≠ 0x8)
    ∨ (a ≠ 0 ∧ cls ∈ [0x8, 0x9, 0xA])
    ∨ (field w 7 0 ≠ 0 ∧ cls ∉ [0x2, 0x4])
    ∨ (a / 2 ^ 14 ≠ 0 ∧ cls ∈ [0x3, 0x4])

/-! ### Runs -/

/-- Several transactions, run by their meanings one after the other. -/
def execAll : List Instr → State → Host.Outcome State Fault Refusal
  | [], s => .next s
  | i :: is, s =>
    match exec i s with
    | .next t => execAll is t
    | .fault r => .fault r
    | .refused r => .refused r

/-- A run of `k` steps that ends with no transaction refused (R44): what a claim about a run assumes, since no
claim holds of a run once it is refused (R423). -/
def SafeRun (k : Nat) (s : State) : Prop :=
  ∃ t, Host.Core.run core k s = .next t ∧ t.refused = false

end Sys2Proof.Machine
end

