-- ==== Sys2Proof/Certificates/Slice0/Obligations.lean ====
section
/-! DEFINITION. The statements for the provers. Each says which rule or section of the spec it formalises; a
clause that rests on a choice of the model names the assumption. -/

open Sys2Proof Sys2Proof.Machine

/-! ### Encoding -/

/-- R126: the four worked encodings, and the fields of the first. -/
def Obligations.WorkedWordsDecode : Prop :=
  (decodeClass 0x20800005 = .ok (.cpuWr 0x8000 0x05)
    ∧ field (0x20800005 : Word) 31 28 = 0x2 ∧ field (0x20800005 : Word) 27 25 = 0
    ∧ field (0x20800005 : Word) 24 24 = 0 ∧ field (0x20800005 : Word) 23 8 = 0x8000
    ∧ field (0x20800005 : Word) 7 0 = 0x05)
  ∧ decodeClass 0x81000000 = .ok .resetHard
  ∧ decodeClass 0x30240000 = .ok (.ppuRd 0x2400)
  ∧ decodeClass 0x10FFFC00 = .ok (.cpuRd 0xFFFC)

/-- R110 to R112: the word of each transaction of R111, with every operand its fields admit, decodes to it. -/
def Obligations.TransactionDecodesFromItsWord : Prop :=
  ∀ i : Instr, i.isClass = true → i.wf = true → decodeClass (encode i) = .ok i

/-- R115 and R116: on each board, the word of each row that is the most specific one of its word decodes to
that row, with every operand (that the most specific row is named is the model's choice, assumption 13). -/
def Obligations.RowDecodesFromItsWord : Prop :=
  ∀ (b : Board) (i : Instr), i.rowFor b = true → decode b (encode i) = .ok i

/-- The other direction: a word that decodes is the encoding of what it decodes to, and that is the most
specific row of the word (the model's choice, assumption 13). -/
def Obligations.DecodedWordIsTheEncoding : Prop :=
  ∀ (b : Board) (w : Word) (i : Instr), decode b w = .ok i → encode i = w ∧ i.rowFor b = true

/-- R113: a step on a reserved word is refused with `ReservedEncoding`, whatever the state, and changes
nothing but the mark (and takes the transaction); every other word decodes, a palette address among them,
which is refused by value. (That a refused transaction is a next state, and that transactions wait in a list,
are the model's choices, assumptions 9 and 8.) -/
def Obligations.ReservedWordsAreRefused : Prop :=
  (∀ (s : State) (t : Transaction) (rest : List Transaction), s.pending = t :: rest → ReservedWord t.word →
    step s = .next { s with pending := rest, stream := t.stream, refused := true,
                            result := .refused .reservedEncoding, events := [] })
  ∧ (∀ (b : Board) (w : Word), ¬ ReservedWord w → ∃ i, decode b w = .ok i)
  ∧ (∀ (b : Board) (a : Addr) (d : Byte) (s : State), 0x3F00 ≤ a.toNat → a.toNat < 0x4000 → s.powered = true →
      decode b (encode (.ppuRd a)) = .ok (.ppuPaletteRd a)
      ∧ decode b (encode (.ppuWr a d)) = .ok (.ppuPaletteWr a d)
      ∧ ∀ i ∈ [Instr.ppuPaletteRd a, .ppuPaletteWr a d],
          exec i s = .next { s with refused := true, result := .refused .ppuPalette, events := [] })

/-- R115 and R116: a row is a sub-case of its transaction, so running the row a board gives a transaction is
running the transaction (the model's reading, assumption 14). -/
def Obligations.RowsMeanTheirTransaction : Prop :=
  ∀ (b : Board) (i : Instr) (s : State), exec (refine b i) s = exec i s

/-! ### Steps and runs -/

/-- R5, R7, R87 (and assumption 8): a step takes the next waiting transaction and runs the row its word decodes
to; it adds nothing else. With nothing waiting the run stops. -/
def Obligations.StepRunsTheNextTransaction : Prop :=
  (∀ (s : State) (t : Transaction) (rest : List Transaction) (i : Instr),
    s.pending = t :: rest → decode s.cart.board t.word = .ok i →
    step s = exec i { s with pending := rest, stream := t.stream })
  ∧ ∀ s : State, s.pending = [] → step s = .fault .noTransaction

/-- R87, R423: every waiting transaction is answered, in order; no answer ends a run or changes the
configuration (the list of them, and refusals and errors as next states, are the model's choices, assumptions
8, 9 and 10). -/
def Obligations.RunAnswersEveryWaitingTransaction : Prop :=
  ∀ (k : Nat) (s : State), k ≤ s.pending.length →
    ∃ t, Host.Core.run core k s = .next t ∧ t.pending = s.pending.drop k ∧ t.cart = s.cart

/-! ### Power and refusals -/

/-- R43: `S.powered` is 0 at power-on and 1 after a hard reset; no transaction clears it; before it every
transaction but a hard reset is refused with `NotPoweredOn` (a next state, assumption 9).
R456: a boot ends with the hard reset issued, which its first step answers; the block is powered then. -/
def Obligations.UnpoweredTransactionsAreRefused : Prop :=
  (∀ c d p, (State.powerOn c d p).powered = false)
  ∧ (∀ (i : Instr) (s : State), s.powered = false → i ≠ .resetHard →
      exec i s = .next { s with refused := true, result := .refused .notPoweredOn, events := [] })
  ∧ (∀ s t : State, modelled s.cart.board = true → exec .resetHard s = .next t → t.powered = true)
  ∧ (∀ (i : Instr) (s t : State), exec i s = .next t → s.powered = true → t.powered = true)
  ∧ ∀ (h : BootInput) (s : State), boot h = .next s → s.powered = false ∧ s.refused = false
      ∧ ∃ t, step s = .next t ∧ t.powered = true ∧ t.refused = false ∧ t.pending = h.pending

/-- R44: `S.refused` is 0 at power-on, becomes 1 at a refused transaction and at no other, and nothing clears
it. -/
def Obligations.RefusalMarkIsSticky : Prop :=
  (∀ c d p, (State.powerOn c d p).refused = false)
  ∧ ∀ s t : State, step s = .next t →
      (s.refused = true → t.refused = true)
      ∧ ((∃ r, t.result = .refused r) → t.refused = true)
      ∧ ((∀ r, t.result ≠ .refused r) → t.refused = s.refused)

/-- R423: a refused transaction leaves the state unchanged except for the mark (and returns its reason: the
model's choice, assumption 9). -/
def Obligations.RefusalLeavesTheState : Prop :=
  ∀ (i : Instr) (s t : State) (r : RefuseReason), exec i s = .next t → t.result = .refused r →
    t = { s with refused := true, result := .refused r, events := [] }

/-- R422: port transactions, resets and saves complete or are refused; none returns an error (refusals are next
states by the model's choice, assumption 9). -/
def Obligations.OnlyLoadReturnsAnError : Prop :=
  ∀ (i : Instr) (s : State), i ≠ .load → ∃ t, exec i s = .next t ∧ ∀ e, t.result ≠ .error e

/-- R421, R401: a load that fails leaves the state as it was, and these streams fail: for a board with
registers, one without a `REG`; a header cut short; a chunk longer than the stream; a second `REG`
(that the error is a next state is the model's choice, assumption 10; the order of checks, assumption 18); and,
whatever follows the chunk: a `REG` shorter than the board's layout; an MMC1 or `MENU4` register out of its range
(R299, R401); a `WRK` or `CRM` without a method byte, with a method other than 0 and 1, with a decode that fails,
or that does not give exactly the Source's size (R394); a second `WRK` or `CRM`. -/
def Obligations.FailedLoadLeavesTheState : Prop :=
  (∀ (s t : State) (e : Error), exec .load s = .next t → t.result = .error e →
    t = { s with result := .error e, events := [] } ∧ ∃ c, e = .corruptSaveState c)
  ∧ (∀ s : State, s.powered = true → hasRegs s.cart.board = true → s.stream = [] →
      exec .load s = .next { s with result := .error (.corruptSaveState .missingReg), events := [] })
  ∧ (∀ s : State, s.powered = true → 0 < s.stream.length → s.stream.length < 8 →
      exec .load s = .next { s with result := .error (.corruptSaveState .truncatedHeader), events := [] })
  ∧ (∀ (s : State) (tag len : Nat) (payload : List Byte), s.powered = true → payload.length < len →
      len < 2 ^ 32 → s.stream = bytes32 tag ++ bytes32 len ++ payload →
      exec .load s = .next { s with result := .error (.corruptSaveState .lengthExceeds), events := [] })
  ∧ (∀ (s : State) (v w : Byte), s.powered = true → s.cart.board = .uxrom →
      s.stream = bytes32 tagReg ++ bytes32 1 ++ [v] ++ (bytes32 tagReg ++ bytes32 1 ++ [w]) →
      exec .load s = .next { s with result := .error (.corruptSaveState .duplicateTag), events := [] })
  ∧ ∀ (s : State) (payload rest : List Byte), s.powered = true → payload.length < 2 ^ 32 →
      let chunk := fun (tag : Nat) (bs : List Byte) => bytes32 tag ++ bytes32 bs.length ++ bs
      let fails := fun c : LoadCheck =>
        exec .load s = .next { s with result := .error (.corruptSaveState c), events := [] }
      (s.stream = chunk tagReg payload ++ rest →
        (modelled s.cart.board = true → payload.length < (regBytes (hardDefaults s.cart.board)).length →
          fails .shortReg)
        ∧ (∀ (c c0 c1 p sh n : Byte) (more : List Byte), s.cart.board = .mmc1 →
            payload = c :: c0 :: c1 :: p :: sh :: n :: more →
            (32 ≤ c.toNat ∨ 32 ≤ c0.toNat ∨ 32 ≤ c1.toNat ∨ 32 ≤ p.toNat ∨ 32 ≤ sh.toNat ∨ 5 ≤ n.toNat
              ∨ 2 ^ n.toNat ≤ sh.toNat) → fails .illegalReg)
        ∧ (∀ (v : Byte) (more : List Byte), s.cart.board = menu4 → payload = v :: more → 4 ≤ v.toNat →
            fails .illegalReg))
      ∧ ∀ tw ∈ [(tagWrk, WinId.wrk), (tagCrm, .chr)],
        (s.stream = chunk tw.1 payload ++ rest →
          (payload = [] → fails .truncatedRead)
          ∧ ∀ (m : Byte) (data : List Byte), payload = m :: data →
            (2 ≤ m.toNat → fails .bulkMethod)
            ∧ (m = 0 → data.length ≠ s.cart.sourceSize tw.2 → fails .bulkSize)
            ∧ (m = 1 → match Config.bulkDecode data with
              | none => fails .bulkDecode
              | some bs => bs.length ≠ s.cart.sourceSize tw.2 → fails .bulkSize))
        ∧ ∀ data : List Byte, data.length = s.cart.sourceSize tw.2 → data.length + 1 < 2 ^ 32 →
          s.stream = chunk tw.1 (0 :: data) ++ chunk tw.1 payload ++ rest → fails .duplicateTag

/-- R30: no transaction changes the configuration, the ROM bytes among it (it is a field of State by
the model's choice, assumption 1). -/
def Obligations.ConfigurationIsFixed : Prop :=
  ∀ s t : State, step s = .next t → t.cart = s.cart

/-- R455: the dispatch table changes in a reset only. -/
def Obligations.TableIsConstantBetweenResets : Prop :=
  ∀ (i : Instr) (s t : State), exec i s = .next t → i ≠ .resetHard → i ≠ .resetSoft → t.bus = s.bus

/-! ### The CPU port -/

/-- R190, R298: a CPU read, under any of its rows, returns what the address's read binding drives and puts it in the
latch; nothing else changes. The byte of a `System` address is a free draw
(assumption 5). MMC1's gated WRK read, where the registers are another board's, reads the plain window: the model's
choice (assumption 25), of which neither rule speaks. -/
def Obligations.CpuReadDrivesTheBoundByte : Prop :=
  ∀ (a : Addr) (i : Instr) (s : State), i ∈ cpuReads a → s.powered = true →
    let v : Byte := match s.bus.readAt a.toNat with
      | .system => Config.systemRead s.draws a
      | .openBus => s.latch
      | .openBusHigh => BitVec.ofNat 8 (field a 15 8)
      | .const c => c
      | .prgWin => readBM .prg (a.toNat - 0x8000) s
      | .wrkWin => readBM .wrk (a.toNat - 0x6000) s
      | .boardRead .mmc1Wrk =>
        match s.board with
        | .mmc1 r => if r.prg.getLsbD 4 then s.latch else readBM .wrk (a.toNat - 0x6000) s
        | _ => readBM .wrk (a.toNat - 0x6000) s
    exec i s = .next { s with
      latch := v, result := .byte v, events := [],
      draws := if s.bus.readAt a.toNat = .system then s.draws + 1 else s.draws }

/-- R160, R162: a read through the Prg or Wrk windows returns the Source byte of the page's offset; an absent
WRK reads as the latch. -/
def Obligations.WindowReadsGiveTheMappedByte : Prop :=
  (∀ (a : Addr) (i : Instr) (s : State) (p : Page), i ∈ [Instr.prgRd a, .cpuRd a] → s.powered = true →
    s.bus.readAt a.toNat = .prgWin → s.cart.prgSize ≠ 0 → s.prg[(a.toNat - 0x8000) / 8192]? = some p →
    let v := s.cart.prgBytes.read ((p.off + (a.toNat - 0x8000) % 8192) % s.cart.prgSize)
    exec i s = .next { s with latch := v, result := .byte v, events := [] })
  ∧ ∀ (a : Addr) (i : Instr) (s : State) (p : Page), i ∈ [Instr.wrkRd a, .cpuRd a] → s.powered = true →
    s.bus.readAt a.toNat = .wrkWin → s.wrk[(a.toNat - 0x6000) / 8192]? = some p →
    let v := if s.cart.wrkSize = 0 then s.latch
      else s.ramWrk.read ((p.off + (a.toNat - 0x6000) % 8192) % s.cart.wrkSize)
    exec i s = .next { s with latch := v, result := .byte v, events := [] }

/-- R85, R195: a write to an address bound to `Ignore` or `System` changes only the latch. -/
def Obligations.IgnoredWriteChangesOnlyTheLatch : Prop :=
  ∀ (a : Addr) (d : Byte) (i : Instr) (s : State), i ∈ cpuWrites a d → s.powered = true →
    (s.bus.writeAt a.toNat = .ignore ∨ s.bus.writeAt a.toNat = .system) →
    exec i s = .next { s with latch := d, result := .done, events := [] }

/-- R283: on NROM every write to `$8000..$FFFF` leaves every window as it was and sets the latch. -/
def Obligations.NromWriteIsIgnored : Prop :=
  ∀ (a : Addr) (d : Byte) (s : State), s.Ready .nrom → 0x8000 ≤ a.toNat →
    exec (.nromWrIgnored a d) s = .next { s with latch := d, result := .done, events := [] }

/-- R161, R191: a write through the Wrk window stores one byte at the page's Source offset; every other byte of
WRK, all other memory and all registers but the latch are as before. Over an absent WRK it stores nothing.
R298: on an MMC1 under `MMC1_WRAM_GATE` a WRK access does nothing but set the latch while `prg[4]` is 1, and is
the window's while it is 0; without the gate `prg[4]` has no effect. -/
def Obligations.WrkWriteStoresOneByte : Prop :=
  (∀ (a : Addr) (d : Byte) (i : Instr) (s : State) (p : Page), i ∈ [Instr.wrkWr a d, .cpuWr a d] →
    s.powered = true → s.ramWrk.wf → s.bus.writeAt a.toNat = .wrkWin →
    s.wrk[(a.toNat - 0x6000) / 8192]? = some p →
    let o := (p.off + (a.toNat - 0x6000) % 8192) % s.cart.wrkSize
    ∃ m, exec i s = .next { s with latch := d, ramWrk := m, result := .done, events := [] }
      ∧ (s.cart.wrkSize = 0 → m = s.ramWrk)
      ∧ (s.cart.wrkSize ≠ 0 → m.read o = d ∧ ∀ k, k ≠ o → m.read k = s.ramWrk.read k))
  ∧ ∀ (a : Addr) (d : Byte) (s : State) (r : Mmc1Regs), s.Ready .mmc1 → s.board = .mmc1 r →
    s.cart.wrkSize ≠ 0 → 0x6000 ≤ a.toNat → a.toNat < 0x8000 →
    let o := (a.toNat - 0x6000) % s.cart.wrkSize
    let shut := s.cart.params.mmc1WramGate = true ∧ r.prg.getLsbD 4 = true
    (shut →
      exec (.wrkWr a d) s = .next { s with latch := d, result := .done, events := [] }
      ∧ exec (.wrkRd a) s = .next { s with result := .byte s.latch, events := [] })
    ∧ (¬ shut →
      exec (.wrkRd a) s = .next { s with
        latch := s.ramWrk.read o, result := .byte (s.ramWrk.read o), events := [] }
      ∧ ∃ m, exec (.wrkWr a d) s = .next { s with latch := d, ramWrk := m, result := .done, events := [] }
        ∧ m.read o = d ∧ ∀ k, k ≠ o → m.read k = s.ramWrk.read k)

/-- R220 to R223: a write to a linear register swaps the bank of the bus value at the binding's place; a CHR
swap notes `PpuUpdate`, a mirroring register makes the helper's `SetMirroring`; an ill-formed binding is
refused (assumption 9). -/
def Obligations.LinearWriteSwapsTheBank : Prop :=
  ∀ (a : Addr) (d : Byte) (s : State) (size base : Nat), s.powered = true →
    let e := busValue a d { s with latch := d, result := .done, events := [] }
    (s.bus.writeAt a.toNat = .prgSwap size base → wellFormedSwap .prg size base = true →
      exec (.cpuWr a d) s = .next { s with
        latch := d, result := .done, events := [],
        prg := replacePages (base / 8192) (size / 8192) (swappedPage s.cart .prg size e.toNat) 0 s.prg })
    ∧ (s.bus.writeAt a.toNat = .chrSwap size base → wellFormedSwap .chr size base = true →
      exec (.cpuWr a d) s = .next { s with
        latch := d, result := .done, events := [.ppuUpdate],
        chr := replacePages (base / 1024) (size / 1024) (swappedPage s.cart .chr size e.toNat) 0 s.chr })
    ∧ (∀ h, s.bus.writeAt a.toNat = .mirrorSwap h → s.nmt.length = 4 →
      let m := helperMode s.cart.params.helperOrder h e.toNat
      exec (.cpuWr a d) s = .next { s with
        latch := d, result := .done, events := mirrorEvents s.cart m,
        nmt := if s.cart.mirroring = .four then s.nmt else nmtOf s.cart (mirrorTable m) })
    ∧ (s.bus.writeAt a.toNat = .prgSwap size base → wellFormedSwap .prg size base = false →
      exec (.cpuWr a d) s = .next { s with refused := true, result := .refused .illFormedSwap, events := [] })

/-- R192, D47: under `BUS_CONFLICTS` a register of UxROM and CNROM takes the AND of the CPU's byte and the byte
a read of the address returns; without it, or on AxROM, it takes the CPU's byte. The latch takes the CPU's
byte in every case. -/
def Obligations.BusConflictMasksTheRegisterByte : Prop :=
  ∀ (a : Addr) (d v : Byte) (s u : State), 0x8000 ≤ a.toNat → s.cart.prgSize ≠ 0 →
    exec (.prgRd a) s = .next u → u.result = .byte v →
    let e := if s.cart.params.busConflicts then d &&& v else d
    (s.Ready .uxrom → ∃ t, exec (.uxromPrgSelect a d) s = .next t ∧ t.board = .uxrom e ∧ t.latch = d)
    ∧ (s.Ready .cnrom → ∃ t, exec (.cnromChrSelect a d) s = .next t ∧ t.board = .cnrom e ∧ t.latch = d)
    ∧ (s.Ready .axrom → ∃ t, exec (.axromSelect a d) s = .next t ∧ t.board = .axrom d ∧ t.latch = d)

/-! ### The PPU port -/

/-- R193, R75: a PPU read returns the byte the Chr or Nmt page maps, and changes nothing: the CPU's latch is
not touched. -/
def Obligations.PpuReadGivesTheMappedByte : Prop :=
  (∀ (a : Addr) (i : Instr) (s : State) (p : Page), i ∈ [Instr.chrRd a, .ppuRd a] → s.powered = true →
    a.toNat < 0x2000 → s.chr[a.toNat / 1024]? = some p →
    let v := if s.cart.chrSize = 0 then s.ramChr.read ((p.off + a.toNat % 1024) % 8192)
      else s.cart.chrBytes.read ((p.off + a.toNat % 1024) % s.cart.chrSize)
    exec i s = .next { s with result := .byte v, events := [] })
  ∧ ∀ (a : Addr) (i : Instr) (s : State) (p : Page), i ∈ [Instr.nmtRd a, .ppuRd a] → s.powered = true →
    0x2000 ≤ a.toNat → a.toNat < 0x3F00 → s.nmt[(a.toNat - 0x2000) % 0x1000 / 1024]? = some p →
    let size := if s.cart.mirroring = .four then 4096 else 2048
    let v := s.ramNmt.read ((p.off + a.toNat % 1024) % size)
    exec i s = .next { s with result := .byte v, events := [] }

/-- R194, R161, R77: a PPU write stores one byte of CHR RAM or nametable RAM at the page's Source offset, and
nothing over CHR ROM; every other byte and every register is as before. -/
def Obligations.PpuWriteStoresOneByte : Prop :=
  (∀ (a : Addr) (d : Byte) (i : Instr) (s : State) (p : Page), i ∈ [Instr.chrWr a d, .ppuWr a d] →
    s.powered = true → s.ramChr.wf → a.toNat < 0x2000 → s.chr[a.toNat / 1024]? = some p →
    let o := (p.off + a.toNat % 1024) % 8192
    ∃ m, exec i s = .next { s with ramChr := m, result := .done, events := [] }
      ∧ (s.cart.chrSize ≠ 0 → m = s.ramChr)
      ∧ (s.cart.chrSize = 0 → m.read o = d ∧ ∀ k, k ≠ o → m.read k = s.ramChr.read k))
  ∧ ∀ (a : Addr) (d : Byte) (i : Instr) (s : State) (p : Page), i ∈ [Instr.nmtWr a d, .ppuWr a d] →
    s.powered = true → s.ramNmt.wf → 0x2000 ≤ a.toNat → a.toNat < 0x3F00 →
    s.nmt[(a.toNat - 0x2000) % 0x1000 / 1024]? = some p →
    let o := (p.off + a.toNat % 1024) % (if s.cart.mirroring = .four then 4096 else 2048)
    ∃ m, exec i s = .next { s with ramNmt := m, result := .done, events := [] }
      ∧ m.read o = d ∧ ∀ k, k ≠ o → m.read k = s.ramNmt.read k

/-- R75, R423: every PPU transaction at `$3F00..$3FFF` is refused with `PpuPalette`: nothing changes but the
mark (assumption 9). -/
def Obligations.PaletteIsRefused : Prop :=
  ∀ (a : Addr) (d : Byte) (i : Instr) (s : State), i ∈ ppuReads a ++ ppuWrites a d → s.powered = true →
    0x3F00 ≤ a.toNat →
    exec i s = .next { s with refused := true, result := .refused .ppuPalette, events := [] }

/-- R75: `$3000..$3EFF` is the mirror of `$2000..$2EFF`, for reads and for writes. -/
def Obligations.NametableMirrorAgrees : Prop :=
  ∀ (a b : Addr) (d : Byte) (s : State), 0x3000 ≤ a.toNat → a.toNat < 0x3F00 → b.toNat + 0x1000 = a.toNat →
    exec (.nmtRd a) s = exec (.nmtRd b) s ∧ exec (.nmtWr a d) s = exec (.nmtWr b d) s

/-! ### Windows -/

/-- R152: `SwapBank` maps the masked bank at each page of its range with the request, size and position stored,
leaves every other page, and changes nothing else but the `PpuUpdate` note of a Chr or Nmt swap; an
ill-formed swap is refused. -/
def Obligations.SwapBankMapsTheMaskedBank : Prop :=
  ∀ (w : WinId) (size base i : Nat) (s : State),
    (wellFormedSwap w size base = true →
      ∃ t, swapBankChecked w size base i s = .ok t
        ∧ (∀ (j : Nat) (p : Page), (s.pages w)[j]? = some p → (t.pages w)[j]? = some (
            if base / pageSize w ≤ j ∧ j < (base + size) / pageSize w then
              { off := if s.cart.sourceSize w = 0 then 0
                  else ((i % 2 ^ 32 &&& (bankCount (s.cart.sourceSize w) size - 1)) * size
                    + (j - base / pageSize w) * pageSize w) % s.cart.sourceSize w
                req := BitVec.ofNat 32 i
                size := size
                sub := j - base / pageSize w }
            else p))
        ∧ (t.pages w).length = (s.pages w).length
        ∧ t = { s.setPages w (t.pages w) with events := t.events }
        ∧ t.events = if (w = .chr ∨ w = .nmt) ∧ s.events = [] then [.ppuUpdate] else s.events)
    ∧ (wellFormedSwap w size base = false →
      swapBankChecked w size base i s = .error (.refused .illFormedSwap))

/-- R150, R151, R163: the bank count is the largest power of two of banks that the Source holds (C1); a masked
index names one of them; the index of all ones names the last one. -/
def Obligations.MaskedIndexNamesABankOfTheSource : Prop :=
  ∀ i srcSize size : Nat, 0 < size → size ≤ srcSize →
    maskIndex i srcSize size < bankCount srcSize size
    ∧ bankCount srcSize size * size ≤ srcSize
    ∧ (∃ k, bankCount srcSize size = 2 ^ k) ∧ srcSize < 2 * (bankCount srcSize size * size)
    ∧ (srcSize / size < 2 ^ 32 → maskIndex 0xFFFFFFFF srcSize size = bankCount srcSize size - 1)

/-- R154: over a Source of a power of two banks the selection is periodic in the index with the bank count as
period; under a swap larger than the Source every request maps bank 0. -/
def Obligations.BankSelectionIsPeriodic : Prop :=
  (∀ i k size : Nat, 0 < size → k ≤ 32 → maskIndex i (2 ^ k * size) size = i % 2 ^ k)
  ∧ (∀ i srcSize size : Nat, srcSize < size → maskIndex i srcSize size = 0)
  ∧ ∀ (c : Cartridge) (w : WinId) (size i k : Nat), c.sourceSize w ≠ 0 → c.sourceSize w < size →
      (swappedPage c w size i k).off = k * pageSize w % c.sourceSize w

/-- R157, R158: `GetBank` returns the unmasked request of the last swap at its place; at another size, or inside
the swapped range, it is refused, and nothing is written. -/
def Obligations.GetBankReturnsTheRequest : Prop :=
  ∀ (w : WinId) (size base i : Nat) (s : State), wellFormedSwap w size base = true →
    (s.pages w).length = span w / pageSize w →
    getBank w size base (swapBank w size base i s) = .ok (i % 2 ^ 32)
    ∧ (∀ size', size' ≠ size → wellFormedSwap w size' base = true →
        getBank w size' base (swapBank w size base i s) = .error (.refused .getBankGranularity))
    ∧ ∀ base', base < base' → base' < base + size → wellFormedSwap w size base' = true →
        getBank w size base' (swapBank w size base i s) = .error (.refused .getBankGranularity)

/-- R155, R156: `SwapBanks` does its swaps one after the other, at consecutive places, or none of them. -/
def Obligations.SwapBanksIsAllOrNothing : Prop :=
  ∀ (w : WinId) (size base : Nat) (is : List Nat) (s : State), is ≠ [] →
    ((∀ k < is.length, wellFormedSwap w size (base + k * size) = true) →
      ∃ t, swapBanksChecked w size base is s = .ok t
        ∧ is.zipIdx.foldlM (fun u ik => swapBankChecked w size (base + ik.2 * size) ik.1 u) s = .ok t)
    ∧ ((∃ k < is.length, wellFormedSwap w size (base + k * size) = false) →
      swapBanksChecked w size base is s = .error (.refused .illFormedSwap))

/-- R160, R161: a byte written through a window of a present writable Source is read back through every
position that maps it; every other position, and every other window set, reads as before. Over a ROM
nothing changes. -/
def Obligations.WindowWriteIsReadBack : Prop :=
  ∀ (w : WinId) (o k : Nat) (v : Byte) (s : State), s.cart.sourceSize w ≠ 0 →
    (s.cart.writable w = true → (s.ram w).wf →
      readBM w k (writeBM w o v s) =
        if sourceOffset w k s = sourceOffset w o s then v else readBM w k s)
    ∧ (s.cart.writable w = false → writeBM w o v s = s)
    ∧ ∀ u, u ≠ w → readBM u k (writeBM w o v s) = readBM u k s

/-! ### The dispatch table -/

/-- R181 to R183: a `Map` replaces the bindings of its range, each side by itself, and no other; the system
region stays `System`; a `Map` of the system region or of an empty range is refused. -/
def Obligations.LaterMapReplacesEarlier : Prop :=
  ∀ (m : Mapping) (s : State),
    (∀ t a, mapRange m s = .ok t → a < 0x10000 →
      (t.bus.readAt a = if a < 0x4020 then .system
        else if m.first ≤ a ∧ a ≤ m.last then m.read.getD (s.bus.readAt a) else s.bus.readAt a)
      ∧ (t.bus.writeAt a = if a < 0x4020 then .system
        else if m.first ≤ a ∧ a ≤ m.last then m.write.getD (s.bus.writeAt a) else s.bus.writeAt a)
      ∧ t = { s with bus := t.bus })
    ∧ ((m.last < m.first ∨ m.first < 0x4020
        ∨ (m.read = some .prgWin ∧ m.first < 0x8000)
        ∨ ((m.read = some .wrkWin ∨ m.write = some .wrkWin) ∧ (m.first < 0x6000 ∨ 0x7FFF < m.last))) →
      mapRange m s = .error (.refused .illFormedMap))

/-! ### Resets -/

/-- R450, R213, R46 and each board's own rules (R282, R290, R291, R311, R321, R331, R257): a hard reset of a
modelled board completes with the board's table, its default registers, the windows they give, and the
power mark; everything else is kept. -/
def Obligations.HardResetSetsTheBoard : Prop :=
  (∀ s : State, s.Wf → modelled s.cart.board = true →
    let regs := hardDefaults s.cart.board
    let win := boardWindows s.cart regs
    exec .resetHard s = .next { s with
      bus := boardTable s.cart, prg := win.prg, chr := win.chr, nmt := win.nmt, wrk := win.wrk,
      board := regs, powered := true, result := .done, events := [] })
  ∧ hardDefaults .nrom = .none ∧ hardDefaults .mmc1 = .mmc1 ⟨0x0C, 0, 0, 0, 0, 0⟩
  ∧ hardDefaults .uxrom = .uxrom 0 ∧ hardDefaults .cnrom = .cnrom 0 ∧ hardDefaults .axrom = .axrom 0
  ∧ hardDefaults menu4 = .menu 0

/-- R453 and R450's corner case: a soft reset of NROM, MMC1, UxROM, CNROM or AxROM leaves every register, window
and binding as it was, MMC1's serial registers among them. -/
def Obligations.SoftResetKeepsTheBoard : Prop :=
  ∀ (b : Board) (s : State), b ∈ [Board.nrom, .mmc1, .uxrom, .cnrom, .axrom] → s.Ready b →
    exec .resetSoft s = .next { s with result := .done, events := [] }

/-- R257 to R259: a soft reset of `MENU4` moves to the next image, the first after the fourth, with the Prg and
Chr windows following; it changes nothing else. On every menu board a reset that completes leaves the default
image (hard) or the next one, the first after the last (soft). -/
def Obligations.MenuSoftResetShowsTheNextImage : Prop :=
  (∀ (m : Byte) (s : State), s.Ready menu4 → s.board = .menu m →
    let n := (m.toNat + 1) % 4
    exec .resetSoft s = .next { s with
      board := .menu (BitVec.ofNat 8 n), prg := prg32 s.cart n, chr := chr8 s.cart n,
      result := .done, events := [] })
  ∧ ∀ (p : MenuParams) (m : Byte) (s t : State), p.legal → s.cart.board = .menu p → s.board = .menu m →
    (exec .resetHard s = .next t → t.result = .done → t.board = .menu (BitVec.ofNat 8 p.default))
    ∧ (exec .resetSoft s = .next t → t.result = .done →
        ∃ n, t.board = .menu n ∧ n.toNat = (m.toNat + 1) % p.count)

/-- R450: a hard reset may be repeated and gives the same state. -/
def Obligations.HardResetIsRepeatable : Prop :=
  ∀ s t : State, s.Wf → modelled s.cart.board = true → exec .resetHard s = .next t →
    exec .resetHard t = .next t

/-- R454: on every board, a reset that completes keeps the latch, the three RAMs, the refusal mark and the
system region. -/
def Obligations.ResetKeepsRamAndLatch : Prop :=
  ∀ (i : Instr) (s t : State), i ∈ [Instr.resetHard, .resetSoft] → exec i s = .next t → t.result = .done →
    t.latch = s.latch ∧ t.ramWrk = s.ramWrk ∧ t.ramChr = s.ramChr ∧ t.ramNmt = s.ramNmt
    ∧ t.refused = s.refused
    ∧ ∀ a < 0x4020, t.bus.readAt a = .system ∧ t.bus.writeAt a = .system

/-- R457: the PRG offset the low byte of the reset vector comes from after a hard reset, per board. -/
def Obligations.ResetVectorComesFromTheMappedBank : Prop :=
  ∀ s : State, s.Wf → 16384 ≤ s.cart.prgSize →
    ∃ t, exec .resetHard s = .next t ∧ ∀ o : Nat,
      ((s.cart.board = .nrom ∧ o = 32764 % s.cart.prgSize)
        ∨ (s.cart.board = .cnrom ∧ o = 32764 % s.cart.prgSize)
        ∨ (s.cart.board = .mmc1 ∧ s.cart.prgSize ≤ 262144
            ∧ o = 16384 * (bankCount s.cart.prgSize 16384 - 1) + 0x3FFC)
        ∨ (s.cart.board = .uxrom ∧ s.cart.prgSize / 16384 < 2 ^ 32
            ∧ o = 16384 * (bankCount s.cart.prgSize 16384 - 1) + 0x3FFC)
        ∨ (s.cart.board = .axrom ∧ 32768 ≤ s.cart.prgSize ∧ o = 0x7FFC)) →
      ∃ u, exec (.prgRd 0xFFFC) t = .next u ∧ u.result = .byte (s.cart.prgBytes.read o)

/-! ### MMC1 -/

/-- R292: a write with bit 7 set clears the serial registers, sets PRG mode 3 and remaps Prg; nothing else
changes and no event is emitted. -/
def Obligations.Mmc1SerialResetWrite : Prop :=
  ∀ (a : Addr) (d : Byte) (s : State) (r : Mmc1Regs), s.Ready .mmc1 → s.board = .mmc1 r →
    0x8000 ≤ a.toNat → 0x80 ≤ d.toNat →
    exec (.mmc1SerialReset a d) s = .next { s with
      latch := d, result := .done, events := [],
      board := .mmc1 { r with shift := 0, count := 0, ctrl := r.ctrl ||| 0x0C },
      prg := prg16 s.cart (r.prg.toNat % 16) 15 }

/-- R293: each of the first four serial writes, under all four rows, only shifts its bit in. -/
def Obligations.Mmc1EarlyWriteOnlyShifts : Prop :=
  ∀ (a : Addr) (d : Byte) (i : Instr) (s : State) (r : Mmc1Regs), s.Ready .mmc1 → s.board = .mmc1 r →
    0x8000 ≤ a.toNat → d.toNat < 0x80 → r.count.toNat < 4 →
    i ∈ [Instr.mmc1ShiftControl a d, .mmc1ShiftChr0 a d, .mmc1ShiftChr1 a d, .mmc1ShiftPrg a d] →
    exec i s = .next { s with
      latch := d, result := .done, events := [],
      board := .mmc1 { r with
        shift := r.shift ||| (BitVec.ofNat 5 (d.toNat % 2) <<< r.count.toNat), count := r.count + 1 } }

/-- R293, R297, R230: the fifth write at `$8000..$9FFF` loads `ctrl` and remaps every window, with `PpuUpdate`
and then the mirroring call (none on a four-screen cartridge). -/
def Obligations.Mmc1FifthWriteLoadsControl : Prop :=
  ∀ (a : Addr) (d : Byte) (s : State) (r : Mmc1Regs), s.Ready .mmc1 → s.board = .mmc1 r →
    0x8000 ≤ a.toNat → a.toNat < 0xA000 → d.toNat < 0x80 → r.count = 4 →
    let v := r.shift ||| (BitVec.ofNat 5 (d.toNat % 2) <<< 4)
    let r' : Mmc1Regs := { r with ctrl := v, shift := 0, count := 0 }
    exec (.mmc1ShiftControl a d) s = .next { s with
      latch := d, result := .done, board := .mmc1 r',
      prg := mmc1PrgPages s.cart r', chr := mmc1ChrPages s.cart r',
      nmt := nmtOfMode s.cart (mmc1Mirroring r'),
      events := .ppuUpdate :: if s.cart.mirroring = .four then []
        else [.ppuSetMirroring (mirrorTable (mmc1Mirroring r'))] }

/-- R294, R295: the fifth write at `$A000..$BFFF` loads `chr0` and at `$C000..$DFFF` `chr1`, and remaps Chr with
`PpuUpdate`. -/
def Obligations.Mmc1FifthWriteLoadsAChrRegister : Prop :=
  ∀ (a : Addr) (d : Byte) (s : State) (r : Mmc1Regs), s.Ready .mmc1 → s.board = .mmc1 r →
    d.toNat < 0x80 → r.count = 4 →
    let v := r.shift ||| (BitVec.ofNat 5 (d.toNat % 2) <<< 4)
    let r0 : Mmc1Regs := { r with chr0 := v, shift := 0, count := 0 }
    let r1 : Mmc1Regs := { r with chr1 := v, shift := 0, count := 0 }
    (0xA000 ≤ a.toNat → a.toNat < 0xC000 → exec (.mmc1ShiftChr0 a d) s = .next { s with
      latch := d, result := .done, events := [.ppuUpdate], board := .mmc1 r0, chr := mmc1ChrPages s.cart r0 })
    ∧ (0xC000 ≤ a.toNat → a.toNat < 0xE000 → exec (.mmc1ShiftChr1 a d) s = .next { s with
      latch := d, result := .done, events := [.ppuUpdate], board := .mmc1 r1, chr := mmc1ChrPages s.cart r1 })

/-- R296: the fifth write at `$E000..$FFFF` loads `prg` and remaps Prg, with no event. -/
def Obligations.Mmc1FifthWriteLoadsPrg : Prop :=
  ∀ (a : Addr) (d : Byte) (s : State) (r : Mmc1Regs), s.Ready .mmc1 → s.board = .mmc1 r →
    0xE000 ≤ a.toNat → d.toNat < 0x80 → r.count = 4 →
    let v := r.shift ||| (BitVec.ofNat 5 (d.toNat % 2) <<< 4)
    let r' : Mmc1Regs := { r with prg := v, shift := 0, count := 0 }
    exec (.mmc1ShiftPrg a d) s = .next { s with
      latch := d, result := .done, events := [], board := .mmc1 r', prg := mmc1PrgPages s.cart r' }

/-- R125, R293 to R296: the five writes of `MMC1W $aaaa, #v`, from an empty serial register, load `v` into the
register the address selects and leave the others. -/
def Obligations.FiveSerialWritesLoadTheRegister : Prop :=
  ∀ (a : Addr) (v : BitVec 5) (s : State) (r : Mmc1Regs), s.Ready .mmc1 → s.board = .mmc1 r →
    0x8000 ≤ a.toNat → r.count = 0 →
    ∃ t, execAll ((Pseudo.mmc1w a v).expand.map Line.instr) s = .next t
      ∧ t.board = .mmc1 (
          if a.toNat < 0xA000 then { r with ctrl := v }
          else if a.toNat < 0xC000 then { r with chr0 := v }
          else if a.toNat < 0xE000 then { r with chr1 := v }
          else { r with prg := v })

/-! ### UxROM, CNROM, AxROM, mirroring, events -/

/-- R312: a UxROM write stores the bus value and maps its 16 KiB bank at `$8000`; the last bank stays at `$C000`;
no event. -/
def Obligations.UxromWriteSelectsPrg : Prop :=
  ∀ (a : Addr) (d : Byte) (s : State), s.Ready .uxrom → 0x8000 ≤ a.toNat →
    let e := busValue a d { s with latch := d }
    exec (.uxromPrgSelect a d) s = .next { s with
      latch := d, result := .done, events := [], board := .uxrom e,
      prg := prg16 s.cart e.toNat 0xFFFFFFFF }

/-- R322: a CNROM write stores the bus value and maps its 8 KiB Chr bank, with `PpuUpdate`. -/
def Obligations.CnromWriteSelectsChr : Prop :=
  ∀ (a : Addr) (d : Byte) (s : State), s.Ready .cnrom → 0x8000 ≤ a.toNat →
    let e := busValue a d { s with latch := d }
    exec (.cnromChrSelect a d) s = .next { s with
      latch := d, result := .done, events := [.ppuUpdate], board := .cnrom e, chr := chr8 s.cart e.toNat }

/-- R332, R331: an AxROM write stores its byte, maps the 32 KiB bank of bits 3..0 and the single screen of bit
4, with `PpuUpdate` and the mirroring call; a four-screen cartridge keeps its nametables and emits nothing
(C11). -/
def Obligations.AxromWriteSelectsPrgAndScreen : Prop :=
  ∀ (a : Addr) (d : Byte) (s : State), s.Ready .axrom → 0x8000 ≤ a.toNat →
    let m : Mirroring := if d.toNat / 16 % 2 = 1 then .s1 else .s0
    exec (.axromSelect a d) s = .next { s with
      latch := d, result := .done, events := mirrorEvents s.cart m, board := .axrom d,
      prg := prg32 s.cart (d.toNat % 16), nmt := nmtOfMode s.cart m }

/-- R225 to R229: the modes the helpers select at the default order, and the nametable offsets of each mode
over a 2 KiB Source. -/
def Obligations.MirroringHelpersSelectTheirMode : Prop :=
  ∀ (d : Nat) (s : State), s.cart.params.helperOrder = HelperOrder.standard →
    runHelper .hv d s = setMode (if d % 2 = 0 then .h else .v) s
    ∧ runHelper .vh d s = setMode (if d % 2 = 0 then .v else .h) s
    ∧ (d % 4 < 2 → runHelper .hv01 d s = runHelper .hv d s ∧ runHelper .vh01 d s = runHelper .vh d s)
    ∧ (d % 4 = 2 → runHelper .hv01 d s = setMode .s0 s ∧ runHelper .vh01 d s = setMode .s0 s)
    ∧ (d % 4 = 3 → runHelper .hv01 d s = setMode .s1 s ∧ runHelper .vh01 d s = setMode .s1 s)
    ∧ (s.nmt.length = 4 → s.cart.mirroring ≠ .four →
        (setMode .h s).nmt.map Page.off = [0, 0, 1024, 1024]
        ∧ (setMode .v s).nmt.map Page.off = [0, 1024, 0, 1024]
        ∧ (setMode .s0 s).nmt.map Page.off = [0, 0, 0, 0]
        ∧ (setMode .s1 s).nmt.map Page.off = [1024, 1024, 1024, 1024])
    ∧ ∀ m, s.cart.mirroring = .four → setMode m s = s

/-- R230, R231: the events of a transaction on any board are none, or one `PpuUpdate` and then mirroring calls;
only CPU writes emit any. -/
def Obligations.EventsOfATransaction : Prop :=
  ∀ (i : Instr) (s t : State), exec i s = .next t →
    (t.events = [] ∨ ∃ ts : List Table, t.events = .ppuUpdate :: ts.map .ppuSetMirroring)
    ∧ ((∀ a d, i ∉ cpuWrites a d) → t.events = [])

/-- R251 to R255: a hard reset of a command-latch board with legal parameters and an empty `Update` sets its
registers to their defaults and binds its two ranges; a write to the select range sets the latch, and a write to the data
range goes to the sub-register the latch selects, or nowhere when there is none. -/
def Obligations.LatchWritesGoThroughTheLatch : Prop :=
  (∀ (p : LatchParams) (s : State), p.legal → s.cart.board = .latch p → p.update = [] →
    ∃ t, exec .resetHard s = .next t ∧ t.result = .done ∧ t.board = .latch p.latchDefault p.subDefaults
      ∧ ∀ k, (p.selFirst ≤ k → k ≤ p.selLast → t.bus.writeAt k = .boardWrite .latchSelect)
        ∧ (p.datFirst ≤ k → k ≤ p.datLast → t.bus.writeAt k = .boardWrite .latchData))
  ∧ ∀ (a : Addr) (d l : Byte) (sub : List Byte) (p : LatchParams) (s : State), s.powered = true →
    s.cart.board = .latch p → s.board = .latch l sub → sub.length = p.count →
    let e := busValue a d { s with latch := d, result := .done, events := [] }
    let k := (l &&& p.selMask).toNat
    (s.bus.writeAt a.toNat = .boardWrite .latchSelect →
      exec (.cpuWr a d) s = .next { s with latch := d, board := .latch e sub, result := .done, events := [] })
    ∧ (s.bus.writeAt a.toNat = .boardWrite .latchData → p.count ≤ k →
      exec (.cpuWr a d) s = .next { s with latch := d, result := .done, events := [] })
    ∧ (s.bus.writeAt a.toNat = .boardWrite .latchData → k < p.count → p.update = [] →
      exec (.cpuWr a d) s = .next { s with
        latch := d, board := .latch l (sub.set k e), result := .done, events := [] })

/-! ### Save states -/

/-- R397 to R400, R404: a save returns the chunks `REG`, `WRK` and `CRM`, each when its condition holds, and
changes nothing. R299, R313, R323, R333, R398: the bytes of each board's registers, in their order
(for a menu other than `MENU4` the model's choice, assumption 19). -/
def Obligations.SaveWritesTheChunks : Prop :=
  (∀ s : State, s.powered = true →
    exec .save s = .next { s with
      events := [],
      result := .stream (
        (if hasRegs s.cart.board then
          [0x52, 0x45, 0x47, 0x00] ++ bytes32 (regBytes s.board).length ++ regBytes s.board else [])
        ++ (if s.cart.wrkSize = 0 then [] else
          [0x57, 0x52, 0x4B, 0x00] ++ bytes32 (s.cart.wrkSize + 1) ++ 0
            :: (List.range s.cart.wrkSize).map s.ramWrk.read)
        ++ (if s.cart.chrSize = 0 then
          [0x43, 0x52, 0x4D, 0x00] ++ bytes32 8193 ++ 0 :: (List.range 8192).map s.ramChr.read else [])) })
  ∧ (∀ r : Mmc1Regs, (regBytes (.mmc1 r)).map BitVec.toNat
      = [r.ctrl.toNat, r.chr0.toNat, r.chr1.toNat, r.prg.toNat, r.shift.toNat, r.count.toNat])
  ∧ (∀ v : Byte, regBytes (.uxrom v) = [v] ∧ regBytes (.cnrom v) = [v] ∧ regBytes (.axrom v) = [v]
      ∧ regBytes (.menu v) = [v])
  ∧ hasRegs .nrom = false
  ∧ ∀ b ∈ [Board.mmc1, .uxrom, .cnrom, .axrom, menu4], hasRegs b = true

/-- R405, R406: on a modelled board a load completes on every stream of a `REG` with legal registers (where the
board has registers) and, each or not, a `WRK` and a `CRM` whose payload, raw or under method 1 (R394), gives the
Source's size: the registers and RAM are the stream's, a RAM without a chunk is kept (R401), and the windows follow
the registers (a `CRM` over CHR ROM changes nothing, assumption 17). R407: loading the stream a state saved, into
any state of the same cartridge, gives back the saved registers, windows and RAM; the rest is that of the state
loaded into. -/
def Obligations.LoadRestoresASave : Prop :=
  (∀ (b : Board) (s : State) (r : BoardRegs) (wrk crm : Option (List Byte × List Byte)), modelled b = true →
    s.Ready b → regsMatch b r →
    let gives := fun (w : WinId) (payload data : List Byte) =>
      (payload = 0 :: data ∨ ∃ e, payload = 1 :: e ∧ Config.bulkDecode e = some data)
        ∧ data.length = s.cart.sourceSize w ∧ payload.length < 2 ^ 32
    (∀ pd ∈ wrk, gives .wrk pd.1 pd.2) → (∀ pd ∈ crm, gives .chr pd.1 pd.2) →
    let chunk := fun (tag : Nat) (bs : List Byte) => bytes32 tag ++ bytes32 bs.length ++ bs
    let bs := (if hasRegs b then chunk tagReg (regBytes r) else [])
      ++ ((wrk.map fun pd => chunk tagWrk pd.1).getD []) ++ ((crm.map fun pd => chunk tagCrm pd.1).getD [])
    let win := boardWindows s.cart r
    exec .load { s with stream := bs } = .next { s with
      stream := bs, board := r, prg := win.prg, chr := win.chr, nmt := win.nmt, wrk := win.wrk,
      ramWrk := (wrk.map fun pd => Memory.ofBytes 0 pd.2).getD s.ramWrk,
      ramChr := if s.cart.chrSize = 0 then (crm.map fun pd => Memory.ofBytes 0 pd.2).getD s.ramChr else s.ramChr,
      result := .done, events := [] })
  ∧ ∀ (b : Board) (s s' : State), modelled b = true → s.Ready b → s'.Ready b →
    s'.cart = s.cart → s.cart.wrkSize + 1 < 2 ^ 32 →
    let bs := saveStream s
    exec .save s = .next { s with result := .stream bs, events := [] }
    ∧ exec .load { s' with stream := bs } = .next { s' with
      stream := bs, board := s.board, prg := s.prg, chr := s.chr, nmt := s.nmt, wrk := s.wrk,
      ramWrk := s.ramWrk, ramChr := s.ramChr, result := .done, events := [] }

/-- R393: a chunk with an unknown tag in front of a stream changes nothing a load does with the rest (a tag
0 ends the scope: the model's reading, assumption 34). -/
def Obligations.UnknownChunkIsSkipped : Prop :=
  ∀ (s t : State) (tag : Nat) (payload rest : List Byte), tag ∉ [0, tagReg, tagWrk, tagCrm] → tag < 2 ^ 32 →
    payload.length < 2 ^ 32 → exec .load { s with stream := rest } = .next t →
    let bs := bytes32 tag ++ bytes32 payload.length ++ payload ++ rest
    exec .load { s with stream := bs } = .next { t with stream := bs }

/-! ### Before the first transaction -/

/-- R350, R351: the factory answers every id: with the board of 44_boards.md inside its limits, with the refusal
`BoardNotModelled` for the rest of the catalogue, with `UnsupportedMapper` outside it, 9999 among those (D21). -/
def Obligations.FactoryAnswersEveryId : Prop :=
  ∀ (p : Params) (n prg chr : Nat),
    (create p (.number 0) prg chr = .next .nrom ∧ create p (.number 2) prg chr = .next .uxrom
      ∧ create p (.number 3) prg chr = .next .cnrom ∧ create p (.number 7) prg chr = .next .axrom
      ∧ create p .menu4 prg chr = .next menu4)
    ∧ (prg ≤ 262144 → chr ≤ 131072 → create p (.number 1) prg chr = .next .mmc1)
    ∧ (262144 < prg ∨ 131072 < chr → create p (.number 1) prg chr = .refused (.boardNotModelled 1))
    ∧ (n ∉ [0, 1, 2, 3, 7] → n ∈ p.catalogue.val → create p (.number n) prg chr = .refused (.boardNotModelled n))
    ∧ (n ∉ [0, 1, 2, 3, 7] → n ∉ p.catalogue.val →
        create p (.number n) prg chr = .fault (.error (.unsupportedMapper n)))
    ∧ create p (.number 9999) prg chr = .fault (.error (.unsupportedMapper 9999))

/-- R363, R119: the header fields by the bits of bytes 4 to 8. -/
def Obligations.HeaderFieldsComeFromTheirBits : Prop :=
  ∀ (p : Params) (file : List Byte), 16 ≤ file.length →
    let b4 := (file.getD 4 0).toNat
    let b5 := (file.getD 5 0).toNat
    let b6 := file.getD 6 0
    let b7 := file.getD 7 0
    let b8 := (file.getD 8 0).toNat
    let h := readHeader p file
    h.prgSize = b4 * 16384 ∧ h.chrSize = b5 * 8192
    ∧ h.mapperId = b7.toNat / 16 * 16 + b6.toNat / 16
    ∧ h.mirroring = (if b6.getLsbD 3 then .four else if b6.getLsbD 0 then .v else .h)
    ∧ h.battery = b6.getLsbD 1 ∧ h.trainer = b6.getLsbD 2 ∧ h.vs = b7.getLsbD 0
    ∧ h.wrkSize = (if b8 = 0 then p.wramZeroSize.val else b8 * 8192)

/-- R361, R362, R366 to R370, R372: identification checks the signature, then the sizes; PRG and CHR are the file's
bytes, and the CRC is the CRC-32 of PRG and then CHR, the trainer first under `CRC_WITH_TRAINER`; a database hit
overrides mapper id, mirroring, battery and system and a miss overrides nothing; sizes are the header's. The
CRC-32 is the reflected one of R367, byte by byte: eight shifts of the complemented CRC. -/
def Obligations.IdentificationChecksThenLooksUp : Prop :=
  ∀ (p : Params) (db : List DbEntry) (file : List Byte),
    let h := readHeader p file
    let start := if h.trainer then 528 else 16
    (file.take 4 ≠ [0x4E, 0x45, 0x53, 0x1A] → identify p db file = .error (.invalidHeader .signature))
    ∧ (file.take 4 = [0x4E, 0x45, 0x53, 0x1A] →
        (h.prgSize = 0 ∨ file.length < start + h.prgSize + h.chrSize) →
        identify p db file = .error (.invalidHeader .size))
    ∧ (file.take 4 = [0x4E, 0x45, 0x53, 0x1A] → h.prgSize ≠ 0 →
        start + h.prgSize + h.chrSize ≤ file.length →
        ∃ d, identify p db file = .ok d ∧ d.prg.length = h.prgSize ∧ d.chr.length = h.chrSize
          ∧ d.wrkSize = h.wrkSize
          ∧ d.prg = (file.drop start).take h.prgSize ∧ d.chr = (file.drop (start + h.prgSize)).take h.chrSize
          ∧ d.crc = crc32 ((if p.crcWithTrainer ∧ h.trainer then (file.drop 16).take 512 else [])
              ++ d.prg ++ d.chr)
          ∧ (∀ e, db.find? (fun e => e.crc = d.crc) = some e →
              d.boardId = e.boardId ∧ d.mirroring = e.mirroring ∧ d.battery = e.battery
              ∧ d.system = some e.system)
          ∧ (db.find? (fun e => e.crc = d.crc) = none →
              d.boardId = h.mapperId ∧ d.mirroring = h.mirroring ∧ d.battery = h.battery))
    ∧ (∀ (bs : List Byte) (b : Byte), crc32 (bs ++ [b]) = ~~~ ((fun c : Word =>
        if c.getLsbD 0 then (c >>> 1) ^^^ 0xEDB88320 else c >>> 1)^[8] (~~~ crc32 bs ^^^ b.setWidth 32)))
    ∧ crc32 [] = 0

/-! ### Invariants -/

/-- The well-formedness of states is an invariant of every step, on every board: RAM in canonical form inside its
Source, page fields in range (R38), registers of the board built with legal values (R41, R290). A write function bound
on a board whose registers are not its own changes no register (the model's choice, assumption 25). -/
def Obligations.StepKeepsStatesWellFormed : Prop :=
  ∀ s t : State, s.Wf → step s = .next t → t.Wf

/-- R407, R455: on a modelled board, every step keeps the dispatch table that of the board and the windows those
its rules compute from the registers. -/
def Obligations.StepKeepsWindowsFollowingRegisters : Prop :=
  ∀ s t : State, modelled s.cart.board = true → s.Wf → s.Settled → step s = .next t → t.Settled

/-- The state after reset (on the cartridge of assumption 2, with the draws of assumptions 3 and 4) is
well-formed, settled and powered, and is what a hard reset makes of the power-on state. -/
def Obligations.ResetStateIsReady : Prop :=
  State.reset.Ready .mmc1
  ∧ exec .resetHard (State.powerOn resetCart ⟨0, [], [], []⟩ []) = .next State.reset
end

