-- ==== Sys2Proof/Laws/State.lean ====
section
/-! SUPPORT. The small laws of the state's updates: one lemma per field per update, and the outputs of a
transaction. A field update written out ({ s with … }) needs none: simp reduces its projections. -/

namespace Sys2Proof.Machine

/-! ### `setPages` -/

@[simp] theorem State.setPages_pages (s : State) (w : WinId) (ps : List Page) :
    (s.setPages w ps).pages w = ps := by cases w <;> rfl

theorem State.setPages_pages_ne (s : State) {w v : WinId} (ps : List Page) (h : v ≠ w) :
    (s.setPages w ps).pages v = s.pages v := by cases w <;> cases v <;> first | rfl | exact absurd rfl h

@[simp] theorem State.setPages_ram (s : State) (w v : WinId) (ps : List Page) :
    (s.setPages w ps).ram v = s.ram v := by cases w <;> cases v <;> rfl

@[simp] theorem State.setPages_cart (s : State) (w : WinId) (ps : List Page) :
    (s.setPages w ps).cart = s.cart := by cases w <;> rfl

@[simp] theorem State.setPages_bus (s : State) (w : WinId) (ps : List Page) :
    (s.setPages w ps).bus = s.bus := by cases w <;> rfl

@[simp] theorem State.setPages_latch (s : State) (w : WinId) (ps : List Page) :
    (s.setPages w ps).latch = s.latch := by cases w <;> rfl

@[simp] theorem State.setPages_board (s : State) (w : WinId) (ps : List Page) :
    (s.setPages w ps).board = s.board := by cases w <;> rfl

@[simp] theorem State.setPages_powered (s : State) (w : WinId) (ps : List Page) :
    (s.setPages w ps).powered = s.powered := by cases w <;> rfl

@[simp] theorem State.setPages_refused (s : State) (w : WinId) (ps : List Page) :
    (s.setPages w ps).refused = s.refused := by cases w <;> rfl

@[simp] theorem State.setPages_pending (s : State) (w : WinId) (ps : List Page) :
    (s.setPages w ps).pending = s.pending := by cases w <;> rfl

@[simp] theorem State.setPages_stream (s : State) (w : WinId) (ps : List Page) :
    (s.setPages w ps).stream = s.stream := by cases w <;> rfl

@[simp] theorem State.setPages_result (s : State) (w : WinId) (ps : List Page) :
    (s.setPages w ps).result = s.result := by cases w <;> rfl

@[simp] theorem State.setPages_events (s : State) (w : WinId) (ps : List Page) :
    (s.setPages w ps).events = s.events := by cases w <;> rfl

@[simp] theorem State.setPages_draws (s : State) (w : WinId) (ps : List Page) :
    (s.setPages w ps).draws = s.draws := by cases w <;> rfl

@[simp] theorem State.setPages_ramChr (s : State) (w : WinId) (ps : List Page) :
    (s.setPages w ps).ramChr = s.ramChr := by cases w <;> rfl

@[simp] theorem State.setPages_ramNmt (s : State) (w : WinId) (ps : List Page) :
    (s.setPages w ps).ramNmt = s.ramNmt := by cases w <;> rfl

@[simp] theorem State.setPages_ramWrk (s : State) (w : WinId) (ps : List Page) :
    (s.setPages w ps).ramWrk = s.ramWrk := by cases w <;> rfl

/-! ### `setRam` -/

@[simp] theorem State.setRam_pages (s : State) (w v : WinId) (m : Memory) :
    (s.setRam w m).pages v = s.pages v := by cases w <;> cases v <;> rfl

theorem State.setRam_ram (s : State) {w : WinId} (m : Memory) (h : w ≠ .prg) :
    (s.setRam w m).ram w = m := by cases w <;> first | rfl | exact absurd rfl h

theorem State.setRam_ram_ne (s : State) {w v : WinId} (m : Memory) (h : v ≠ w) :
    (s.setRam w m).ram v = s.ram v := by cases w <;> cases v <;> first | rfl | exact absurd rfl h

@[simp] theorem State.setRam_cart (s : State) (w : WinId) (m : Memory) :
    (s.setRam w m).cart = s.cart := by cases w <;> rfl

@[simp] theorem State.setRam_bus (s : State) (w : WinId) (m : Memory) :
    (s.setRam w m).bus = s.bus := by cases w <;> rfl

@[simp] theorem State.setRam_latch (s : State) (w : WinId) (m : Memory) :
    (s.setRam w m).latch = s.latch := by cases w <;> rfl

@[simp] theorem State.setRam_board (s : State) (w : WinId) (m : Memory) :
    (s.setRam w m).board = s.board := by cases w <;> rfl

@[simp] theorem State.setRam_powered (s : State) (w : WinId) (m : Memory) :
    (s.setRam w m).powered = s.powered := by cases w <;> rfl

@[simp] theorem State.setRam_refused (s : State) (w : WinId) (m : Memory) :
    (s.setRam w m).refused = s.refused := by cases w <;> rfl

@[simp] theorem State.setRam_pending (s : State) (w : WinId) (m : Memory) :
    (s.setRam w m).pending = s.pending := by cases w <;> rfl

@[simp] theorem State.setRam_stream (s : State) (w : WinId) (m : Memory) :
    (s.setRam w m).stream = s.stream := by cases w <;> rfl

@[simp] theorem State.setRam_result (s : State) (w : WinId) (m : Memory) :
    (s.setRam w m).result = s.result := by cases w <;> rfl

@[simp] theorem State.setRam_events (s : State) (w : WinId) (m : Memory) :
    (s.setRam w m).events = s.events := by cases w <;> rfl

@[simp] theorem State.setRam_draws (s : State) (w : WinId) (m : Memory) :
    (s.setRam w m).draws = s.draws := by cases w <;> rfl

@[simp] theorem State.setRam_prg (s : State) (w : WinId) (m : Memory) :
    (s.setRam w m).prg = s.prg := by cases w <;> rfl

@[simp] theorem State.setRam_chr (s : State) (w : WinId) (m : Memory) :
    (s.setRam w m).chr = s.chr := by cases w <;> rfl

@[simp] theorem State.setRam_nmt (s : State) (w : WinId) (m : Memory) :
    (s.setRam w m).nmt = s.nmt := by cases w <;> rfl

@[simp] theorem State.setRam_wrk (s : State) (w : WinId) (m : Memory) :
    (s.setRam w m).wrk = s.wrk := by cases w <;> rfl

/-! ### The outputs of a transaction -/

@[simp] theorem clearOutput_cart (s : State) : (clearOutput s).cart = s.cart := rfl

@[simp] theorem clearOutput_bus (s : State) : (clearOutput s).bus = s.bus := rfl

@[simp] theorem clearOutput_latch (s : State) : (clearOutput s).latch = s.latch := rfl

@[simp] theorem clearOutput_prg (s : State) : (clearOutput s).prg = s.prg := rfl

@[simp] theorem clearOutput_chr (s : State) : (clearOutput s).chr = s.chr := rfl

@[simp] theorem clearOutput_nmt (s : State) : (clearOutput s).nmt = s.nmt := rfl

@[simp] theorem clearOutput_wrk (s : State) : (clearOutput s).wrk = s.wrk := rfl

@[simp] theorem clearOutput_ramChr (s : State) : (clearOutput s).ramChr = s.ramChr := rfl

@[simp] theorem clearOutput_ramNmt (s : State) : (clearOutput s).ramNmt = s.ramNmt := rfl

@[simp] theorem clearOutput_ramWrk (s : State) : (clearOutput s).ramWrk = s.ramWrk := rfl

@[simp] theorem clearOutput_board (s : State) : (clearOutput s).board = s.board := rfl

@[simp] theorem clearOutput_powered (s : State) : (clearOutput s).powered = s.powered := rfl

@[simp] theorem clearOutput_refused (s : State) : (clearOutput s).refused = s.refused := rfl

@[simp] theorem clearOutput_pending (s : State) : (clearOutput s).pending = s.pending := rfl

@[simp] theorem clearOutput_stream (s : State) : (clearOutput s).stream = s.stream := rfl

@[simp] theorem clearOutput_draws (s : State) : (clearOutput s).draws = s.draws := rfl

@[simp] theorem clearOutput_result (s : State) : (clearOutput s).result = .done := rfl

@[simp] theorem clearOutput_events (s : State) : (clearOutput s).events = [] := rfl

@[simp] theorem notePpu_cart (s : State) : (notePpu s).cart = s.cart := by unfold notePpu; split <;> rfl

@[simp] theorem notePpu_bus (s : State) : (notePpu s).bus = s.bus := by unfold notePpu; split <;> rfl

@[simp] theorem notePpu_latch (s : State) : (notePpu s).latch = s.latch := by unfold notePpu; split <;> rfl

@[simp] theorem notePpu_prg (s : State) : (notePpu s).prg = s.prg := by unfold notePpu; split <;> rfl

@[simp] theorem notePpu_chr (s : State) : (notePpu s).chr = s.chr := by unfold notePpu; split <;> rfl

@[simp] theorem notePpu_nmt (s : State) : (notePpu s).nmt = s.nmt := by unfold notePpu; split <;> rfl

@[simp] theorem notePpu_wrk (s : State) : (notePpu s).wrk = s.wrk := by unfold notePpu; split <;> rfl

@[simp] theorem notePpu_ramChr (s : State) : (notePpu s).ramChr = s.ramChr := by unfold notePpu; split <;> rfl

@[simp] theorem notePpu_ramNmt (s : State) : (notePpu s).ramNmt = s.ramNmt := by unfold notePpu; split <;> rfl

@[simp] theorem notePpu_ramWrk (s : State) : (notePpu s).ramWrk = s.ramWrk := by unfold notePpu; split <;> rfl

@[simp] theorem notePpu_board (s : State) : (notePpu s).board = s.board := by unfold notePpu; split <;> rfl

@[simp] theorem notePpu_powered (s : State) : (notePpu s).powered = s.powered := by unfold notePpu; split <;> rfl

@[simp] theorem notePpu_refused (s : State) : (notePpu s).refused = s.refused := by unfold notePpu; split <;> rfl

@[simp] theorem notePpu_pending (s : State) : (notePpu s).pending = s.pending := by unfold notePpu; split <;> rfl

@[simp] theorem notePpu_stream (s : State) : (notePpu s).stream = s.stream := by unfold notePpu; split <;> rfl

@[simp] theorem notePpu_result (s : State) : (notePpu s).result = s.result := by unfold notePpu; split <;> rfl

@[simp] theorem notePpu_draws (s : State) : (notePpu s).draws = s.draws := by unfold notePpu; split <;> rfl

theorem notePpu_pages (s : State) (w : WinId) : (notePpu s).pages w = s.pages w := by
  cases w <;> simp [State.pages]

theorem notePpu_events_ne_nil (s : State) : (notePpu s).events ≠ [] := by
  unfold notePpu
  split
  · simp
  · assumption

/-- `PpuUpdate` is noted once (R230). -/
@[simp] theorem notePpu_notePpu (s : State) : notePpu (notePpu s) = notePpu s := by
  rw [notePpu, if_neg (notePpu_events_ne_nil s)]

/-- The events after a `PpuUpdate` note (R230). -/
def noted (es : List Event) : List Event := if es = [] then [.ppuUpdate] else es

/-- All that a note changes. -/
theorem notePpu_eq (s : State) : notePpu s = { s with events := noted s.events } := by
  unfold notePpu noted
  split <;> rfl

@[simp] theorem noted_nil : noted [] = [.ppuUpdate] := rfl

theorem noted_ne_nil (es : List Event) : noted es ≠ [] := by
  unfold noted
  split <;> simp_all

@[simp] theorem noted_noted (es : List Event) : noted (noted es) = noted es := if_neg (noted_ne_nil es)

/-- Everything a stopped transaction does (R421, R423): its state differs from the one it began in by the mark
and the outputs. -/
theorem takeStop_eq (stop : Stop) (s : State) :
    ∃ m r, takeStop stop s = { s with refused := m, result := r, events := [] } ∧ (s.refused → m) := by
  cases stop with
  | refused r => exact ⟨true, _, rfl, fun _ => rfl⟩
  | error e => exact ⟨s.refused, _, rfl, id⟩

/-- Everything a transaction can do: its body completes, or it stops (R13). -/
theorem transact_cases (s : State) (body : State → Except Stop State) :
    (∃ t, body (clearOutput s) = .ok t ∧ transact s body = t) ∨
    (∃ stop, body (clearOutput s) = .error stop ∧ transact s body = takeStop stop (clearOutput s)) := by
  unfold transact
  cases body (clearOutput s) with
  | ok t => exact .inl ⟨t, rfl, rfl⟩
  | error e => exact .inr ⟨e, rfl, rfl⟩

@[simp] theorem powerGate_on {s : State} (k : Except Stop State) (h : s.powered = true) :
    powerGate s k = k := by simp [powerGate, h]

@[simp] theorem powerGate_off {s : State} (k : Except Stop State) (h : s.powered = false) :
    powerGate s k = .error (.refused .notPoweredOn) := by simp [powerGate, h]

/-- A gated body that completes was powered (R43). -/
theorem powerGate_ok {s t : State} {k : Except Stop State} (h : powerGate s k = .ok t) :
    s.powered = true ∧ k = .ok t := by
  unfold powerGate at h
  split at h
  · exact ⟨‹_›, h⟩
  · cases h

end Sys2Proof.Machine
end

