-- ==== Sys2Proof/Laws/Memory.lean ====
section
/-! SUPPORT. The laws of memory: a read after a write, and that every operation keeps the canonical form. -/

namespace Sys2Proof.Machine

/-! ### Reading -/

theorem Memory.read_of_lt {m : Memory} {o : Nat} (h : ∀ c ∈ m, o < c.1) : m.read o = unlistedByte := by
  induction m with
  | nil => rfl
  | cons c rest ih =>
    have hc : c.1 ≠ o := (h c (by simp)).ne'
    simp [Memory.read, hc, ih fun d hd => h d (by simp [hd])]

theorem Memory.read_cons_eq (o : Nat) (v : Byte) {m : Memory} (h : ∀ c ∈ m, o < c.1) :
    (Memory.cons o v m).read o = v := by
  unfold Memory.cons
  split
  · rw [Memory.read_of_lt h]; symm; assumption
  · simp [Memory.read]

theorem Memory.read_cons_ne (v : Byte) (m : Memory) {o k : Nat} (h : k ≠ o) :
    (Memory.cons o v m).read k = m.read k := by
  unfold Memory.cons
  split
  · rfl
  · simp [Memory.read, h.symm]

/-- A write is read back at its offset. -/
theorem Memory.read_write_eq {m : Memory} (hm : m.wf) (o : Nat) (v : Byte) : (m.write o v).read o = v := by
  induction m with
  | nil => exact Memory.read_cons_eq o v (by simp)
  | cons c rest ih =>
    obtain ⟨hp, hn⟩ := hm
    obtain ⟨hlt, hrest⟩ := List.pairwise_cons.1 hp
    have hrest' : Memory.wf rest := ⟨hrest, fun d hd => hn d (by simp [hd])⟩
    simp only [Memory.write]
    split
    · exact Memory.read_cons_eq o v (by
        intro d hd
        rcases List.mem_cons.1 hd with rfl | hd
        · assumption
        · exact Nat.lt_trans ‹_› (hlt d hd))
    · split
      · subst o; exact Memory.read_cons_eq _ v (fun d hd => hlt d hd)
      · have : c.1 ≠ o := by omega
        simp [Memory.read, this, ih hrest']

/-- A write leaves every other offset alone. -/
theorem Memory.read_write_ne (m : Memory) {o k : Nat} (v : Byte) (h : k ≠ o) :
    (m.write o v).read k = m.read k := by
  induction m with
  | nil => exact Memory.read_cons_ne v [] h
  | cons c rest ih =>
    simp only [Memory.write]
    split
    · exact Memory.read_cons_ne v _ h
    · split
      · subst o; rw [Memory.read_cons_ne v _ h]; simp [Memory.read, h.symm]
      · simp [Memory.read, ih]

/-! ### The canonical form -/

theorem Memory.cons_wf (v : Byte) {o : Nat} {m : Memory} (hm : m.wf) (h : ∀ c ∈ m, o < c.1) :
    (Memory.cons o v m).wf := by
  unfold Memory.cons
  split
  · exact hm
  · exact ⟨List.pairwise_cons.2 ⟨fun d hd => h d hd, hm.1⟩, by
      intro d hd
      rcases List.mem_cons.1 hd with rfl | hd
      · assumption
      · exact hm.2 d hd⟩

/-- The offsets a write can leave listed. -/
theorem Memory.mem_write {m : Memory} {o : Nat} {v : Byte} {d : Host.Cell} (h : d ∈ m.write o v) :
    d.1 = o ∨ d ∈ m := by
  induction m with
  | nil =>
    simp only [Memory.write, Memory.cons] at h
    split at h <;> simp_all
  | cons c rest ih =>
    simp only [Memory.write, Memory.cons] at h
    split at h
    · split at h
      · exact .inr h
      · rcases List.mem_cons.1 h with rfl | h
        · exact .inl rfl
        · exact .inr h
    · split at h
      · split at h
        · exact .inr (by simp [h])
        · rcases List.mem_cons.1 h with rfl | h
          · exact .inl rfl
          · exact .inr (by simp [h])
      · rcases List.mem_cons.1 h with rfl | h
        · exact .inr (by simp)
        · exact (ih h).imp id (List.mem_cons_of_mem _)

/-- Every write keeps the canonical form. -/
theorem Memory.write_wf {m : Memory} (hm : m.wf) (o : Nat) (v : Byte) : (m.write o v).wf := by
  induction m with
  | nil => exact Memory.cons_wf v ⟨List.Pairwise.nil, by simp⟩ (by simp)
  | cons c rest ih =>
    obtain ⟨hp, hn⟩ := hm
    obtain ⟨hlt, hrest⟩ := List.pairwise_cons.1 hp
    have hrest' : Memory.wf rest := ⟨hrest, fun d hd => hn d (by simp [hd])⟩
    simp only [Memory.write]
    split
    · exact Memory.cons_wf v ⟨hp, hn⟩ (by
        intro d hd
        rcases List.mem_cons.1 hd with rfl | hd
        · assumption
        · exact Nat.lt_trans ‹_› (hlt d hd))
    · split
      · subst o; exact Memory.cons_wf v hrest' (fun d hd => hlt d hd)
      · obtain ⟨hp', hn'⟩ := ih hrest'
        refine ⟨List.pairwise_cons.2 ⟨fun d hd => ?_, hp'⟩, ?_⟩
        · rcases Memory.mem_write hd with h | h
          · show c.1 < d.1
            omega
          · exact hlt d h
        · intro d hd
          rcases List.mem_cons.1 hd with rfl | hd
          · exact hn _ (by simp)
          · exact hn' d hd

/-- A write inside a Source lists nothing outside it. -/
theorem Memory.write_within {m : Memory} {size o : Nat} (hm : m.within size) (ho : o < size) (v : Byte) :
    (m.write o v).within size := by
  intro d hd
  rcases Memory.mem_write hd with h | h
  · omega
  · exact hm d h

/-- Equal contents are equal data. -/
theorem Memory.ext_of_read {m n : Memory} (hm : m.wf) (hn : n.wf) (h : ∀ o, m.read o = n.read o) :
    m = n := by
  induction m generalizing n with
  | nil =>
    cases n with
    | nil => rfl
    | cons d rest =>
      have := h d.1
      simp only [Memory.read, if_pos] at this
      exact absurd this.symm (hn.2 d (by simp))
  | cons c rest ih =>
    obtain ⟨hlt, hrest⟩ := List.pairwise_cons.1 hm.1
    cases n with
    | nil =>
      have := h c.1
      simp only [Memory.read, if_pos] at this
      exact absurd this (hm.2 c (by simp))
    | cons d rest' =>
      obtain ⟨hlt', hrest'⟩ := List.pairwise_cons.1 hn.1
      have hcd : c.1 = d.1 := by
        by_contra hne
        rcases Nat.lt_or_gt_of_ne hne with hlt2 | hlt2
        · have h1 := h c.1
          rw [show Memory.read (d :: rest') c.1 = unlistedByte from Memory.read_of_lt (by
            intro e he
            rcases List.mem_cons.1 he with rfl | he
            · exact hlt2
            · exact Nat.lt_trans hlt2 (hlt' e he))] at h1
          simp only [Memory.read, if_pos] at h1
          exact hm.2 c (by simp) h1
        · have h1 := h d.1
          rw [show Memory.read (c :: rest) d.1 = unlistedByte from Memory.read_of_lt (by
            intro e he
            rcases List.mem_cons.1 he with rfl | he
            · exact hlt2
            · exact Nat.lt_trans hlt2 (hlt e he))] at h1
          simp only [Memory.read, if_pos] at h1
          exact hn.2 d (by simp) h1.symm
      have hv : c.2 = d.2 := by
        have h1 := h c.1
        simpa [Memory.read, hcd] using h1
      have hr : rest = rest' := by
        apply ih ⟨hrest, fun e he => hm.2 e (by simp [he])⟩ ⟨hrest', fun e he => hn.2 e (by simp [he])⟩
        intro o
        by_cases ho : c.1 = o
        · rw [Memory.read_of_lt (fun e he => ho ▸ hlt e he),
            Memory.read_of_lt (fun e he => by have := hlt' e he; omega)]
        · have h1 := h o
          have hdo : d.1 ≠ o := hcd ▸ ho
          simpa [Memory.read, ho, hdo] using h1
      rw [hr, Prod.ext hcd hv]

/-! ### Memory and byte lists -/

theorem Memory.ofBytes_ge {bs : List Byte} {o : Nat} {d : Host.Cell} (h : d ∈ Memory.ofBytes o bs) :
    o ≤ d.1 ∧ d.1 < o + bs.length := by
  induction bs generalizing o with
  | nil => simp [Memory.ofBytes] at h
  | cons b rest ih =>
    simp only [Memory.ofBytes, Memory.cons] at h
    split at h
    · have := ih h; simp; omega
    · rcases List.mem_cons.1 h with rfl | h
      · simp
      · have := ih h; simp; omega

theorem Memory.ofBytes_wf (o : Nat) (bs : List Byte) : (Memory.ofBytes o bs).wf := by
  induction bs generalizing o with
  | nil => exact ⟨List.Pairwise.nil, by simp [Memory.ofBytes]⟩
  | cons b rest ih => exact Memory.cons_wf b (ih _) (fun c hc => (Memory.ofBytes_ge hc).1)

/-- A byte list lies in a Source at least as long. -/
theorem Memory.ofBytes_within {bs : List Byte} {size : Nat} (h : bs.length ≤ size) :
    (Memory.ofBytes 0 bs).within size := by
  intro c hc
  have := (Memory.ofBytes_ge hc).2
  omega

/-- The memory of a byte list reads as the list. -/
theorem Memory.read_ofBytes (o k : Nat) (bs : List Byte) :
    (Memory.ofBytes o bs).read (o + k) = bs.getD k unlistedByte := by
  induction bs generalizing o k with
  | nil => rfl
  | cons b rest ih =>
    simp only [Memory.ofBytes]
    cases k with
    | zero => exact Memory.read_cons_eq o b (fun c hc => (Memory.ofBytes_ge hc).1)
    | succ k =>
      rw [Memory.read_cons_ne b _ (by omega), show o + (k + 1) = o + 1 + k by omega, ih]
      rfl

/-- Writing out a Source's bytes and reading them in gives the same memory (R399, R400). -/
theorem Memory.ofBytes_toBytes {m : Memory} {size : Nat} (hm : m.wf) (hs : m.within size) :
    Memory.ofBytes 0 (m.toBytes size) = m := by
  apply Memory.ext_of_read (Memory.ofBytes_wf _ _) hm
  intro o
  have h := Memory.read_ofBytes 0 o (m.toBytes size)
  rw [Nat.zero_add] at h
  rw [h]
  by_cases ho : o < size
  · simp [Memory.toBytes, ho]
  · rw [List.getD_eq_default _ _ (by simpa [Memory.toBytes] using ho)]
    have : ∀ (n : Memory), n.within size → n.read o = unlistedByte := by
      intro n hn
      induction n with
      | nil => rfl
      | cons c rest ih =>
        have hc : c.1 ≠ o := by have := hn c (by simp); omega
        simp [Memory.read, hc, ih fun d hd => hn d (by simp [hd])]
    exact (this m hs).symm

@[simp] theorem Memory.toBytes_length (m : Memory) (size : Nat) : (m.toBytes size).length = size := by
  simp [Memory.toBytes]

end Sys2Proof.Machine
end

