-- ==== Sys2Proof/Laws/Windows.lean ====
section
/-! SUPPORT. The laws of windowing: the masking law, what a swap changes and what it leaves, reading and
writing through a window, mirroring. -/

namespace Sys2Proof.Machine

/-! ### Replacing pages -/

@[simp] theorem replacePages_length (first count : Nat) (new : Nat → Page) (j : Nat) (ps : List Page) :
    (replacePages first count new j ps).length = ps.length := by
  induction ps generalizing j with
  | nil => rfl
  | cons p ps ih => simp [replacePages, ih]

/-- The page at each position after a replacement. -/
theorem replacePages_getElem? (first count : Nat) (new : Nat → Page) (j : Nat) (ps : List Page) (k : Nat) :
    (replacePages first count new j ps)[k]? =
      ps[k]?.map fun p => if first ≤ j + k ∧ j + k < first + count then new (j + k - first) else p := by
  induction ps generalizing j k with
  | nil => simp [replacePages]
  | cons p ps ih =>
    cases k with
    | zero => simp [replacePages]
    | succ k => simp [replacePages, ih, show j + 1 + k = j + (k + 1) by omega]

/-- A page after a replacement is a new one or an old one. -/
theorem mem_replacePages {first count : Nat} {new : Nat → Page} {j : Nat} {ps : List Page} {p : Page}
    (h : p ∈ replacePages first count new j ps) : (∃ k < count, p = new k) ∨ p ∈ ps := by
  induction ps generalizing j with
  | nil => simp [replacePages] at h
  | cons q ps ih =>
    simp only [replacePages] at h
    rcases List.mem_cons.1 h with rfl | h
    · split
      · exact .inl ⟨j - first, by omega, rfl⟩
      · exact .inr (by simp)
    · exact (ih h).imp id (List.mem_cons_of_mem _)

/-! ### The masking law (R150, R151) -/

theorem bankCount_pow (srcSize size : Nat) : ∃ k, bankCount srcSize size = 2 ^ k := by
  unfold bankCount pow2floor
  split
  · exact ⟨0, rfl⟩
  · exact ⟨_, rfl⟩

theorem bankCount_pos (srcSize size : Nat) : 0 < bankCount srcSize size := by
  obtain ⟨k, hk⟩ := bankCount_pow srcSize size
  rw [hk]
  exact Nat.two_pow_pos k

/-- A masked index is the requested one modulo the bank count. -/
theorem maskIndex_eq_mod (i srcSize size : Nat) :
    maskIndex i srcSize size = u32 i % bankCount srcSize size := by
  obtain ⟨k, hk⟩ := bankCount_pow srcSize size
  rw [maskIndex, hk, Nat.and_two_pow_sub_one_eq_mod]

theorem maskIndex_lt (i srcSize size : Nat) : maskIndex i srcSize size < bankCount srcSize size := by
  rw [maskIndex_eq_mod]
  exact Nat.mod_lt _ (bankCount_pos _ _)

/-- The banks counted fit in the Source, when it holds one at all. -/
theorem bankCount_mul_le {srcSize size : Nat} (h : size ≤ srcSize) (hs : 0 < size) :
    bankCount srcSize size * size ≤ srcSize := by
  have hq : srcSize / size ≠ 0 := by
    have := Nat.div_pos h hs
    omega
  rw [bankCount, if_neg (by omega), pow2floor]
  calc 2 ^ (srcSize / size).log2 * size ≤ srcSize / size * size :=
        Nat.mul_le_mul_right _ (Nat.log2_self_le hq)
    _ ≤ srcSize := Nat.div_mul_le_self _ _

/-! ### What a swap does -/

@[simp] theorem mapBank_pages (w : WinId) (size base i : Nat) (s : State) :
    (mapBank w size base i s).pages w =
      replacePages (base / pageSize w) (size / pageSize w) (swappedPage s.cart w size i) 0 (s.pages w) :=
  State.setPages_pages _ _ _

theorem mapBank_pages_ne {w v : WinId} (size base i : Nat) (s : State) (h : v ≠ w) :
    (mapBank w size base i s).pages v = s.pages v := State.setPages_pages_ne _ _ h

/-- A state that differs from another in its windows and events only. -/
def OnlyWindows (s t : State) : Prop :=
  ∃ p c n w e, t = { s with prg := p, chr := c, nmt := n, wrk := w, events := e }

theorem OnlyWindows.refl (s : State) : OnlyWindows s s := ⟨_, _, _, _, _, rfl⟩

theorem OnlyWindows.trans {s t u : State} (h : OnlyWindows s t) (k : OnlyWindows t u) : OnlyWindows s u := by
  obtain ⟨_, _, _, _, _, rfl⟩ := h
  obtain ⟨p, c, n, w, e, rfl⟩ := k
  exact ⟨p, c, n, w, e, rfl⟩

theorem OnlyWindows.cart {s t : State} (h : OnlyWindows s t) : t.cart = s.cart := by
  obtain ⟨_, _, _, _, _, rfl⟩ := h
  rfl

theorem OnlyWindows.draws {s t : State} (h : OnlyWindows s t) : t.draws = s.draws := by
  obtain ⟨_, _, _, _, _, rfl⟩ := h
  rfl

theorem OnlyWindows.board {s t : State} (h : OnlyWindows s t) : t.board = s.board := by
  obtain ⟨_, _, _, _, _, rfl⟩ := h
  rfl

theorem mapBank_onlyWindows (w : WinId) (size base i : Nat) (s : State) :
    OnlyWindows s (mapBank w size base i s) := by cases w <;> exact ⟨_, _, _, _, _, rfl⟩

theorem notePpu_onlyWindows (s : State) : OnlyWindows s (notePpu s) := by
  unfold notePpu
  split <;> exact ⟨_, _, _, _, _, rfl⟩

theorem swapBank_onlyWindows (w : WinId) (size base i : Nat) (s : State) :
    OnlyWindows s (swapBank w size base i s) := by
  unfold swapBank
  split
  · exact (notePpu_onlyWindows s).trans (mapBank_onlyWindows ..)
  · exact mapBank_onlyWindows ..

theorem mapBanks_onlyWindows (w : WinId) (size base : Nat) (is : List Nat) (s : State) :
    OnlyWindows s (mapBanks w size base is s) := by
  induction is generalizing base s with
  | nil => exact .refl s
  | cons i is ih => exact (mapBank_onlyWindows ..).trans (ih ..)

theorem setNmt_onlyWindows (t : Table) (s : State) : OnlyWindows s (setNmt t s) := mapBanks_onlyWindows ..

theorem setMirroring_onlyWindows (t : Table) (s : State) : OnlyWindows s (setMirroring t s) := by
  unfold setMirroring
  split
  · exact .refl s
  · refine OnlyWindows.trans ?_ (setNmt_onlyWindows ..)
    exact (notePpu_onlyWindows s).trans ⟨_, _, _, _, _, rfl⟩

theorem setMode_onlyWindows (m : Mirroring) (s : State) : OnlyWindows s (setMode m s) :=
  setMirroring_onlyWindows ..

theorem runHelper_onlyWindows (h : MirrorHelper) (d : Nat) (s : State) : OnlyWindows s (runHelper h d s) :=
  setMode_onlyWindows ..

theorem defaultWindows_onlyWindows (s : State) : OnlyWindows s (defaultWindows s) :=
  (mapBank_onlyWindows ..).trans ((mapBank_onlyWindows ..).trans
    ((mapBank_onlyWindows ..).trans (setNmt_onlyWindows ..)))

/-! ### Page fields stay in range (R38) -/

theorem swappedPage_wf (c : Cartridge) {w : WinId} {size i k : Nat} (hs : size ∈ swapSizes)
    (hk : k < size / pageSize w) : (swappedPage c w size i k).wf c w := by
  refine ⟨?_, hs, ?_⟩
  · simp only [swappedPage]
    split
    · omega
    · have := Nat.mod_lt (maskIndex i (c.sourceSize w) size * size + k * pageSize w)
        (Nat.pos_of_ne_zero ‹_›)
      omega
  · have hp : 0 < pageSize w := by cases w <;> decide
    calc k * pageSize w < size / pageSize w * pageSize w := Nat.mul_lt_mul_of_pos_right hk hp
      _ ≤ size := Nat.div_mul_le_self _ _

theorem wellFormedSwap_mem {w : WinId} {size base : Nat} (h : wellFormedSwap w size base = true) :
    size ∈ swapSizes := by
  simp only [wellFormedSwap, Bool.and_eq_true, List.contains_iff_mem] at h
  exact h.1.1.1

/-- Every swap of an admitted size keeps every window set's pages in range. -/
theorem mapBank_pagesWf {w v : WinId} {size base i : Nat} {s : State} (hs : size ∈ swapSizes)
    (h : pagesWf s.cart v (s.pages v)) : pagesWf s.cart v ((mapBank w size base i s).pages v) := by
  by_cases hv : v = w
  · subst hv
    rw [mapBank_pages]
    refine ⟨by simpa using h.1, fun p hp => ?_⟩
    rcases mem_replacePages hp with ⟨k, hk, rfl⟩ | hp
    · exact swappedPage_wf _ hs hk
    · exact h.2 p hp
  · rw [mapBank_pages_ne _ _ _ _ hv]
    exact h

/-! ### Reading and writing through a window -/

theorem sourceOffset_lt {w : WinId} {o : Nat} {s : State} (h : s.cart.sourceSize w ≠ 0) :
    sourceOffset w o s < s.cart.sourceSize w := by
  unfold sourceOffset
  split <;> exact Nat.mod_lt _ (Nat.pos_of_ne_zero h)

/-- The Source offset of a byte on a known page (R160). -/
theorem sourceOffset_page {w : WinId} {o : Nat} {s : State} {p : Page}
    (h : (s.pages w)[o / pageSize w]? = some p) :
    sourceOffset w o s = (p.off + o % pageSize w) % s.cart.sourceSize w := by
  rw [sourceOffset, h]

/-- The byte a window read gives, on a known page of a present Source (R160). -/
theorem readBM_page {w : WinId} {o : Nat} {s : State} {p : Page} (hz : s.cart.sourceSize w ≠ 0)
    (h : (s.pages w)[o / pageSize w]? = some p) :
    readBM w o s = (s.sourceBytes w).read ((p.off + o % pageSize w) % s.cart.sourceSize w) := by
  rw [readBM, if_neg hz, sourceOffset_page h]

/-- A read through a present Source depends on the configuration, the pages and the bytes only. -/
theorem readBM_congr {w : WinId} {o : Nat} {s t : State} (hc : t.cart = s.cart) (hp : t.pages w = s.pages w)
    (hb : t.sourceBytes w = s.sourceBytes w) (hz : s.cart.sourceSize w ≠ 0) : readBM w o t = readBM w o s := by
  simp only [readBM, sourceOffset, hc, hp, hb, if_neg hz]

/-- The byte a window write stores, and where (R161). -/
theorem writeBM_store {w : WinId} {o : Nat} {v : Byte} {s : State} (h : s.cart.sourceSize w ≠ 0)
    (hw : s.cart.writable w = true) :
    writeBM w o v s = s.setRam w ((s.ram w).write (sourceOffset w o s) v) := by
  simp [writeBM, h, hw]

/-- A write into an absent or read-only Source changes nothing (R77, R162). -/
theorem writeBM_ignored {w : WinId} {o : Nat} {v : Byte} {s : State}
    (h : s.cart.sourceSize w = 0 ∨ s.cart.writable w = false) : writeBM w o v s = s := by
  simp [writeBM, h]

/-- A writable Source's bytes are its RAM, and its RAM is as long as the Source. -/
theorem ramSize_of_writable {c : Cartridge} {w : WinId} (h : c.writable w = true) :
    c.ramSize w = c.sourceSize w := by
  cases w <;> simp_all [Cartridge.writable, Cartridge.ramSize, Cartridge.sourceSize]

end Sys2Proof.Machine
end

