-- ==== Sys2Proof/Laws/Boards.lean ====
section
/-! SUPPORT. What each board's window update leaves, as the pages its rules give (44_boards.md), over window
sets with the page counts of R39. -/

namespace Sys2Proof.Machine

/-! ### One swap, as a page list -/

theorem exists_of_length_four {α : Type} {l : List α} (h : l.length = 4) : ∃ a b c d, l = [a, b, c, d] := by
  match l, h with
  | [a, b, c, d], _ => exact ⟨a, b, c, d, rfl⟩

theorem exists_of_length_eight {α : Type} {l : List α} (h : l.length = 8) :
    ∃ a b c d e f g i, l = [a, b, c, d, e, f, g, i] := by
  match l, h with
  | [a, b, c, d, e, f, g, i], _ => exact ⟨a, b, c, d, e, f, g, i, rfl⟩

theorem mapBank_prg32 {s : State} (i : Nat) (h : s.prg.length = 4) :
    mapBank .prg 32768 0 i s = { s with prg := prg32 s.cart i } := by
  obtain ⟨a, b, c, d, hp⟩ := exists_of_length_four h
  simp [mapBank, State.setPages, State.pages, hp, replacePages, pageSize, prg32, swapPages, List.range_succ]

theorem mapBank_prg16 {s : State} (i j : Nat) (h : s.prg.length = 4) :
    mapBank .prg 16384 0x4000 j (mapBank .prg 16384 0 i s) = { s with prg := prg16 s.cart i j } := by
  obtain ⟨a, b, c, d, hp⟩ := exists_of_length_four h
  simp [mapBank, State.setPages, State.pages, hp, replacePages, pageSize, prg16, swapPages, List.range_succ]

/-- A 16 KiB bank at `$8000` leaves the one at `$C000`. -/
theorem mapBank_prgLow {s : State} (i j k : Nat) (h : s.prg = prg16 s.cart k j) :
    mapBank .prg 16384 0 i s = { s with prg := prg16 s.cart i j } := by
  simp [mapBank, State.setPages, State.pages, h, replacePages, pageSize, prg16, swapPages, List.range_succ]

theorem mapBank_chr8 {s : State} (i : Nat) (h : s.chr.length = 8) :
    mapBank .chr 8192 0 i s = { s with chr := chr8 s.cart i } := by
  obtain ⟨a, b, c, d, e, f, g, k, hp⟩ := exists_of_length_eight h
  simp [mapBank, State.setPages, State.pages, hp, replacePages, pageSize, chr8, swapPages, List.range_succ]

theorem mapBank_chr4 {s : State} (i j : Nat) (h : s.chr.length = 8) :
    mapBank .chr 4096 0x1000 j (mapBank .chr 4096 0 i s) = { s with chr := chr4 s.cart i j } := by
  obtain ⟨a, b, c, d, e, f, g, k, hp⟩ := exists_of_length_eight h
  simp [mapBank, State.setPages, State.pages, hp, replacePages, pageSize, chr4, swapPages, List.range_succ]

theorem mapBank_wrk {s : State} (i : Nat) (h : s.wrk.length = 1) :
    mapBank .wrk 8192 0 i s = { s with wrk := swapPages s.cart .wrk 8192 i 1 } := by
  obtain ⟨a, hp⟩ := List.length_eq_one_iff.1 h
  simp [mapBank, State.setPages, State.pages, hp, replacePages, pageSize, swapPages, List.range_succ]

theorem setNmt_eq {s : State} (t : Table) (h : s.nmt.length = 4) :
    setNmt t s = { s with nmt := nmtOf s.cart t } := by
  obtain ⟨a, b, c, d, hp⟩ := exists_of_length_four h
  simp [setNmt, mapBanks, mapBank, State.setPages, State.pages, hp, replacePages, pageSize, nmtOf]

theorem swapBank_prg (size base i : Nat) (s : State) :
    swapBank .prg size base i s = mapBank .prg size base i s := rfl

theorem swapBank_chr (size base i : Nat) (s : State) :
    swapBank .chr size base i s = mapBank .chr size base i (notePpu s) := rfl

/-! ### Page counts -/

/-- Every window set has the pages of R39. -/
structure PageCounts (s : State) : Prop where
  prg : s.prg.length = 4
  chr : s.chr.length = 8
  nmt : s.nmt.length = 4
  wrk : s.wrk.length = 1

theorem State.Wf.counts {s : State} (h : s.Wf) : PageCounts s :=
  ⟨h.prgPages.1, h.chrPages.1, h.nmtPages.1, h.wrkPages.1⟩

@[simp] theorem prg32_length (c : Cartridge) (i : Nat) : (prg32 c i).length = 4 := by simp [prg32, swapPages]

@[simp] theorem prg16_length (c : Cartridge) (i j : Nat) : (prg16 c i j).length = 4 := by
  simp [prg16, swapPages]

@[simp] theorem chr8_length (c : Cartridge) (i : Nat) : (chr8 c i).length = 8 := by simp [chr8, swapPages]

@[simp] theorem chr4_length (c : Cartridge) (i j : Nat) : (chr4 c i j).length = 8 := by simp [chr4, swapPages]

@[simp] theorem nmtOf_length (c : Cartridge) (t : Table) : (nmtOf c t).length = 4 := rfl

@[simp] theorem nmtOfMode_length (c : Cartridge) (m : Mirroring) : (nmtOfMode c m).length = 4 := rfl

@[simp] theorem mmc1PrgPages_length (c : Cartridge) (r : Mmc1Regs) : (mmc1PrgPages c r).length = 4 := by
  unfold mmc1PrgPages
  split
  · simp
  · split <;> simp

@[simp] theorem mmc1ChrPages_length (c : Cartridge) (r : Mmc1Regs) : (mmc1ChrPages c r).length = 8 := by
  unfold mmc1ChrPages
  split <;> simp

/-! ### The updates -/

/-- `UpdatePrg()` (R297). -/
theorem mmc1UpdatePrg_eq (r : Mmc1Regs) {s : State} (h : s.prg.length = 4) :
    mmc1UpdatePrg r s = { s with prg := mmc1PrgPages s.cart r } := by
  unfold mmc1UpdatePrg mmc1PrgPages
  split
  · rename_i h2
    rw [if_neg (by omega), if_pos h2]
    exact mapBank_prg16 _ _ h
  · rename_i h3
    rw [if_pos h3]
    exact mapBank_prg16 _ _ h
  · rw [if_neg ‹_›, if_neg ‹_›]
    exact mapBank_prg32 _ h

/-- `UpdateChr()` (R297). -/
theorem mmc1UpdateChr_eq (r : Mmc1Regs) {s : State} (h : s.chr.length = 8) :
    mmc1UpdateChr r s = { s with chr := mmc1ChrPages s.cart r, events := noted s.events } := by
  have hb : field r.ctrl 4 4 < 2 := Nat.mod_lt _ (by decide)
  unfold mmc1UpdateChr mmc1ChrPages
  split
  · rw [if_neg (by omega), swapBank_chr, notePpu_eq, mapBank_chr8 _ (by exact h)]
  · rw [if_pos (by omega), swapBank_chr, swapBank_chr, notePpu_eq s]
    have hn : (mapBank .chr 4096 0 r.chr0.toNat { s with events := noted s.events }).events ≠ [] :=
      noted_ne_nil _
    rw [show notePpu (mapBank .chr 4096 0 r.chr0.toNat { s with events := noted s.events })
      = mapBank .chr 4096 0 r.chr0.toNat { s with events := noted s.events } from if_neg hn]
    exact mapBank_chr4 (s := { s with events := noted s.events }) _ _ h

/-- `SetMirroring(m)` (R226). -/
theorem setMode_eq (m : Mirroring) {s : State} (h : s.nmt.length = 4) :
    setMode m s = if s.cart.mirroring = .four then s else
      { s with
        events := noted s.events ++ [.ppuSetMirroring (mirrorTable m)]
        nmt := nmtOf s.cart (mirrorTable m) } := by
  unfold setMode setMirroring
  split
  · rfl
  · rw [notePpu_eq, emitMirroring, setNmt_eq _ (by exact h)]

/-- The nametables of a cartridge that starts from its own or from those of a mode are those of the mode
(R226). -/
theorem nmtOfMode_of_four {c : Cartridge} (m : Mirroring) (h : c.mirroring = .four) :
    nmtOfMode c m = nmtOf c (mirrorTable c.mirroring) := by simp [nmtOfMode, h]

theorem nmtOfMode_of_ne {c : Cartridge} (m : Mirroring) (h : c.mirroring ≠ .four) :
    nmtOfMode c m = nmtOf c (mirrorTable m) := by simp [nmtOfMode, h]

theorem mmc1Mode_eq (r : Mmc1Regs) : mmc1Mode r = mmc1Mirroring r := by
  have hb : field r.ctrl 1 0 < 4 := Nat.mod_lt _ (by decide)
  unfold mmc1Mode mmc1Mirroring
  generalize field r.ctrl 1 0 = k at hb
  interval_cases k <;> rfl

/-- The events a `SetMirroring` adds to those noted before it (R226, R231). -/
def mirrorCall (c : Cartridge) (m : Mirroring) : List Event :=
  if c.mirroring = .four then [] else [.ppuSetMirroring (mirrorTable m)]

/-- The nametables on a four-screen cartridge are its own. -/
def NmtHome (s : State) : Prop := s.cart.mirroring = .four → s.nmt = nmtOf s.cart (mirrorTable .four)

/-- `UpdatePrg(); UpdateChr(); UpdateMirror()` (R297). -/
theorem mmc1Update_eq (r : Mmc1Regs) {s : State} (h : PageCounts s) (hn : NmtHome s) :
    mmc1Update r s = { s with
      prg := mmc1PrgPages s.cart r, chr := mmc1ChrPages s.cart r, nmt := nmtOfMode s.cart (mmc1Mirroring r),
      events := noted s.events ++ mirrorCall s.cart (mmc1Mirroring r) } := by
  unfold mmc1Update mmc1UpdateMirror
  rw [mmc1UpdatePrg_eq r h.prg, mmc1UpdateChr_eq r (by exact h.chr), setMode_eq _ (by exact h.nmt),
    mmc1Mode_eq]
  by_cases hf : s.cart.mirroring = .four
  · have hs : s.nmt = nmtOfMode s.cart (mmc1Mirroring r) := by rw [nmtOfMode_of_four _ hf, hn hf, hf]
    simp only [hf, if_true, mirrorCall, List.append_nil, ← hs]
  · simp only [hf, if_false, mirrorCall, nmtOfMode_of_ne _ hf, noted_noted]

/-- The two swaps of UxROM (R311). -/
theorem uxromUpdate_eq (v : Byte) {s : State} (h : s.prg.length = 4) :
    uxromUpdate v s = { s with prg := prg16 s.cart v.toNat 0xFFFFFFFF } := mapBank_prg16 _ _ h

/-- The swap of CNROM (R321). -/
theorem cnromUpdate_eq (v : Byte) {s : State} (h : s.chr.length = 8) :
    cnromUpdate v s = { s with chr := chr8 s.cart v.toNat, events := noted s.events } := by
  rw [cnromUpdate, swapBank_chr, notePpu_eq, mapBank_chr8 _ (by exact h)]

/-- `AxUpdate()` (R331). -/
theorem axromUpdate_eq (v : Byte) {s : State} (h : PageCounts s) (hn : NmtHome s) :
    axromUpdate v s =
      { s with
        prg := prg32 s.cart (field v 3 0), nmt := nmtOfMode s.cart (axromMirroring v),
        events := if s.cart.mirroring = .four then s.events
          else noted s.events ++ mirrorCall s.cart (axromMirroring v) } := by
  unfold axromUpdate
  rw [swapBank_prg, mapBank_prg32 _ h.prg, setMode_eq _ (by exact h.nmt)]
  by_cases hf : s.cart.mirroring = .four
  · have hs : s.nmt = nmtOfMode s.cart (axromMirroring v) := by rw [nmtOfMode_of_four _ hf, hn hf, hf]
    simp only [hf, if_true, ← hs]
  · simp only [hf, if_false, mirrorCall, nmtOfMode_of_ne _ hf, axromMirroring]

/-- UxROM's write function over its own register (R312). -/
theorem uxromWrite_of {s : State} {v : Byte} (e : Byte) (h : s.board = .uxrom v) :
    uxromWrite e s = swapBank .prg 16384 0 e.toNat { s with board := .uxrom e } := by
  unfold uxromWrite
  rw [h]

/-- CNROM's write function over its own register (R322). -/
theorem cnromWrite_of {s : State} {v : Byte} (e : Byte) (h : s.board = .cnrom v) :
    cnromWrite e s = cnromUpdate e { s with board := .cnrom e } := by
  unfold cnromWrite
  rw [h]

/-- AxROM's write function over its own register (R332). -/
theorem axromWrite_of {s : State} {v : Byte} (e : Byte) (h : s.board = .axrom v) :
    axromWrite e s = axromUpdate e { s with board := .axrom e } := by
  unfold axromWrite
  rw [h]

/-- The register record of a well-formed one-register board. -/
theorem board_of_regsMatch {b : Board} {r : BoardRegs} (h : regsMatch b r) :
    (b = .uxrom → ∃ v, r = .uxrom v) ∧ (b = .cnrom → ∃ v, r = .cnrom v) ∧ (b = .axrom → ∃ v, r = .axrom v) := by
  cases b <;> cases r <;> simp_all [regsMatch]

/-- `Update(menu)` of `MENU4` (R259). -/
theorem menu4Update_eq (m : Byte) {s : State} (h : PageCounts s) (hb : s.board = .menu m) :
    menuUpdate menu4Params s =
      .ok { s with prg := prg32 s.cart m.toNat, chr := chr8 s.cart m.toNat, events := noted s.events } := by
  have h1 : wellFormedSwap .prg 32768 0 = true := by decide
  have h2 : wellFormedSwap .chr 8192 0 = true := by decide
  simp only [menuUpdate, hb, menu4Params, runActions, runAction, evalIndex, swapBankChecked, h1, h2, if_true,
    List.getD_cons_zero, swapBank_prg, swapBank_chr, mapBank_prg32 _ h.prg]
  rw [notePpu_eq, mapBank_chr8 _ (by exact h.chr), ← hb]

/-- The default windows (R213). -/
theorem defaultWindows_eq {s : State} (h : PageCounts s) :
    defaultWindows s = { s with
      prg := prg32 s.cart 0, chr := chr8 s.cart 0, wrk := swapPages s.cart .wrk 8192 0 1,
      nmt := nmtOf s.cart (mirrorTable s.cart.mirroring) } := by
  unfold defaultWindows
  rw [mapBank_prg32 _ h.prg, mapBank_chr8 _ (by exact h.chr), mapBank_wrk _ (by exact h.wrk),
    setNmt_eq _ (by exact h.nmt)]

/-! ### The update of a modelled board -/

/-- The windows that the update of the state's board leaves alone are as a hard reset's default windows set
them (R213): what every update of that board starts from. -/
structure Untouched (s : State) : Prop where
  counts : PageCounts s
  nmtHome : NmtHome s
  wrk : s.wrk = swapPages s.cart .wrk 8192 0 1
  prg : s.cart.board = .nrom ∨ s.cart.board = .cnrom → s.prg = prg32 s.cart 0
  chr : s.cart.board = .nrom ∨ s.cart.board = .uxrom ∨ s.cart.board = .axrom → s.chr = chr8 s.cart 0
  nmt : s.cart.board ≠ .mmc1 → s.cart.board ≠ .axrom → s.nmt = nmtOf s.cart (mirrorTable s.cart.mirroring)

/-- The state with the windows that the rules of its board give its registers, and other events. -/
def State.withBoardWindows (s : State) (es : List Event) : State :=
  let win := boardWindows s.cart s.board
  { s with prg := win.prg, chr := win.chr, nmt := win.nmt, wrk := win.wrk, events := es }

/-- The update of a modelled board, over registers of its own, never stops and leaves the windows its rules
give them (R340). -/
theorem boardUpdate_modelled {s : State} (hm : modelled s.cart.board = true)
    (hr : regsMatch s.cart.board s.board) (hu : Untouched s) :
    ∃ es, boardUpdate s = .ok (s.withBoardWindows es) := by
  obtain ⟨hc, hh, hw, hp, hchr, hn⟩ := hu
  unfold boardUpdate State.withBoardWindows boardWindows
  cases hb : s.cart.board <;> cases hg : s.board <;> simp only [hb, hg, regsMatch, modelled] at hm hr <;>
    (try exact absurd hm (by decide)) <;> simp only []
  · refine ⟨s.events, ?_⟩
    rw [← hp (.inl hb), ← hchr (.inl hb), ← hn (by simp [hb]) (by simp [hb]), ← hw]
    simp [← hg]
  · rename_i r
    rw [mmc1Update_eq r hc hh]
    exact ⟨_, by rw [← hw, ← hg]⟩
  · rename_i v
    rw [uxromUpdate_eq v hc.prg]
    exact ⟨s.events, by
      rw [← hchr (.inr (.inl hb)), ← hn (by simp [hb]) (by simp [hb]), ← hw, ← hg]⟩
  · rename_i v
    rw [cnromUpdate_eq v hc.chr]
    exact ⟨_, by rw [← hp (.inr hb), ← hn (by simp [hb]) (by simp [hb]), ← hw, ← hg]⟩
  · rename_i v
    rw [axromUpdate_eq v hc hh]
    exact ⟨_, by rw [← hchr (.inr (.inr hb)), ← hw, ← hg]⟩
  · rename_i p v
    rw [of_decide_eq_true hm, menu4Update_eq v hc hg]
    exact ⟨_, by rw [← hn (by simp [hb]) (by simp [hb]), ← hw, ← hg]⟩

theorem boardWindows_counts (c : Cartridge) (regs : BoardRegs) :
    (boardWindows c regs).prg.length = 4 ∧ (boardWindows c regs).chr.length = 8
      ∧ (boardWindows c regs).nmt.length = 4 ∧ (boardWindows c regs).wrk.length = 1 := by
  unfold boardWindows
  simp only []
  split <;> simp [swapPages]

/-- Windows that follow the registers are such a start. -/
theorem untouched_of_windows {s : State} {regs : BoardRegs} (hr : regsMatch s.cart.board regs)
    (hw : s.windows = boardWindows s.cart regs) : Untouched s := by
  obtain ⟨h1, h2, h3, h4⟩ := boardWindows_counts s.cart regs
  have hp : s.prg = (boardWindows s.cart regs).prg := congrArg Windows.prg hw
  have hc : s.chr = (boardWindows s.cart regs).chr := congrArg Windows.chr hw
  have hn : s.nmt = (boardWindows s.cart regs).nmt := congrArg Windows.nmt hw
  have hk : s.wrk = (boardWindows s.cart regs).wrk := congrArg Windows.wrk hw
  constructor
  · exact ⟨by rw [hp, h1], by rw [hc, h2], by rw [hn, h3], by rw [hk, h4]⟩
  · intro hf
    rw [hn]
    unfold boardWindows
    simp only []
    split <;> simp [nmtOfMode, hf]
  · rw [hk]
    unfold boardWindows
    simp only []
    split <;> rfl
  · rw [hp]
    cases hb : s.cart.board <;> cases regs <;> simp_all [regsMatch, boardWindows]
  · rw [hc]
    cases hb : s.cart.board <;> cases regs <;> simp_all [regsMatch, boardWindows]
  · rw [hn]
    cases hb : s.cart.board <;> cases regs <;> simp_all [regsMatch, boardWindows]

/-- The default windows of a hard reset are such a start (R213). -/
theorem untouched_of_defaults {s : State} (h : PageCounts s) : Untouched (defaultWindows s) := by
  rw [defaultWindows_eq h]
  refine ⟨⟨by simp, by simp, by simp, by simp [swapPages]⟩, ?_, rfl, fun _ => rfl, fun _ => rfl,
    fun _ _ => rfl⟩
  intro hf
  simp only at hf ⊢
  rw [hf]

end Sys2Proof.Machine
end

