-- ==== Sys2Proof/Laws/Bus.lean ====
section
/-! SUPPORT. The laws of the dispatch table: the binding of an address after a `Map`, and the bindings of the
modelled boards. -/

namespace Sys2Proof.Machine

/-! ### One `Map` -/

theorem Mapping.covers_iff (m : Mapping) (a : Nat) : m.covers a = true ↔ m.first ≤ a ∧ a ≤ m.last := by
  simp [Mapping.covers]

theorem lookupRead_cons (a : Nat) (m : Mapping) (b : Bus) :
    lookupRead a (m :: b) = if m.first ≤ a ∧ a ≤ m.last then m.read.getD (lookupRead a b) else lookupRead a b := by
  rw [lookupRead]
  by_cases h : m.first ≤ a ∧ a ≤ m.last
  · rw [if_pos h, (m.covers_iff a).2 h]
    cases m.read <;> rfl
  · rw [if_neg h]
    have : m.covers a = false := by
      rw [Bool.eq_false_iff]
      exact fun hc => h ((m.covers_iff a).1 hc)
    rw [this]

theorem lookupWrite_cons (a : Nat) (m : Mapping) (b : Bus) :
    lookupWrite a (m :: b) =
      if m.first ≤ a ∧ a ≤ m.last then m.write.getD (lookupWrite a b) else lookupWrite a b := by
  rw [lookupWrite]
  by_cases h : m.first ≤ a ∧ a ≤ m.last
  · rw [if_pos h, (m.covers_iff a).2 h]
    cases m.write <;> rfl
  · rw [if_neg h]
    have : m.covers a = false := by
      rw [Bool.eq_false_iff]
      exact fun hc => h ((m.covers_iff a).1 hc)
    rw [this]

/-- The read binding after a `Map` (R181, R183). -/
theorem Bus.readAt_cons (m : Mapping) (b : Bus) {a : Nat} (h : 0x4020 ≤ a) :
    Bus.readAt (m :: b) a =
      if m.first ≤ a ∧ a ≤ m.last then m.read.getD (Bus.readAt b a) else Bus.readAt b a := by
  simp only [Bus.readAt, if_neg (show ¬ a < 0x4020 by omega), lookupRead_cons]

/-- The write binding after a `Map` (R181, R183). -/
theorem Bus.writeAt_cons (m : Mapping) (b : Bus) {a : Nat} (h : 0x4020 ≤ a) :
    Bus.writeAt (m :: b) a =
      if m.first ≤ a ∧ a ≤ m.last then m.write.getD (Bus.writeAt b a) else Bus.writeAt b a := by
  simp only [Bus.writeAt, if_neg (show ¬ a < 0x4020 by omega), lookupWrite_cons]

/-- The system region is never rebound (R35). -/
theorem Bus.readAt_system (b : Bus) {a : Nat} (h : a < 0x4020) : Bus.readAt b a = .system := if_pos h

theorem Bus.writeAt_system (b : Bus) {a : Nat} (h : a < 0x4020) : Bus.writeAt b a = .system := if_pos h

/-! ### The base bindings (R185) -/

theorem baseBus_readPrg (c : Cartridge) {a : Nat} (h : 0x8000 ≤ a) (h' : a < 0x10000) :
    Bus.readAt (baseBus c) a = .prgWin := by
  unfold baseBus
  split
  · rw [Bus.readAt_cons _ _ (by omega), if_neg (by simp only []; omega), Bus.readAt_cons _ _ (by omega),
      if_pos (by simp only []; omega)]
    rfl
  · rw [Bus.readAt_cons _ _ (by omega), if_pos (by simp only []; omega)]
    rfl

theorem baseBus_writePrg (c : Cartridge) {a : Nat} (h : 0x8000 ≤ a) (h' : a < 0x10000) :
    Bus.writeAt (baseBus c) a = .ignore := by
  unfold baseBus
  split
  · rw [Bus.writeAt_cons _ _ (by omega), if_neg (by simp only []; omega), Bus.writeAt_cons _ _ (by omega),
      if_pos (by simp only []; omega)]
    rfl
  · rw [Bus.writeAt_cons _ _ (by omega), if_pos (by simp only []; omega)]
    rfl

/-- On every modelled board the reads of `$8000..$FFFF` go through the Prg windows (R185). -/
theorem boardTable_readPrg (c : Cartridge) {a : Nat} (h : 0x8000 ≤ a) (h' : a < 0x10000) :
    Bus.readAt (boardTable c) a = .prgWin := by
  have hb := baseBus_readPrg c h h'
  unfold boardTable
  split
  · split
    · rw [List.singleton_append, Bus.readAt_cons _ _ (by omega), if_neg (by simp only []; omega),
        Bus.readAt_cons _ _ (by omega), if_pos (by simp only []; omega)]
      exact hb
    · rw [List.nil_append, Bus.readAt_cons _ _ (by omega), if_pos (by simp only []; omega)]
      exact hb
  · rw [Bus.readAt_cons _ _ (by omega), if_pos (by simp only []; omega)]; exact hb
  · rw [Bus.readAt_cons _ _ (by omega), if_pos (by simp only []; omega)]; exact hb
  · rw [Bus.readAt_cons _ _ (by omega), if_pos (by simp only []; omega)]; exact hb
  all_goals exact hb

/-- What the writes of `$8000..$FFFF` reach on each modelled board (R282, R291, R311, R321, R331, R259). -/
def prgWriteBinding : Board → WriteBinding
  | .mmc1 => .boardWrite .mmc1
  | .uxrom => .boardWrite .uxrom
  | .cnrom => .boardWrite .cnrom
  | .axrom => .boardWrite .axrom
  | .nrom | .menu _ | .latch _ | .pattern _ => .ignore

theorem boardTable_writePrg (c : Cartridge) {a : Nat} (h : 0x8000 ≤ a) (h' : a < 0x10000) :
    Bus.writeAt (boardTable c) a = prgWriteBinding c.board := by
  have hb := baseBus_writePrg c h h'
  have hm (w : WriteBinding) (rest : Bus) :
      Bus.writeAt (⟨0x8000, 0xFFFF, none, some w⟩ :: rest) a = w := by
    rw [Bus.writeAt_cons _ _ (by omega), if_pos (by simp only []; omega)]
    rfl
  unfold boardTable prgWriteBinding
  cases c.board with
  | mmc1 =>
    simp only []
    split
    · rw [List.singleton_append, Bus.writeAt_cons _ _ (by omega), if_neg (by simp only []; omega)]
      exact hm _ _
    · exact hm _ _
  | uxrom => exact hm _ _
  | cnrom => exact hm _ _
  | axrom => exact hm _ _
  | _ => exact hb

/-- The write binding of the Prg range in a ready state. -/
theorem State.Ready.writePrg {s : State} {b : Board} (h : s.Ready b) {a : Addr} (ha : 0x8000 ≤ a.toNat) :
    s.bus.writeAt a.toNat = prgWriteBinding b := by
  rw [(h.settled h.powered).1, boardTable_writePrg _ ha (by have := a.isLt; omega), h.board]

/-- The read binding of the Prg range in a ready state. -/
theorem State.Ready.readPrg {s : State} {b : Board} (h : s.Ready b) {a : Addr} (ha : 0x8000 ≤ a.toNat) :
    s.bus.readAt a.toNat = .prgWin := by
  rw [(h.settled h.powered).1, boardTable_readPrg _ ha (by have := a.isLt; omega)]

end Sys2Proof.Machine
end

