-- ==== Sys2Proof/Laws/Codec.lean ====
section
/-! SUPPORT. The laws of the save-state codec: little-endian numbers, a chunk as bytes, reading a chunk back, the
register bytes, and that the stream takes no part in an update. -/

namespace Sys2Proof.Machine

/-! ### Little-endian numbers (R79) -/

@[simp] theorem bytes32_length (n : Nat) : (bytes32 n).length = 4 := rfl

theorem numberOf_bytes32 {n : Nat} (h : n < 2 ^ 32) : numberOf (bytes32 n) = n := by
  simp only [bytes32, numberOf, BitVec.toNat_ofNat]
  omega

/-- The bytes of one chunk (R121): tag, length, payload. -/
def chunkBytes (tag : Nat) (payload : List Byte) : List Byte :=
  bytes32 tag ++ bytes32 payload.length ++ payload

theorem chunkBytes_length (tag : Nat) (payload : List Byte) :
    (chunkBytes tag payload).length = 8 + payload.length := by
  simp [chunkBytes]
  omega

/-! ### The Saver (R390) -/

/-- Opening a chunk, writing and closing it appends the chunk. -/
theorem Saver.chunk_eq (sv : Saver) (tag : Nat) (payload : List Byte) :
    sv.chunk tag payload = ⟨sv.bytes ++ chunkBytes tag payload, sv.starts⟩ := by
  simp only [Saver.chunk, Saver.beginChunk, Saver.write, Saver.endChunk, chunkBytes]
  congr 1
  have h1 : (sv.bytes ++ bytes32 tag ++ bytes32 0 ++ payload).length - sv.bytes.length - 8
      = payload.length := by simp; omega
  have h2 : (sv.bytes ++ bytes32 tag ++ bytes32 0 ++ payload).take (sv.bytes.length + 4)
      = sv.bytes ++ bytes32 tag := by
    rw [List.append_assoc, List.take_append_of_le_length (by simp)]
    exact List.take_of_length_le (by simp)
  have h3 : (sv.bytes ++ bytes32 tag ++ bytes32 0 ++ payload).drop (sv.bytes.length + 8) = payload := by
    rw [List.drop_append_of_le_length (by simp)]
    rw [List.drop_of_length_le (by simp)]
    rfl
  rw [h1, h2, h3]
  simp

theorem Saver.bulk_eq (sv : Saver) (tag : Nat) (data : List Byte) :
    sv.bulk tag data = ⟨sv.bytes ++ chunkBytes tag (0 :: data), sv.starts⟩ := by
  rw [← Saver.chunk_eq]
  simp only [Saver.bulk, Saver.chunk, Saver.write8, Saver.write, List.append_assoc, List.singleton_append]

/-- The save stream as its chunks (R397 to R400). -/
theorem saveStream_eq (s : State) :
    saveStream s =
      (if hasRegs s.cart.board then chunkBytes tagReg (regBytes s.board) else [])
      ++ (if s.cart.hasWrk then chunkBytes tagWrk (0 :: s.ramWrk.toBytes s.cart.wrkSize) else [])
      ++ (if s.cart.chrIsRam then chunkBytes tagCrm (0 :: s.ramChr.toBytes 8192) else []) := by
  simp only [saveStream]
  split <;> split <;> split <;> simp [Saver.chunk_eq, Saver.bulk_eq, Saver.new]

/-! ### The Loader (R391) -/

/-- `Begin` at a whole chunk: its tag, with its payload as the child scope and the rest behind it. -/
theorem Loader.beginChunk_chunk {tag : Nat} {payload : List Byte} (rest : List Byte)
    (ht : tag < 2 ^ 32) (hp : payload.length < 2 ^ 32) :
    Loader.beginChunk ⟨[chunkBytes tag payload ++ rest]⟩ = .ok (some (tag, ⟨[payload, rest]⟩)) := by
  have e : chunkBytes tag payload ++ rest = bytes32 tag ++ (bytes32 payload.length ++ (payload ++ rest)) := by
    simp [chunkBytes]
  have h4 : (chunkBytes tag payload ++ rest).take 4 = bytes32 tag := by
    rw [e]; exact List.take_left' (by simp)
  have d4 : (chunkBytes tag payload ++ rest).drop 4 = bytes32 payload.length ++ (payload ++ rest) := by
    rw [e]; exact List.drop_left' (by simp)
  have h8 : ((chunkBytes tag payload ++ rest).drop 4).take 4 = bytes32 payload.length := by
    rw [d4]; exact List.take_left' (by simp)
  have d8 : (chunkBytes tag payload ++ rest).drop 8 = payload ++ rest := by
    have : (chunkBytes tag payload ++ rest).drop 8 = ((chunkBytes tag payload ++ rest).drop 4).drop 4 := by
      rw [List.drop_drop]
    rw [this, d4]; exact List.drop_left' (by simp)
  have hl : 8 ≤ (chunkBytes tag payload ++ rest).length := by
    rw [List.length_append, chunkBytes_length]; omega
  have hne : chunkBytes tag payload ++ rest ≠ [] := by
    intro h; rw [h] at hl; simp at hl
  simp only [Loader.beginChunk, Loader.current, List.headD_cons, if_neg hne, h4, h8, d8,
    numberOf_bytes32 ht, numberOf_bytes32 hp, List.tail_cons]
  rw [if_neg (by omega), if_neg (by simp)]
  simp

/-- `Begin` in a single scope. -/
theorem Loader.beginChunk_single (bs : List Byte) :
    Loader.beginChunk ⟨[bs]⟩ =
      if bs = [] then .ok none
      else if bs.length < 8 then .error .truncatedHeader
      else if (bs.drop 8).length < numberOf ((bs.drop 4).take 4) then .error .lengthExceeds
      else .ok (some (numberOf (bs.take 4),
        ⟨[(bs.drop 8).take (numberOf ((bs.drop 4).take 4)),
          (bs.drop 8).drop (numberOf ((bs.drop 4).take 4))]⟩)) := rfl

/-- `Begin` leaves less than it found. -/
theorem Loader.beginChunk_shrinks {bs : List Byte} {tag : Nat} {child : Loader}
    (h : Loader.beginChunk ⟨[bs]⟩ = .ok (some (tag, child))) :
    ∃ payload rest : List Byte, child = ⟨[payload, rest]⟩ ∧ rest.length + 8 ≤ bs.length := by
  rw [Loader.beginChunk_single] at h
  by_cases h1 : bs = []
  · rw [if_pos h1] at h; cases h
  rw [if_neg h1] at h
  by_cases h2 : bs.length < 8
  · rw [if_pos h2] at h; cases h
  rw [if_neg h2] at h
  by_cases h3 : (bs.drop 8).length < numberOf ((bs.drop 4).take 4)
  · rw [if_pos h3] at h; cases h
  rw [if_neg h3] at h
  simp only [Except.ok.injEq, Option.some.injEq, Prod.mk.injEq] at h
  obtain ⟨-, rfl⟩ := h
  exact ⟨_, _, rfl, by simp only [List.length_drop]; omega⟩

/-- The fuel of `readChunks` never runs out: any fuel beyond the stream's length gives the same. -/
theorem readChunks_fuel (c : Cartridge) {fuel fuel' : Nat} {bs : List Byte} (got : Collected)
    (h : bs.length < fuel) (h' : bs.length < fuel') :
    readChunks c fuel ⟨[bs]⟩ got = readChunks c fuel' ⟨[bs]⟩ got := by
  induction fuel generalizing fuel' bs got with
  | zero => omega
  | succ fuel ih =>
    obtain ⟨fuel', rfl⟩ : ∃ k, fuel' = k + 1 := ⟨fuel' - 1, by omega⟩
    simp only [readChunks]
    split
    · rfl
    · rfl
    · rename_i tag child hb
      obtain ⟨payload, rest, rfl, hr⟩ := Loader.beginChunk_shrinks hb
      split
      · rfl
      · split
        · rfl
        · exact ih _ (by omega) (by omega)

/-- Reading a stream from a chunk on: the chunk, then the rest. -/
theorem readChunks_chunk (c : Cartridge) {fuel tag : Nat} {payload rest : List Byte} (got : Collected)
    (ht : tag < 2 ^ 32) (h0 : tag ≠ 0) (hp : payload.length < 2 ^ 32) (hf : rest.length + 8 ≤ fuel) :
    readChunks c (fuel + 1) ⟨[chunkBytes tag payload ++ rest]⟩ got =
      match readChunk c tag ⟨[payload, rest]⟩ got with
      | .error e => .error e
      | .ok got' => readChunks c (rest.length + 1) ⟨[rest]⟩ got' := by
  rw [readChunks, Loader.beginChunk_chunk rest ht hp]
  simp only [if_neg h0]
  cases readChunk c tag ⟨[payload, rest]⟩ got with
  | error e => rfl
  | ok got' => exact readChunks_fuel c got' (by omega) (by omega)

/-- The same, over a whole stream. -/
theorem readChunks_whole (c : Cartridge) {tag : Nat} {payload rest : List Byte} (got : Collected)
    (ht : tag < 2 ^ 32) (h0 : tag ≠ 0) (hp : payload.length < 2 ^ 32) :
    readChunks c ((chunkBytes tag payload ++ rest).length + 1) ⟨[chunkBytes tag payload ++ rest]⟩ got =
      match readChunk c tag ⟨[payload, rest]⟩ got with
      | .error e => .error e
      | .ok got' => readChunks c (rest.length + 1) ⟨[rest]⟩ got' :=
  readChunks_chunk c got ht h0 hp (by rw [List.length_append, chunkBytes_length]; omega)

theorem readChunks_nil (c : Cartridge) (fuel : Nat) (got : Collected) :
    readChunks c (fuel + 1) ⟨[[]]⟩ got = .ok got := by
  rw [readChunks]
  rfl

/-- A raw bulk payload gives its bytes (R394). -/
theorem readBulk_raw (size : Nat) {data : List Byte} (rest : List (List Byte)) (h : data.length = size) :
    readBulk size ⟨(0 :: data) :: rest⟩ = .ok data := by
  simp [readBulk, Loader.read8, Loader.readBytes, Loader.current, h]

/-- A bulk payload that gives a Source's bytes, raw or under method 1 (R394). -/
theorem readBulk_of {size : Nat} {payload data : List Byte} (rest : List (List Byte))
    (h : payload = 0 :: data ∨ ∃ e, payload = 1 :: e ∧ Config.bulkDecode e = some data) (hl : data.length = size) :
    readBulk size ⟨payload :: rest⟩ = .ok data := by
  rcases h with rfl | ⟨e, rfl, hd⟩
  · exact readBulk_raw size rest hl
  · simp [readBulk, Loader.read8, Loader.readBytes, Loader.current, hd, hl]

/-- What a bulk payload gives has the Source's size (R401). -/
theorem readBulk_length {size : Nat} {ld : Loader} {bs : List Byte} (h : readBulk size ld = .ok bs) :
    bs.length = size := by
  unfold readBulk at h
  split at h
  · cases h
  · simp only [] at h
    split at h
    · split at h
      · cases h; assumption
      · cases h
    · cases h

/-! ### Register bytes -/

/-- The registers a payload gives are the board's, with legal values (R401). -/
theorem regsOfBytes_match {b : Board} {bs : List Byte} {r : BoardRegs} (h : regsOfBytes b bs = .ok r) :
    regsMatch b r := by
  unfold regsOfBytes at h
  split at h
  · cases h; trivial
  · cases h; trivial
  · split at h
    · rename_i c c0 c1 p sh n _ hl
      cases h
      simp only [mmc1Legal, Bool.and_eq_true, decide_eq_true_eq] at hl
      obtain ⟨⟨⟨-, h5⟩, h6⟩, h7⟩ := hl
      have e1 : (n.setWidth 3).toNat = n.toNat := by
        rw [BitVec.toNat_setWidth]; exact Nat.mod_eq_of_lt (by omega)
      have e2 : (sh.setWidth 5).toNat = sh.toNat := by
        rw [BitVec.toNat_setWidth]; exact Nat.mod_eq_of_lt (by omega)
      refine ⟨?_, ?_⟩
      · show (n.setWidth 3).toNat < 5
        omega
      · show (sh.setWidth 5).toNat < 2 ^ (n.setWidth 3).toNat
        rw [e1, e2]; exact h7
    · cases h
  · cases h; trivial
  · cases h; trivial
  · cases h; trivial
  · split at h
    · cases h
    · rename_i hlt
      cases h
      rintro rfl
      exact Nat.lt_of_not_le hlt
  · split at h
    · cases h
    · cases h; trivial
  · cases h

/-- The registers of a board, written and read back (R398, R401). -/
theorem regsOfBytes_regBytes {b : Board} {r : BoardRegs} (hm : modelled b = true)
    (hr : regsMatch b r) : regsOfBytes b (regBytes r) = .ok r := by
  cases b <;> cases r <;> simp only [regsMatch, modelled] at hm hr
  · rfl
  · rename_i r
    obtain ⟨h1, h2⟩ := hr
    obtain ⟨ctrl, chr0, chr1, prg, shift, count⟩ := r
    simp only at h1 h2
    simp only [regsOfBytes, regBytes, mmc1Legal, BitVec.toNat_setWidth]
    have := ctrl.isLt
    have := chr0.isLt
    have := chr1.isLt
    have := prg.isLt
    have := shift.isLt
    have := count.isLt
    have e1 : count.toNat % 2 ^ 8 = count.toNat := Nat.mod_eq_of_lt (by omega)
    have e2 : shift.toNat % 2 ^ 8 = shift.toNat := Nat.mod_eq_of_lt (by omega)
    rw [if_pos]
    · congr 2
      simp only [Mmc1Regs.mk.injEq]
      refine ⟨?_, ?_, ?_, ?_, ?_, ?_⟩ <;> (apply BitVec.eq_of_toNat_eq; simp)
    · simp only [Bool.and_eq_true, decide_eq_true_eq, e1, e2]
      exact ⟨⟨⟨⟨⟨⟨by omega, by omega⟩, by omega⟩, by omega⟩, by omega⟩, h1⟩, h2⟩
  · rfl
  · rfl
  · rfl
  · rename_i p m
    have hp : p = menu4Params := of_decide_eq_true hm
    have h4 := hr hp
    subst hp
    have : ¬ menu4Params.count ≤ m.toNat := by
      show ¬ 4 ≤ m.toNat
      omega
    simp [regsOfBytes, regBytes, this]
  all_goals exact absurd hm (by decide)

/-! ### What a parsed stream holds -/

/-- Collected chunks that fit the cartridge: registers of the board, and RAM of the Sources' sizes. -/
structure Collected.Fits (c : Cartridge) (got : Collected) : Prop where
  reg : ∀ r, got.reg = some r → regsMatch c.board r
  wrk : ∀ bs, got.wrk = some bs → bs.length = c.sourceSize .wrk
  crm : ∀ bs, got.crm = some bs → bs.length = c.sourceSize .chr

theorem readChunk_fits {c : Cartridge} {tag : Nat} {ld : Loader} {got got' : Collected} (hg : got.Fits c)
    (h : readChunk c tag ld got = .ok got') : got'.Fits c := by
  unfold readChunk at h
  split at h
  · split at h
    · cases h
    · split at h
      · rename_i r hr; cases h
        exact ⟨fun r' e => by cases e; exact regsOfBytes_match hr, hg.wrk, hg.crm⟩
      · cases h
  split at h
  · split at h
    · cases h
    · split at h
      · rename_i r hr; cases h
        exact ⟨hg.reg, fun r' e => by cases e; exact readBulk_length hr, hg.crm⟩
      · cases h
  split at h
  · split at h
    · cases h
    · split at h
      · rename_i r hr; cases h
        exact ⟨hg.reg, hg.wrk, fun r' e => by cases e; exact readBulk_length hr⟩
      · cases h
  · cases h; exact hg

theorem readChunks_fits {c : Cartridge} {fuel : Nat} {ld : Loader} {got got' : Collected} (hg : got.Fits c)
    (h : readChunks c fuel ld got = .ok got') : got'.Fits c := by
  induction fuel generalizing ld got with
  | zero => cases h; exact hg
  | succ n ih =>
    rw [readChunks] at h
    split at h
    · cases h
    · cases h; exact hg
    · split at h
      · cases h; exact hg
      · split at h
        · cases h
        · exact ih (readChunk_fits hg ‹_›) h

/-- A stream that passes the checks of R401 fits the cartridge. -/
theorem parseStream_fits {c : Cartridge} {bs : List Byte} {got : Collected} (h : parseStream c bs = .ok got) :
    got.Fits c := by
  unfold parseStream at h
  split at h
  · cases h
  · rename_i g hg
    split at h
    · cases h
    · cases h
      exact readChunks_fits ⟨(by intro _ e; cases e), (by intro _ e; cases e), (by intro _ e; cases e)⟩ hg

/-! ### The stream takes no part in an update -/

/-- The state with another stream beside the transaction. -/
def State.withStream (s : State) (bs : List Byte) : State := { s with stream := bs }

theorem mapBank_withStream (w : WinId) (size base i : Nat) (s : State) (bs : List Byte) :
    mapBank w size base i (s.withStream bs) = (mapBank w size base i s).withStream bs := by cases w <;> rfl

theorem notePpu_withStream (s : State) (bs : List Byte) :
    notePpu (s.withStream bs) = (notePpu s).withStream bs := by
  rw [notePpu_eq, notePpu_eq]
  rfl

theorem swapBank_withStream (w : WinId) (size base i : Nat) (s : State) (bs : List Byte) :
    swapBank w size base i (s.withStream bs) = (swapBank w size base i s).withStream bs := by
  unfold swapBank
  split
  · rw [notePpu_withStream, mapBank_withStream]
  · rw [mapBank_withStream]

theorem mapBanks_withStream (w : WinId) (size base : Nat) (is : List Nat) (s : State) (bs : List Byte) :
    mapBanks w size base is (s.withStream bs) = (mapBanks w size base is s).withStream bs := by
  induction is generalizing base s with
  | nil => rfl
  | cons i is ih => rw [mapBanks, mapBank_withStream, ih]; rfl

theorem setMirroring_withStream (t : Table) (s : State) (bs : List Byte) :
    setMirroring t (s.withStream bs) = (setMirroring t s).withStream bs := by
  unfold setMirroring
  split
  · rw [if_pos (by assumption)]
  · rw [if_neg (by assumption), notePpu_withStream]
    exact mapBanks_withStream .nmt 1024 0 [t.t0, t.t1, t.t2, t.t3] (emitMirroring t (notePpu s)) bs

theorem setMode_withStream (m : Mirroring) (s : State) (bs : List Byte) :
    setMode m (s.withStream bs) = (setMode m s).withStream bs := setMirroring_withStream ..

/-- A computation that commutes with the stream. -/
def StreamFree (f : State → Except Stop State) : Prop :=
  ∀ s bs, f (s.withStream bs) = (f s).map fun t => t.withStream bs

theorem swapBankChecked_streamFree (w : WinId) (size base i : Nat) :
    StreamFree (swapBankChecked w size base i) := by
  intro s bs
  unfold swapBankChecked
  split
  · rw [swapBank_withStream]; rfl
  · rfl

theorem swapBanksChecked_streamFree (w : WinId) (size base : Nat) (is : List Nat) :
    StreamFree (swapBanksChecked w size base is) := by
  intro s bs
  unfold swapBanksChecked
  split
  · split
    · rw [notePpu_withStream, mapBanks_withStream]; rfl
    · rw [mapBanks_withStream]; rfl
  · rfl

theorem evalIndex_withStream (regs : List Nat) (i : Index) (s : State) (bs : List Byte) :
    evalIndex regs i (s.withStream bs) = evalIndex regs i s := by
  induction i with
  | getBank w size base => cases w <;> rfl
  | bits hi lo i ih => simp only [evalIndex, ih]
  | op o i j ihi ihj => simp only [evalIndex, ihi, ihj]
  | choose c i j ihc ihi ihj => simp only [evalIndex, ihc, ihi, ihj]
  | _ => rfl

theorem evalIndices_withStream (regs : List Nat) (is : List Index) (s : State) (bs : List Byte) :
    evalIndices regs is (s.withStream bs) = evalIndices regs is s := by
  induction is with
  | nil => rfl
  | cons i is ih => rw [evalIndices, evalIndices, evalIndex_withStream, ih]

theorem runAction_streamFree (regs : List Nat) (act : Action) : StreamFree (runAction regs act) := by
  intro s bs
  induction act generalizing regs s with
  | swap w size base i =>
    simp only [runAction, evalIndex_withStream]
    split
    · exact swapBankChecked_streamFree _ _ _ _ s bs
    · rfl
  | swapBanks w size base is =>
    simp only [runAction, evalIndices_withStream]
    split
    · exact swapBanksChecked_streamFree _ _ _ _ s bs
    · rfl
  | mirror k i =>
    simp only [runAction, evalIndex_withStream]
    split
    · exact congrArg Except.ok (setMode_withStream ..)
    · rfl
  | setMode m => exact congrArg Except.ok (setMode_withStream ..)
  | setTable t => exact congrArg Except.ok (setMirroring_withStream ..)
  | whenCrc k a ih =>
    simp only [runAction]
    by_cases h : s.cart.crc = k
    · rw [if_pos (by exact h), if_pos h]; exact ih regs s
    · rw [if_neg (by exact h), if_neg h]; rfl
  | choose c a b iha ihb =>
    simp only [runAction, evalIndex_withStream]
    cases evalIndex regs c s with
    | ok n =>
      by_cases h : n = 0
      · simp only [if_pos h]; exact ihb regs s
      · simp only [if_neg h]; exact iha regs s
    | error e => rfl
  | both a b iha ihb =>
    rw [runAction, runAction, iha regs s]
    cases runAction regs a s with
    | ok t => exact ihb regs t
    | error e => rfl
  | nothing => rfl
  | withScanline a ih => exact ih _ (scanline s).2

theorem runActions_streamFree (regs : List Nat) (as : List Action) : StreamFree (runActions regs as) := by
  intro s bs
  induction as generalizing s with
  | nil => rfl
  | cons a as ih =>
    rw [runActions, runActions, runAction_streamFree]
    cases runAction regs a s with
    | ok t => exact ih t
    | error e => rfl

theorem mmc1Update_withStream (r : Mmc1Regs) (s : State) (bs : List Byte) :
    mmc1Update r (s.withStream bs) = (mmc1Update r s).withStream bs := by
  have hp : mmc1UpdatePrg r (s.withStream bs) = (mmc1UpdatePrg r s).withStream bs := by
    unfold mmc1UpdatePrg
    split <;> simp only [swapBank_withStream]
  have hc (u : State) : mmc1UpdateChr r (u.withStream bs) = (mmc1UpdateChr r u).withStream bs := by
    unfold mmc1UpdateChr
    split <;> simp only [swapBank_withStream]
  unfold mmc1Update mmc1UpdateMirror
  rw [hp, hc, setMode_withStream]

/-- A load's window update does not read the stream (R406). -/
theorem boardUpdate_streamFree : StreamFree boardUpdate := by
  intro s bs
  have hc : (s.withStream bs).cart = s.cart := rfl
  have hb : (s.withStream bs).board = s.board := rfl
  unfold boardUpdate
  rw [hc, hb]
  split
  · exact congrArg Except.ok (mmc1Update_withStream ..)
  · refine congrArg Except.ok ?_
    unfold uxromUpdate
    rw [swapBank_withStream, swapBank_withStream]
  · exact congrArg Except.ok (swapBank_withStream ..)
  · refine congrArg Except.ok ?_
    unfold axromUpdate
    rw [swapBank_withStream, setMode_withStream]
  · unfold menuUpdate
    rw [hb]
    split
    · exact runActions_streamFree _ _ s bs
    · rfl
  · unfold latchUpdate
    rw [hb]
    split
    · exact runActions_streamFree _ _ s bs
    · rfl
  · rfl

theorem loadRam_withStream (w : WinId) (data : Option (List Byte)) (s : State) (bs : List Byte) :
    loadRam w data (s.withStream bs) = (loadRam w data s).withStream bs := by
  cases data with
  | none => rfl
  | some data =>
    by_cases h : s.cart.writable w = true
    · simp only [loadRam]
      rw [if_pos h, if_pos (by exact h)]
      cases w <;> rfl
    · simp only [loadRam]
      rw [if_neg h, if_neg (by exact h)]

theorem applyLoad_withStream (got : Collected) (s : State) (bs : List Byte) :
    applyLoad got (s.withStream bs) = (applyLoad got s).withStream bs := by
  have h : loadRegs got.reg (s.withStream bs) = (loadRegs got.reg s).withStream bs := by
    cases got.reg <;> rfl
  rw [applyLoad, h, loadRam_withStream, loadRam_withStream]
  rfl

end Sys2Proof.Machine
end

