-- ==== Sys2Proof/Laws/Decode.lean ====
section
/-! SUPPORT. The laws of the transaction word: the fields of a packed word, a word as its fields, what the
reserved-field check admits. -/

namespace Sys2Proof

open Machine (Board)

/-! ### Fields of a packed word -/

theorem packWord_toNat {cls h : Nat} (hc : cls < 16) (hh : h < 2) (a : Addr) (d : Byte) :
    (packWord cls h a d).toNat = cls * 2 ^ 28 + h * 2 ^ 24 + a.toNat * 2 ^ 8 + d.toNat := by
  have := a.isLt
  have := d.isLt
  rw [packWord, BitVec.toNat_ofNat, Nat.mod_eq_of_lt (by omega)]

theorem packWord_cls {cls h : Nat} (hc : cls < 16) (hh : h < 2) (a : Addr) (d : Byte) :
    field (packWord cls h a d) 31 28 = cls := by
  have := a.isLt
  have := d.isLt
  rw [field, packWord_toNat hc hh]
  omega

theorem packWord_z {cls h : Nat} (hc : cls < 16) (hh : h < 2) (a : Addr) (d : Byte) :
    field (packWord cls h a d) 27 25 = 0 := by
  have := a.isLt
  have := d.isLt
  rw [field, packWord_toNat hc hh]
  omega

theorem packWord_h {cls h : Nat} (hc : cls < 16) (hh : h < 2) (a : Addr) (d : Byte) :
    field (packWord cls h a d) 24 24 = h := by
  have := a.isLt
  have := d.isLt
  rw [field, packWord_toNat hc hh]
  omega

theorem packWord_a {cls h : Nat} (hc : cls < 16) (hh : h < 2) (a : Addr) (d : Byte) :
    field (packWord cls h a d) 23 8 = a.toNat := by
  have := a.isLt
  have := d.isLt
  rw [field, packWord_toNat hc hh]
  omega

theorem packWord_d {cls h : Nat} (hc : cls < 16) (hh : h < 2) (a : Addr) (d : Byte) :
    field (packWord cls h a d) 7 0 = d.toNat := by
  have := a.isLt
  have := d.isLt
  rw [field, packWord_toNat hc hh]
  omega

/-- Two words with the same fields are the same word (R110: the fields cover all 32 bits). -/
theorem word_ext {v w : Word} (hc : field v 31 28 = field w 31 28) (hz : field v 27 25 = field w 27 25)
    (hh : field v 24 24 = field w 24 24) (ha : field v 23 8 = field w 23 8)
    (hd : field v 7 0 = field w 7 0) : v = w := by
  have := v.isLt
  have := w.isLt
  apply BitVec.eq_of_toNat_eq
  simp only [field] at *
  omega

theorem field_lt {n : Nat} (v : BitVec n) (hi lo : Nat) : field v hi lo < 2 ^ (hi + 1 - lo) :=
  Nat.mod_lt _ (Nat.two_pow_pos _)

/-- A word with `z = 0` is the packing of its fields. -/
theorem packWord_fields {w : Word} (hz : field w 27 25 = 0) :
    packWord (field w 31 28) (field w 24 24) (BitVec.ofNat 16 (field w 23 8))
      (BitVec.ofNat 8 (field w 7 0)) = w := by
  have hc := field_lt w 31 28
  have hh := field_lt w 24 24
  have ha := field_lt w 23 8
  have hd := field_lt w 7 0
  refine word_ext (packWord_cls hc hh _ _) ?_ (packWord_h hc hh _ _) ?_ ?_
  · rw [packWord_z hc hh, hz]
  · rw [packWord_a hc hh, BitVec.toNat_ofNat, Nat.mod_eq_of_lt ha]
  · rw [packWord_d hc hh, BitVec.toNat_ofNat, Nat.mod_eq_of_lt hd]

/-! ### The reserved-field check -/

/-- What the check admits (R113). -/
theorem checkFields_ok {w : Word} {hMax aMax dMax : Nat} {i j : Instr} :
    checkFields w hMax aMax dMax i = .ok j ↔
      (field w 27 25 = 0 ∧ field w 24 24 ≤ hMax ∧ field w 23 8 ≤ aMax ∧ field w 7 0 ≤ dMax) ∧ j = i := by
  unfold checkFields
  split
  · simp_all
  split
  · simp; omega
  split
  · simp; omega
  split
  · simp; omega
  · simp only [Except.ok.injEq]
    constructor
    · rintro rfl; exact ⟨by omega, rfl⟩
    · exact fun h => h.2.symm

/-- A packed word decodes by its class. -/
theorem checkFields_packWord {cls h hMax aMax dMax : Nat} {a : Addr} {d : Byte} (i : Instr) (hc : cls < 16)
    (hh : h < 2) (hhm : h ≤ hMax) (ham : a.toNat ≤ aMax) (hdm : d.toNat ≤ dMax) :
    checkFields (packWord cls h a d) hMax aMax dMax i = .ok i := by
  rw [checkFields_ok, packWord_z hc hh, packWord_h hc hh, packWord_a hc hh, packWord_d hc hh]
  exact ⟨⟨rfl, hhm, ham, hdm⟩, rfl⟩

theorem ofNat_toNat16 (a : Addr) : BitVec.ofNat 16 a.toNat = a := by simp

theorem ofNat_toNat8 (d : Byte) : BitVec.ofNat 8 d.toNat = d := by simp

/-! ### Decoding each class (R111) -/

theorem decodeClass_cpuRd (a : Addr) : decodeClass (packWord 0x1 0 a 0) = .ok (.cpuRd a) := by
  have := a.isLt
  simp only [decodeClass, packWord_cls (show 0x1 < 16 by decide) (show 0 < 2 by decide),
    packWord_a (show 0x1 < 16 by decide) (show 0 < 2 by decide), ofNat_toNat16]
  exact checkFields_packWord _ (by decide) (by decide) (by decide) (by omega) (by decide)

theorem decodeClass_cpuWr (a : Addr) (d : Byte) : decodeClass (packWord 0x2 0 a d) = .ok (.cpuWr a d) := by
  have := a.isLt
  have := d.isLt
  simp only [decodeClass, packWord_cls (show 0x2 < 16 by decide) (show 0 < 2 by decide),
    packWord_a (show 0x2 < 16 by decide) (show 0 < 2 by decide),
    packWord_d (show 0x2 < 16 by decide) (show 0 < 2 by decide), ofNat_toNat16, ofNat_toNat8]
  exact checkFields_packWord _ (by decide) (by decide) (by decide) (by omega) (by omega)

theorem decodeClass_ppuRd {a : Addr} (h : a.toNat < 0x4000) :
    decodeClass (packWord 0x3 0 a 0) = .ok (.ppuRd a) := by
  simp only [decodeClass, packWord_cls (show 0x3 < 16 by decide) (show 0 < 2 by decide),
    packWord_a (show 0x3 < 16 by decide) (show 0 < 2 by decide), ofNat_toNat16]
  exact checkFields_packWord _ (by decide) (by decide) (by decide) (by omega) (by decide)

theorem decodeClass_ppuWr {a : Addr} (d : Byte) (h : a.toNat < 0x4000) :
    decodeClass (packWord 0x4 0 a d) = .ok (.ppuWr a d) := by
  have := d.isLt
  simp only [decodeClass, packWord_cls (show 0x4 < 16 by decide) (show 0 < 2 by decide),
    packWord_a (show 0x4 < 16 by decide) (show 0 < 2 by decide),
    packWord_d (show 0x4 < 16 by decide) (show 0 < 2 by decide), ofNat_toNat16, ofNat_toNat8]
  exact checkFields_packWord _ (by decide) (by decide) (by decide) (by omega) (by omega)

/-- Everything a decoded word can be, by its class: its fields are in range and give the instruction. -/
theorem decodeClass_cases {w : Word} {i : Instr} (h : decodeClass w = .ok i) :
    encode i = w ∧ i.isClass = true ∧ i.wf = true := by
  have ha := field_lt w 23 8
  have hd := field_lt w 7 0
  have hpack (hz : field w 27 25 = 0) := packWord_fields hz
  have an : (BitVec.ofNat 16 (field w 23 8)).toNat = field w 23 8 := by
    rw [BitVec.toNat_ofNat, Nat.mod_eq_of_lt ha]
  unfold decodeClass at h
  simp only [] at h
  split at h <;> (try (rw [checkFields_ok] at h; obtain ⟨⟨hz, h1, h2, h3⟩, rfl⟩ := h)) <;>
    (try have hp := hpack hz)
  · rename_i hc
    rw [hc, show field w 24 24 = 0 by omega, show field w 7 0 = 0 by omega] at hp
    exact ⟨hp, rfl, rfl⟩
  · rename_i hc
    rw [hc, show field w 24 24 = 0 by omega] at hp
    exact ⟨hp, rfl, rfl⟩
  · rename_i hc
    rw [hc, show field w 24 24 = 0 by omega, show field w 7 0 = 0 by omega] at hp
    exact ⟨hp, rfl, by simp only [Instr.wf, inRange, an, decide_eq_true_eq]; omega⟩
  · rename_i hc
    rw [hc, show field w 24 24 = 0 by omega] at hp
    exact ⟨hp, rfl, by simp only [Instr.wf, inRange, an, decide_eq_true_eq]; omega⟩
  · rename_i hc
    rw [hc, show field w 23 8 = 0 by omega, show field w 7 0 = 0 by omega] at hp
    split
    · rename_i hh
      rw [hh] at hp
      exact ⟨hp, rfl, rfl⟩
    · rw [show field w 24 24 = 0 by omega] at hp
      exact ⟨hp, rfl, rfl⟩
  · rename_i hc
    rw [hc, show field w 24 24 = 0 by omega, show field w 23 8 = 0 by omega,
      show field w 7 0 = 0 by omega] at hp
    exact ⟨hp, rfl, rfl⟩
  · rename_i hc
    rw [hc, show field w 24 24 = 0 by omega, show field w 23 8 = 0 by omega,
      show field w 7 0 = 0 by omega] at hp
    exact ⟨hp, rfl, rfl⟩
  · cases h

/-- A row has the word of its transaction (R115, R116). -/
theorem encode_refine (b : Board) (i : Instr) : encode (refine b i) = encode i := by
  cases i <;> simp only [refine, refinePrgWrite, refineMmc1, refinePpuRd, refinePpuWr] <;>
    (repeat' split) <;> rfl

end Sys2Proof
end

