-- ==== Sys2Proof/Laws/Handlers.lean ====
section
/-! SUPPORT. What a handler, an update and a `SubReset` can do, said once: each is a chain of a few basic
moves, so that a relation closed under the moves holds between the state before and after. -/

namespace Sys2Proof.Machine

/-- A relation between states that the moves of an `Update` keep: page changes at admitted sizes, the
`PpuUpdate` note, a mirroring call, a scanline draw. -/
structure WindowClosed (P : State → State → Prop) : Prop where
  refl : ∀ s, P s s
  trans : ∀ {s t u}, P s t → P t u → P s u
  map : ∀ {w size base i s}, size ∈ swapSizes → P s (mapBank w size base i s)
  note : ∀ s, P s (notePpu s)
  mirror : ∀ t s, P s (setMirroring t s)
  draw : ∀ s : State, P s { s with draws := s.draws + 1 }

/-- The moves of a write handler: those of an update, a register write, a WRK byte. -/
structure WriteClosed (P : State → State → Prop) : Prop extends WindowClosed P where
  board : ∀ (s : State) b, P s { s with board := b }
  wrk : ∀ o v s, P s (writeBM .wrk o v s)

/-- The moves of a `SubReset`: those of an update, a register write, a `Map`. -/
structure ResetClosed (P : State → State → Prop) : Prop extends WindowClosed P where
  board : ∀ (s : State) b, P s { s with board := b }
  bus : ∀ (s : State) b, P s { s with bus := b }

section
variable {P : State → State → Prop}

/-! ### Swaps -/

theorem WindowClosed.swap (h : WindowClosed P) {w : WinId} {size : Nat} (base i : Nat) (s : State)
    (hs : size ∈ swapSizes) : P s (swapBank w size base i s) := by
  unfold swapBank
  split
  · exact h.trans (h.note s) (h.map hs)
  · exact h.map hs

theorem WindowClosed.maps (h : WindowClosed P) {w : WinId} {size base : Nat} {is : List Nat} {s : State}
    (hs : wellFormedSwaps w size base is = true) : P s (mapBanks w size base is s) := by
  induction is generalizing base s with
  | nil => exact h.refl s
  | cons i is ih =>
    rw [wellFormedSwaps, Bool.and_eq_true] at hs
    exact h.trans (h.map (wellFormedSwap_mem hs.1)) (ih hs.2)

theorem WindowClosed.swapChecked (h : WindowClosed P) {w : WinId} {size base i : Nat} {s t : State}
    (ht : swapBankChecked w size base i s = .ok t) : P s t := by
  unfold swapBankChecked at ht
  split at ht
  · cases ht
    exact h.swap _ _ _ (wellFormedSwap_mem ‹_›)
  · cases ht

theorem WindowClosed.swapsChecked (h : WindowClosed P) {w : WinId} {size base : Nat} {is : List Nat}
    {s t : State} (ht : swapBanksChecked w size base is s = .ok t) : P s t := by
  unfold swapBanksChecked at ht
  split at ht
  · cases ht
    split
    · exact h.trans (h.note s) (h.maps ‹_›)
    · exact h.maps ‹_›
  · cases ht

theorem WindowClosed.mode (h : WindowClosed P) (m : Mirroring) (s : State) : P s (setMode m s) :=
  h.mirror _ s

theorem WindowClosed.helper (h : WindowClosed P) (k : MirrorHelper) (d : Nat) (s : State) :
    P s (runHelper k d s) := h.mode _ s

/-! ### Templates -/

theorem WindowClosed.action (h : WindowClosed P) {regs : List Nat} {act : Action} {s t : State}
    (ht : runAction regs act s = .ok t) : P s t := by
  induction act generalizing regs s t with
  | swap w size base i =>
    simp only [runAction] at ht
    split at ht
    · exact h.swapChecked ht
    · cases ht
  | swapBanks w size base is =>
    simp only [runAction] at ht
    split at ht
    · exact h.swapsChecked ht
    · cases ht
  | mirror k i =>
    simp only [runAction] at ht
    split at ht
    · cases ht; exact h.helper ..
    · cases ht
  | setMode m => cases ht; exact h.mode ..
  | setTable tb => cases ht; exact h.mirror ..
  | whenCrc k a ih =>
    simp only [runAction] at ht
    split at ht
    · exact ih ht
    · cases ht; exact h.refl s
  | choose c a b iha ihb =>
    simp only [runAction] at ht
    split at ht
    · split at ht
      · exact ihb ht
      · exact iha ht
    · cases ht
  | both a b iha ihb =>
    simp only [runAction] at ht
    split at ht
    · exact h.trans (iha ‹_›) (ihb ht)
    · cases ht
  | nothing => cases ht; exact h.refl s
  | withScanline a ih => exact h.trans (h.draw s) (ih ht)

theorem WindowClosed.actions (h : WindowClosed P) {regs : List Nat} {as : List Action} {s t : State}
    (ht : runActions regs as s = .ok t) : P s t := by
  induction as generalizing s t with
  | nil => cases ht; exact h.refl s
  | cons a as ih =>
    simp only [runActions] at ht
    split at ht
    · exact h.trans (h.action ‹_›) (ih ht)
    · cases ht

theorem WindowClosed.latchUpdate (h : WindowClosed P) {p : LatchParams} {s t : State}
    (ht : latchUpdate p s = .ok t) : P s t := by
  unfold Machine.latchUpdate at ht
  split at ht
  · exact h.actions ht
  · cases ht; exact h.refl s

theorem WindowClosed.menuUpdate (h : WindowClosed P) {p : MenuParams} {s t : State}
    (ht : menuUpdate p s = .ok t) : P s t := by
  unfold Machine.menuUpdate at ht
  split at ht
  · exact h.actions ht
  · cases ht; exact h.refl s

/-! ### The modelled boards -/

theorem WindowClosed.mmc1Prg (h : WindowClosed P) (r : Mmc1Regs) (s : State) : P s (mmc1UpdatePrg r s) := by
  unfold mmc1UpdatePrg
  split
  · exact h.trans (h.swap _ _ _ (by decide)) (h.swap _ _ _ (by decide))
  · exact h.trans (h.swap _ _ _ (by decide)) (h.swap _ _ _ (by decide))
  · exact h.swap _ _ _ (by decide)

theorem WindowClosed.mmc1Chr (h : WindowClosed P) (r : Mmc1Regs) (s : State) : P s (mmc1UpdateChr r s) := by
  unfold mmc1UpdateChr
  split
  · exact h.swap _ _ _ (by decide)
  · exact h.trans (h.swap _ _ _ (by decide)) (h.swap _ _ _ (by decide))

theorem WindowClosed.mmc1All (h : WindowClosed P) (r : Mmc1Regs) (s : State) : P s (mmc1Update r s) :=
  h.trans (h.mmc1Prg r s) (h.trans (h.mmc1Chr r _) (h.mode _ _))

theorem WindowClosed.uxrom (h : WindowClosed P) (v : Byte) (s : State) : P s (uxromUpdate v s) :=
  h.trans (h.swap _ _ _ (by decide)) (h.swap _ _ _ (by decide))

theorem WindowClosed.cnrom (h : WindowClosed P) (v : Byte) (s : State) : P s (cnromUpdate v s) :=
  h.swap _ _ _ (by decide)

theorem WindowClosed.axrom (h : WindowClosed P) (v : Byte) (s : State) : P s (axromUpdate v s) :=
  h.trans (h.swap _ _ _ (by decide)) (h.mode _ _)

/-- Everything `Update` can do (R211, R406). -/
theorem WindowClosed.update (h : WindowClosed P) {s t : State} (ht : boardUpdate s = .ok t) : P s t := by
  unfold boardUpdate at ht
  split at ht
  · cases ht; exact h.mmc1All ..
  · cases ht; exact h.uxrom ..
  · cases ht; exact h.cnrom ..
  · cases ht; exact h.axrom ..
  · exact h.menuUpdate ht
  · exact h.latchUpdate ht
  · cases ht; exact h.refl s

/-- Everything a write to MMC1's serial port can do (R292 to R296). -/
theorem WriteClosed.mmc1 (h : WriteClosed P) (a : Addr) (e : Byte) (s : State) : P s (mmc1Write a e s) := by
  unfold mmc1Write
  split
  · unfold mmc1Row
    split
    · exact h.trans (h.board s _) (h.mmc1Prg ..)
    split
    · simp only [mmc1ShiftControl]
      split
      · exact h.board ..
      · exact h.trans (h.board s _) (h.mmc1All ..)
    split
    · simp only [mmc1ShiftChr0]
      split
      · exact h.board ..
      · exact h.trans (h.board s _) (h.mmc1Chr ..)
    split
    · simp only [mmc1ShiftChr1]
      split
      · exact h.board ..
      · exact h.trans (h.board s _) (h.mmc1Chr ..)
    · simp only [mmc1ShiftPrg]
      split
      · exact h.board ..
      · exact h.trans (h.board s _) (h.mmc1Prg ..)
  · exact h.refl s

theorem WriteClosed.latchData (h : WriteClosed P) {e : Byte} {s t : State} (ht : latchData e s = .ok t) :
    P s t := by
  unfold Machine.latchData at ht
  split at ht
  · split at ht
    · exact h.trans (h.board s _) (h.toWindowClosed.latchUpdate ht)
    · cases ht; exact h.refl s
  · cases ht; exact h.refl s

/-- Everything a board's write function can do (R180). -/
theorem WriteClosed.boardWrite (h : WriteClosed P) {f : WriteFn} {a : Addr} {e : Byte} {s t : State}
    (ht : boardWrite f a e s = .ok t) : P s t := by
  cases f with
  | mmc1 => cases ht; exact h.mmc1 ..
  | mmc1Wrk =>
    cases ht
    unfold mmc1WrkWrite
    split
    · exact h.refl s
    · exact h.wrk ..
  | uxrom =>
    cases ht
    unfold uxromWrite
    split
    · exact h.trans (h.board s _) (h.swap _ _ _ (by decide))
    · exact h.refl s
  | cnrom =>
    cases ht
    unfold cnromWrite
    split
    · exact h.trans (h.board s _) (h.cnrom ..)
    · exact h.refl s
  | axrom =>
    cases ht
    unfold axromWrite
    split
    · exact h.trans (h.board s _) (h.axrom ..)
    · exact h.refl s
  | latchSelect =>
    cases ht
    unfold latchSelect
    split
    · exact h.board ..
    · exact h.refl s
  | latchData => exact h.latchData ht
  | actions as => exact h.actions ht

/-- Everything a write binding can do (R180, R191). -/
theorem WriteClosed.writeBound (h : WriteClosed P) {w : WriteBinding} {a : Addr} {d e : Byte} {s t : State}
    (ht : writeBound w a d e s = .ok t) : P s t := by
  cases w with
  | system => cases ht; exact h.refl s
  | ignore => cases ht; exact h.refl s
  | wrkWin => cases ht; exact h.wrk ..
  | prgSwap size base => exact h.swapChecked ht
  | chrSwap size base => exact h.swapChecked ht
  | mirrorSwap k => cases ht; exact h.helper ..
  | boardWrite f => exact h.boardWrite ht

/-! ### `SubReset` -/

theorem ResetClosed.maps (h : ResetClosed P) {ms : List Mapping} {s t : State}
    (ht : mapRanges ms s = .ok t) : P s t := by
  induction ms generalizing s t with
  | nil => cases ht; exact h.refl s
  | cons m ms ih =>
    simp only [mapRanges, mapRange] at ht
    split at ht
    · rename_i u hu
      split at hu
      · cases hu; exact h.trans (h.bus s _) (ih ht)
      · cases hu
    · cases ht

/-- Everything a `SubReset` can do (R214). -/
theorem ResetClosed.subReset (h : ResetClosed P) {hard : Bool} {s t : State}
    (ht : subReset hard s = .ok t) : P s t := by
  unfold Machine.subReset at ht
  split at ht
  · cases ht; exact h.refl s
  · refine h.trans ?_ (h.update ht)
    unfold mmc1Install
    simp only []
    split
    · exact h.trans (h.bus s _) (h.bus _ _)
    · exact h.bus s _
  · exact h.trans (h.bus s _) (h.update ht)
  · exact h.trans (h.bus s _) (h.update ht)
  · exact h.trans (h.bus s _) (h.update ht)
  · unfold menuSubReset at ht
    split at ht
    · exact h.trans (h.board s _) (h.toWindowClosed.menuUpdate ht)
    · cases ht; exact h.refl s
  · unfold latchSubReset at ht
    split at ht
    · exact h.trans (h.maps ‹_›) (h.toWindowClosed.latchUpdate ht)
    · cases ht
  · exact h.maps ht

end

/-! ### The frames of a handler and of a `SubReset` -/

/-- A state that differs from another in what a write handler may change: windows, events, registers, WRK
bytes, and the draws of a template. -/
def Handled (s t : State) : Prop :=
  ∃ p c n w e b m d,
    t = { s with prg := p, chr := c, nmt := n, wrk := w, events := e, board := b, ramWrk := m, draws := d }

theorem OnlyWindows.handled {s t : State} (h : OnlyWindows s t) : Handled s t := by
  obtain ⟨p, c, n, w, e, rfl⟩ := h
  exact ⟨p, c, n, w, e, s.board, s.ramWrk, s.draws, rfl⟩

theorem handled_closed : WriteClosed Handled where
  refl s := (OnlyWindows.refl s).handled
  trans h k := by
    obtain ⟨_, _, _, _, _, _, _, _, rfl⟩ := h
    obtain ⟨p, c, n, w, e, b, m, d, rfl⟩ := k
    exact ⟨p, c, n, w, e, b, m, d, rfl⟩
  map _ := (mapBank_onlyWindows ..).handled
  note s := (notePpu_onlyWindows s).handled
  mirror t s := (setMirroring_onlyWindows t s).handled
  draw s := ⟨s.prg, s.chr, s.nmt, s.wrk, s.events, s.board, s.ramWrk, _, rfl⟩
  board s b := ⟨s.prg, s.chr, s.nmt, s.wrk, s.events, b, s.ramWrk, s.draws, rfl⟩
  wrk o v s := by
    unfold writeBM
    split
    · exact (OnlyWindows.refl s).handled
    · exact ⟨s.prg, s.chr, s.nmt, s.wrk, s.events, s.board, _, s.draws, rfl⟩

/-- A state that differs from another in what an update may change: windows, events, and the draws of a
template. -/
def Updated (s t : State) : Prop :=
  ∃ p c n w e d, t = { s with prg := p, chr := c, nmt := n, wrk := w, events := e, draws := d }

theorem OnlyWindows.updated {s t : State} (h : OnlyWindows s t) : Updated s t := by
  obtain ⟨p, c, n, w, e, rfl⟩ := h
  exact ⟨p, c, n, w, e, s.draws, rfl⟩

theorem updated_closed : WindowClosed Updated where
  refl s := (OnlyWindows.refl s).updated
  trans h k := by
    obtain ⟨_, _, _, _, _, _, rfl⟩ := h
    obtain ⟨p, c, n, w, e, d, rfl⟩ := k
    exact ⟨p, c, n, w, e, d, rfl⟩
  map _ := (mapBank_onlyWindows ..).updated
  note s := (notePpu_onlyWindows s).updated
  mirror t s := (setMirroring_onlyWindows t s).updated
  draw s := ⟨s.prg, s.chr, s.nmt, s.wrk, s.events, _, rfl⟩

/-- A state that differs from another in what a `SubReset` may change: the table, windows, events, registers,
and the draws of a template. -/
def Remapped (s t : State) : Prop :=
  ∃ u p c n w e b d,
    t = { s with bus := u, prg := p, chr := c, nmt := n, wrk := w, events := e, board := b, draws := d }

theorem OnlyWindows.remapped {s t : State} (h : OnlyWindows s t) : Remapped s t := by
  obtain ⟨p, c, n, w, e, rfl⟩ := h
  exact ⟨s.bus, p, c, n, w, e, s.board, s.draws, rfl⟩

theorem remapped_closed : ResetClosed Remapped where
  refl s := (OnlyWindows.refl s).remapped
  trans h k := by
    obtain ⟨_, _, _, _, _, _, _, _, rfl⟩ := h
    obtain ⟨u, p, c, n, w, e, b, d, rfl⟩ := k
    exact ⟨u, p, c, n, w, e, b, d, rfl⟩
  map _ := (mapBank_onlyWindows ..).remapped
  note s := (notePpu_onlyWindows s).remapped
  mirror t s := (setMirroring_onlyWindows t s).remapped
  draw s := ⟨s.bus, s.prg, s.chr, s.nmt, s.wrk, s.events, s.board, _, rfl⟩
  board s b := ⟨s.bus, s.prg, s.chr, s.nmt, s.wrk, s.events, b, s.draws, rfl⟩
  bus s b := ⟨b, s.prg, s.chr, s.nmt, s.wrk, s.events, s.board, s.draws, rfl⟩

/-! ### Registers under a handler -/

theorem Updated.board {s t : State} (h : Updated s t) : t.board = s.board := by
  obtain ⟨_, _, _, _, _, _, rfl⟩ := h
  rfl

theorem Updated.cart {s t : State} (h : Updated s t) : t.cart = s.cart := by
  obtain ⟨_, _, _, _, _, _, rfl⟩ := h
  rfl

theorem Handled.cart {s t : State} (h : Handled s t) : t.cart = s.cart := by
  obtain ⟨_, _, _, _, _, _, _, _, rfl⟩ := h
  rfl

/-- The serial step keeps MMC1's registers legal (R290, R293). -/
theorem mmc1Shift_legal (e : Byte) {r : Mmc1Regs} (h : r.legal) : (mmc1Shift e r).1.legal := by
  obtain ⟨hc, hs⟩ := h
  unfold mmc1Shift
  split
  · rename_i h4
    have hb : field e 0 0 < 2 := Nat.mod_lt _ (by decide)
    have hn : (r.count + 1).toNat = r.count.toNat + 1 := by
      rw [BitVec.toNat_add]
      exact Nat.mod_eq_of_lt (by simp; omega)
    refine ⟨by rw [hn]; omega, ?_⟩
    rw [hn, BitVec.toNat_or, BitVec.toNat_ofNat]
    refine Nat.or_lt_two_pow (lt_of_lt_of_le hs (Nat.pow_le_pow_right (by decide) (by omega)))
      (lt_of_le_of_lt (Nat.mod_le _ _) ?_)
    rw [Nat.shiftLeft_eq, Nat.pow_succ, Nat.mul_comm]
    exact Nat.mul_lt_mul_of_pos_left hb (Nat.two_pow_pos _)
  · exact ⟨Nat.zero_lt_succ 4, Nat.one_pos⟩

/-- A write to MMC1's serial port leaves legal registers of MMC1 (R290, R292 to R296). -/
theorem mmc1Row_regs (a : Addr) (e : Byte) {r : Mmc1Regs} (s : State) (h : r.legal) :
    ∃ r' : Mmc1Regs, r'.legal ∧ (mmc1Row a e r s).board = .mmc1 r' := by
  have hl := mmc1Shift_legal e h
  have after {u : State} {r' : Mmc1Regs} (hu : Updated { s with board := .mmc1 r' } u) (hr : r'.legal) :
      ∃ r' : Mmc1Regs, r'.legal ∧ u.board = .mmc1 r' := ⟨r', hr, hu.board⟩
  unfold mmc1Row
  split
  · exact after (updated_closed.mmc1Prg ..) ⟨Nat.zero_lt_succ 4, Nat.one_pos⟩
  split
  · unfold mmc1ShiftControl
    simp only []
    split
    · exact ⟨_, hl, rfl⟩
    · exact after (updated_closed.mmc1All ..) hl
  split
  · unfold mmc1ShiftChr0
    simp only []
    split
    · exact ⟨_, hl, rfl⟩
    · exact after (updated_closed.mmc1Chr ..) hl
  split
  · unfold mmc1ShiftChr1
    simp only []
    split
    · exact ⟨_, hl, rfl⟩
    · exact after (updated_closed.mmc1Chr ..) hl
  · unfold mmc1ShiftPrg
    simp only []
    split
    · exact ⟨_, hl, rfl⟩
    · exact after (updated_closed.mmc1Prg ..) hl

/-- The registers a write function of the board's own leaves are the board's; on another board's registers it
changes none (assumption 25). -/
theorem boardWrite_regs {f : WriteFn} {a : Addr} {e : Byte} {s t : State}
    (hr : regsMatch s.cart.board s.board) (ht : boardWrite f a e s = .ok t) :
    regsMatch t.cart.board t.board := by
  have hc : t.cart = s.cart := (handled_closed.boardWrite ht).cart
  rw [hc]
  have kept (h : t.board = s.board) : regsMatch s.cart.board t.board := by rw [h]; exact hr
  cases f with
  | mmc1 =>
    cases ht
    unfold mmc1Write
    split
    · rename_i r hg
      cases hb : s.cart.board <;> rw [hb, hg] at hr <;> try exact hr.elim
      obtain ⟨r', hl, he⟩ := mmc1Row_regs a e s hr
      rw [he]
      exact hl
    · exact hr
  | mmc1Wrk =>
    cases ht
    unfold mmc1WrkWrite writeBM
    split
    · exact hr
    · split
      · exact hr
      · exact hr
  | uxrom =>
    cases ht
    unfold uxromWrite
    split
    · rename_i v hg
      have hu := (updated_closed.swap (w := .prg) 0 e.toNat { s with board := .uxrom e }
        (by decide : 16384 ∈ swapSizes)).board
      rw [hu]
      cases hb : s.cart.board <;> rw [hb, hg] at hr <;> first | exact hr.elim | trivial
    · exact hr
  | cnrom =>
    cases ht
    unfold cnromWrite
    split
    · rename_i v hg
      rw [(updated_closed.cnrom e { s with board := .cnrom e }).board]
      cases hb : s.cart.board <;> rw [hb, hg] at hr <;> first | exact hr.elim | trivial
    · exact hr
  | axrom =>
    cases ht
    unfold axromWrite
    split
    · rename_i v hg
      rw [(updated_closed.axrom e { s with board := .axrom e }).board]
      cases hb : s.cart.board <;> rw [hb, hg] at hr <;> first | exact hr.elim | trivial
    · exact hr
  | latchSelect =>
    cases ht
    unfold latchSelect
    split
    · rename_i l sub hg
      cases hb : s.cart.board <;> rw [hb, hg] at hr <;> first | exact hr.elim | trivial
    · exact hr
  | latchData =>
    unfold boardWrite latchData at ht
    simp only [] at ht
    split at ht
    · rename_i p l sub hb hg
      split at ht
      · rw [(updated_closed.latchUpdate ht).board, hb]
        trivial
      · cases ht; exact hr
    · cases ht; exact hr
  | actions as => exact kept (updated_closed.actions ht).board

/-! ### Pages under a closed relation -/

/-- All four window sets have well-formed pages. -/
def AllPagesWf (s : State) : Prop := ∀ w, pagesWf s.cart w (s.pages w)

/-- The configuration is kept, and well-formed pages stay so. -/
def KeepsPages (s t : State) : Prop := t.cart = s.cart ∧ (AllPagesWf s → AllPagesWf t)

theorem KeepsPages.of_pages {s t : State} (hc : t.cart = s.cart) (hp : ∀ w, t.pages w = s.pages w) :
    KeepsPages s t := ⟨hc, fun h w => by rw [hc, hp]; exact h w⟩

theorem mapBank_keepsPages {w : WinId} {size base i : Nat} {s : State} (hs : size ∈ swapSizes) :
    KeepsPages s (mapBank w size base i s) :=
  ⟨(mapBank_onlyWindows ..).cart, fun h v => by
    rw [(mapBank_onlyWindows ..).cart]; exact mapBank_pagesWf hs (h v)⟩

theorem KeepsPages.trans {s t u : State} (h : KeepsPages s t) (k : KeepsPages t u) : KeepsPages s u :=
  ⟨k.1.trans h.1, fun hs => k.2 (h.2 hs)⟩

theorem setNmt_keepsPages (t : Table) (s : State) : KeepsPages s (setNmt t s) := by
  have h : 1024 ∈ swapSizes := by decide
  exact (mapBank_keepsPages h).trans ((mapBank_keepsPages h).trans
    ((mapBank_keepsPages h).trans (mapBank_keepsPages h)))

theorem keepsPages_window : WindowClosed KeepsPages where
  refl _ := ⟨rfl, id⟩
  trans h k := h.trans k
  map hs := mapBank_keepsPages hs
  note s := .of_pages (by simp) (notePpu_pages s)
  mirror t s := by
    unfold setMirroring
    split
    · exact ⟨rfl, id⟩
    · refine KeepsPages.trans (.of_pages (t := emitMirroring t (notePpu s)) ?_ ?_) (setNmt_keepsPages ..)
      · simp [emitMirroring]
      · intro w; rw [← notePpu_pages s w]; cases w <;> rfl
  draw s := .of_pages rfl fun w => by cases w <;> rfl

theorem keepsPages_write : WriteClosed KeepsPages where
  toWindowClosed := keepsPages_window
  board s b := .of_pages rfl fun w => by cases w <;> rfl
  wrk o v s := by
    unfold writeBM
    split
    · exact ⟨rfl, id⟩
    · exact .of_pages (by simp) fun w => by simp

theorem keepsPages_reset : ResetClosed KeepsPages where
  toWindowClosed := keepsPages_window
  board s b := .of_pages rfl fun w => by cases w <;> rfl
  bus s b := .of_pages rfl fun w => by cases w <;> rfl

/-! ### RAM under a closed relation -/

/-- Every RAM is in canonical form and lies inside its Source (R36). -/
def RamsWf (s : State) : Prop := ∀ w, ramWf s.cart w (s.ram w)

/-- The configuration is kept, and well-formed RAM stays so. -/
def KeepsRams (s t : State) : Prop := t.cart = s.cart ∧ (RamsWf s → RamsWf t)

theorem KeepsRams.of_ram {s t : State} (hc : t.cart = s.cart) (h : ∀ w, t.ram w = s.ram w) : KeepsRams s t :=
  ⟨hc, fun hs w => by rw [hc, h]; exact hs w⟩

theorem OnlyWindows.keepsRams {s t : State} (h : OnlyWindows s t) : KeepsRams s t := by
  obtain ⟨_, _, _, _, _, rfl⟩ := h
  exact .of_ram rfl fun w => by cases w <;> rfl

/-- Other contents that lie inside a writable Source keep the RAM well-formed. -/
theorem setRam_keepsRams {w : WinId} {m : Memory} {s : State} (hw : s.cart.writable w = true)
    (hm : RamsWf s → ramWf s.cart w m) : KeepsRams s (s.setRam w m) := by
  have hc : (s.setRam w m).cart = s.cart := by cases w <;> rfl
  refine ⟨hc, fun hs u => ?_⟩
  rw [hc]
  by_cases hu : u = w
  · subst hu
    rw [show (s.setRam u m).ram u = m by cases u <;> first | rfl | cases hw]
    exact hm hs
  · rw [show (s.setRam w m).ram u = s.ram u by cases w <;> cases u <;> first | rfl | exact absurd rfl hu]
    exact hs u

theorem writeBM_keepsRams (w : WinId) (o : Nat) (v : Byte) (s : State) : KeepsRams s (writeBM w o v s) := by
  by_cases h : s.cart.sourceSize w = 0 ∨ s.cart.writable w = false
  · rw [writeBM_ignored h]
    exact ⟨rfl, id⟩
  · rw [not_or] at h
    have hw : s.cart.writable w = true := by simpa using h.2
    rw [writeBM_store h.1 hw]
    refine setRam_keepsRams hw fun hs => ⟨Memory.write_wf (hs w).1 _ _, Memory.write_within (hs w).2 ?_ _⟩
    rw [ramSize_of_writable hw]
    exact sourceOffset_lt h.1

theorem keepsRams_window : WindowClosed KeepsRams where
  refl _ := ⟨rfl, id⟩
  trans h k := ⟨k.1.trans h.1, fun hs => k.2 (h.2 hs)⟩
  map _ := OnlyWindows.keepsRams (mapBank_onlyWindows ..)
  note s := OnlyWindows.keepsRams (notePpu_onlyWindows s)
  mirror t s := OnlyWindows.keepsRams (setMirroring_onlyWindows t s)
  draw s := .of_ram rfl fun w => by cases w <;> rfl

theorem keepsRams_write : WriteClosed KeepsRams where
  toWindowClosed := keepsRams_window
  board s b := .of_ram rfl fun w => by cases w <;> rfl
  wrk o v s := writeBM_keepsRams ..

theorem keepsRams_reset : ResetClosed KeepsRams where
  toWindowClosed := keepsRams_window
  board s b := .of_ram rfl fun w => by cases w <;> rfl
  bus s b := .of_ram rfl fun w => by cases w <;> rfl

/-! ### Events under a closed relation -/

/-- The events of a transaction (R230, R231): none, or one `PpuUpdate` and then mirroring calls. -/
def EventShape (es : List Event) : Prop :=
  es = [] ∨ ∃ ts : List Table, es = .ppuUpdate :: ts.map .ppuSetMirroring

theorem EventShape.note {s : State} (h : EventShape s.events) : EventShape (notePpu s).events := by
  unfold notePpu
  split
  · exact .inr ⟨[], rfl⟩
  · exact h

theorem mapBank_events (w : WinId) (size base i : Nat) (s : State) :
    (mapBank w size base i s).events = s.events := by cases w <;> rfl

theorem mapBanks_events (w : WinId) (size base : Nat) (is : List Nat) (s : State) :
    (mapBanks w size base is s).events = s.events := by
  induction is generalizing base s with
  | nil => rfl
  | cons i is ih => exact (ih ..).trans (mapBank_events ..)

theorem eventShape_write : WriteClosed fun s t => EventShape s.events → EventShape t.events where
  refl _ := id
  trans h k hs := k (h hs)
  map _ hs := by rwa [mapBank_events]
  note _ := EventShape.note
  mirror t s hs := by
    unfold setMirroring
    split
    · exact hs
    · rw [setNmt, mapBanks_events]
      rcases hs.note with h | ⟨ts, h⟩
      · exact absurd h (notePpu_events_ne_nil s)
      · exact .inr ⟨ts ++ [t], by simp [emitMirroring, h]⟩
  draw _ := id
  board _ _ := id
  wrk o v s hs := by
    unfold writeBM
    split
    · exact hs
    · simpa using hs

end Sys2Proof.Machine
end

