-- ==== Sys2Proof/Laws/PerInstr.lean ====
section
/-! SUPPORT. Laws that hold of every instruction, one lemma per constructor. `TableRow`: the word of a
well-formed instruction matches the `match` and `mask` of its row in spec/opcode_table.json. -/

namespace Sys2Proof.Laws

/-- A word matches a pattern when it agrees with it on every bit of the mask. -/
theorem and_mask_eq {w m v : Word} (hv : v &&& m = v)
    (h : ∀ k, m.getLsbD k = true → w.getLsbD k = v.getLsbD k) : w &&& m = v := by
  rw [← hv]
  apply BitVec.eq_of_getLsbD_eq
  intro k _
  rw [BitVec.getLsbD_and, BitVec.getLsbD_and]
  cases hm : m.getLsbD k
  · simp
  · rw [h k hm]

/-- A mask of the bits `n .. 31` and `e .. 7`, which every row's mask is: the two parts agree as numbers. -/
theorem matches_of_parts {w m v : Word} (n e : Nat) (hv : v &&& m = v)
    (hm : ∀ k < 32, m.getLsbD k = true → n ≤ k ∨ (e ≤ k ∧ k < 8))
    (hi : w.toNat / 2 ^ n = v.toNat / 2 ^ n) (lo : w.toNat % 256 / 2 ^ e = v.toNat % 256 / 2 ^ e) :
    w &&& m = v := by
  refine and_mask_eq hv fun k hk => ?_
  have k32 : k < 32 := BitVec.lt_of_getLsbD hk
  rw [BitVec.getLsbD, BitVec.getLsbD]
  rcases hm k k32 hk with h | ⟨h, h8⟩
  · have := congrArg (fun x => x.testBit (k - n)) hi
    simpa [Nat.testBit_div_two_pow, Nat.sub_add_cancel h] using this
  · have := congrArg (fun x => x.testBit (k - e)) lo
    rw [show (256 : Nat) = 2 ^ 8 from rfl] at this
    simpa only [Nat.testBit_div_two_pow, Nat.sub_add_cancel h, Nat.testBit_mod_two_pow, h8, decide_true,
      Bool.true_and] using this

/-- A packed word matches a pattern when its number agrees with the pattern on the two parts of the mask. -/
theorem packWord_matches {cls : Nat} (hc : cls < 16) (a : Addr) (d : Byte) {m v : Word} (n e : Nat)
    (hv : v &&& m = v) (hm : ∀ k < 32, m.getLsbD k = true → n ≤ k ∨ (e ≤ k ∧ k < 8))
    (hi : (cls * 2 ^ 28 + a.toNat * 2 ^ 8 + d.toNat) / 2 ^ n = v.toNat / 2 ^ n)
    (lo : d.toNat / 2 ^ e = v.toNat % 256 / 2 ^ e) : packWord cls 0 a d &&& m = v := by
  have := d.isLt
  refine matches_of_parts n e hv hm ?_ ?_
  · rw [packWord_toNat hc (by decide), ← hi]
    simp
  · rw [packWord_toNat hc (by decide), ← lo]
    congr 1
    omega

/-- The word of a well-formed instruction matches its row of the opcode table (R115, R116). -/
def TableRow.Statement (i : Instr) : Prop := i.wf = true → encode i &&& i.pattern.2 = i.pattern.1

theorem TableRow.cpuRd (a : Addr) : TableRow.Statement (.cpuRd a) := by
  intro _
  have := a.isLt
  refine packWord_matches (cls := 0x1) (m := 0xFF0000FF) (v := 0x10000000) (by decide) a 0 24 0 (by decide)
    (by decide) ?_ ?_ <;> simp <;> omega

theorem TableRow.cpuWr (a : Addr) (d : Byte) : TableRow.Statement (.cpuWr a d) := by
  intro _
  have := a.isLt
  have := d.isLt
  refine packWord_matches (cls := 0x2) (m := 0xFF000000) (v := 0x20000000) (by decide) a d 24 8 (by decide)
    (by decide) ?_ ?_ <;> simp <;> omega

theorem TableRow.ppuRd (a : Addr) : TableRow.Statement (.ppuRd a) := by
  intro hw
  have := a.isLt
  simp [Instr.wf, inRange] at hw
  refine packWord_matches (cls := 0x3) (m := 0xFFC000FF) (v := 0x30000000) (by decide) a 0 22 0 (by decide)
    (by decide) ?_ ?_ <;> simp <;> omega

theorem TableRow.ppuWr (a : Addr) (d : Byte) : TableRow.Statement (.ppuWr a d) := by
  intro hw
  have := a.isLt
  have := d.isLt
  simp [Instr.wf, inRange] at hw
  refine packWord_matches (cls := 0x4) (m := 0xFFC00000) (v := 0x40000000) (by decide) a d 22 8 (by decide)
    (by decide) ?_ ?_ <;> simp <;> omega

theorem TableRow.resetHard : TableRow.Statement .resetHard := by unfold TableRow.Statement; decide

theorem TableRow.resetSoft : TableRow.Statement .resetSoft := by unfold TableRow.Statement; decide

theorem TableRow.save : TableRow.Statement .save := by unfold TableRow.Statement; decide

theorem TableRow.load : TableRow.Statement .load := by unfold TableRow.Statement; decide

theorem TableRow.prgRd (a : Addr) : TableRow.Statement (.prgRd a) := by
  intro hw
  have := a.isLt
  simp [Instr.wf, inRange] at hw
  refine packWord_matches (cls := 0x1) (m := 0xFF8000FF) (v := 0x10800000) (by decide) a 0 23 0 (by decide)
    (by decide) ?_ ?_ <;> simp <;> omega

theorem TableRow.wrkRd (a : Addr) : TableRow.Statement (.wrkRd a) := by
  intro hw
  have := a.isLt
  simp [Instr.wf, inRange] at hw
  refine packWord_matches (cls := 0x1) (m := 0xFFE000FF) (v := 0x10600000) (by decide) a 0 21 0 (by decide)
    (by decide) ?_ ?_ <;> simp <;> omega

theorem TableRow.wrkWr (a : Addr) (d : Byte) : TableRow.Statement (.wrkWr a d) := by
  intro hw
  have := a.isLt
  have := d.isLt
  simp [Instr.wf, inRange] at hw
  refine packWord_matches (cls := 0x2) (m := 0xFFE00000) (v := 0x20600000) (by decide) a d 21 8 (by decide)
    (by decide) ?_ ?_ <;> simp <;> omega

theorem TableRow.chrRd (a : Addr) : TableRow.Statement (.chrRd a) := by
  intro hw
  have := a.isLt
  simp [Instr.wf, inRange] at hw
  refine packWord_matches (cls := 0x3) (m := 0xFFE000FF) (v := 0x30000000) (by decide) a 0 21 0 (by decide)
    (by decide) ?_ ?_ <;> simp <;> omega

theorem TableRow.chrWr (a : Addr) (d : Byte) : TableRow.Statement (.chrWr a d) := by
  intro hw
  have := a.isLt
  have := d.isLt
  simp [Instr.wf, inRange] at hw
  refine packWord_matches (cls := 0x4) (m := 0xFFE00000) (v := 0x40000000) (by decide) a d 21 8 (by decide)
    (by decide) ?_ ?_ <;> simp <;> omega

theorem TableRow.nmtRd (a : Addr) : TableRow.Statement (.nmtRd a) := by
  intro hw
  have := a.isLt
  simp [Instr.wf, inRange] at hw
  refine packWord_matches (cls := 0x3) (m := 0xFFE000FF) (v := 0x30200000) (by decide) a 0 21 0 (by decide)
    (by decide) ?_ ?_ <;> simp <;> omega

theorem TableRow.nmtWr (a : Addr) (d : Byte) : TableRow.Statement (.nmtWr a d) := by
  intro hw
  have := a.isLt
  have := d.isLt
  simp [Instr.wf, inRange] at hw
  refine packWord_matches (cls := 0x4) (m := 0xFFE00000) (v := 0x40200000) (by decide) a d 21 8 (by decide)
    (by decide) ?_ ?_ <;> simp <;> omega

theorem TableRow.ppuPaletteRd (a : Addr) : TableRow.Statement (.ppuPaletteRd a) := by
  intro hw
  have := a.isLt
  simp [Instr.wf, inRange] at hw
  refine packWord_matches (cls := 0x3) (m := 0xFFFF00FF) (v := 0x303F0000) (by decide) a 0 16 0 (by decide)
    (by decide) ?_ ?_ <;> simp <;> omega

theorem TableRow.ppuPaletteWr (a : Addr) (d : Byte) : TableRow.Statement (.ppuPaletteWr a d) := by
  intro hw
  have := a.isLt
  have := d.isLt
  simp [Instr.wf, inRange] at hw
  refine packWord_matches (cls := 0x4) (m := 0xFFFF0000) (v := 0x403F0000) (by decide) a d 16 8 (by decide)
    (by decide) ?_ ?_ <;> simp <;> omega

theorem TableRow.nromWrIgnored (a : Addr) (d : Byte) : TableRow.Statement (.nromWrIgnored a d) := by
  intro hw
  have := a.isLt
  have := d.isLt
  simp [Instr.wf, inRange] at hw
  refine packWord_matches (cls := 0x2) (m := 0xFF800000) (v := 0x20800000) (by decide) a d 23 8 (by decide)
    (by decide) ?_ ?_ <;> simp <;> omega

theorem TableRow.mmc1SerialReset (a : Addr) (d : Byte) : TableRow.Statement (.mmc1SerialReset a d) := by
  intro hw
  have := a.isLt
  have := d.isLt
  simp [Instr.wf, inRange] at hw
  refine packWord_matches (cls := 0x2) (m := 0xFF800080) (v := 0x20800080) (by decide) a d 23 7 (by decide)
    (by decide) ?_ ?_ <;> simp <;> omega

theorem TableRow.mmc1ShiftControl (a : Addr) (d : Byte) : TableRow.Statement (.mmc1ShiftControl a d) := by
  intro hw
  have := a.isLt
  have := d.isLt
  simp [Instr.wf, inRange] at hw
  refine packWord_matches (cls := 0x2) (m := 0xFFE00080) (v := 0x20800000) (by decide) a d 21 7 (by decide)
    (by decide) ?_ ?_ <;> simp <;> omega

theorem TableRow.mmc1ShiftChr0 (a : Addr) (d : Byte) : TableRow.Statement (.mmc1ShiftChr0 a d) := by
  intro hw
  have := a.isLt
  have := d.isLt
  simp [Instr.wf, inRange] at hw
  refine packWord_matches (cls := 0x2) (m := 0xFFE00080) (v := 0x20A00000) (by decide) a d 21 7 (by decide)
    (by decide) ?_ ?_ <;> simp <;> omega

theorem TableRow.mmc1ShiftChr1 (a : Addr) (d : Byte) : TableRow.Statement (.mmc1ShiftChr1 a d) := by
  intro hw
  have := a.isLt
  have := d.isLt
  simp [Instr.wf, inRange] at hw
  refine packWord_matches (cls := 0x2) (m := 0xFFE00080) (v := 0x20C00000) (by decide) a d 21 7 (by decide)
    (by decide) ?_ ?_ <;> simp <;> omega

theorem TableRow.mmc1ShiftPrg (a : Addr) (d : Byte) : TableRow.Statement (.mmc1ShiftPrg a d) := by
  intro hw
  have := a.isLt
  have := d.isLt
  simp [Instr.wf, inRange] at hw
  refine packWord_matches (cls := 0x2) (m := 0xFFE00080) (v := 0x20E00000) (by decide) a d 21 7 (by decide)
    (by decide) ?_ ?_ <;> simp <;> omega

theorem TableRow.uxromPrgSelect (a : Addr) (d : Byte) : TableRow.Statement (.uxromPrgSelect a d) := by
  intro hw
  have := a.isLt
  have := d.isLt
  simp [Instr.wf, inRange] at hw
  refine packWord_matches (cls := 0x2) (m := 0xFF800000) (v := 0x20800000) (by decide) a d 23 8 (by decide)
    (by decide) ?_ ?_ <;> simp <;> omega

theorem TableRow.cnromChrSelect (a : Addr) (d : Byte) : TableRow.Statement (.cnromChrSelect a d) := by
  intro hw
  have := a.isLt
  have := d.isLt
  simp [Instr.wf, inRange] at hw
  refine packWord_matches (cls := 0x2) (m := 0xFF800000) (v := 0x20800000) (by decide) a d 23 8 (by decide)
    (by decide) ?_ ?_ <;> simp <;> omega

theorem TableRow.axromSelect (a : Addr) (d : Byte) : TableRow.Statement (.axromSelect a d) := by
  intro hw
  have := a.isLt
  have := d.isLt
  simp [Instr.wf, inRange] at hw
  refine packWord_matches (cls := 0x2) (m := 0xFF800000) (v := 0x20800000) (by decide) a d 23 8 (by decide)
    (by decide) ?_ ?_ <;> simp <;> omega

end Sys2Proof.Laws
end

