-- ==== Sys2Proof/Laws/Transactions.lean ====
section
/-! SUPPORT. Each transaction said once: the seven bodies an instruction can be, what each does when the block is
powered and when it is not, and how it stops. -/

namespace Sys2Proof.Machine

/-! ### Stops are refusals -/

/-- A computation that stops only with a refusal, never with an error (R422). -/
def OnlyRefuses {α : Type} (x : Except Stop α) : Prop := ∀ e, x = .error e → ∃ r, e = .refused r

theorem onlyRefuses_ok {α : Type} (a : α) : OnlyRefuses (.ok a : Except Stop α) := fun _ h => by cases h

theorem onlyRefuses_refused {α : Type} (r : RefuseReason) :
    OnlyRefuses (.error (.refused r) : Except Stop α) := fun _ h => by cases h; exact ⟨r, rfl⟩

theorem swapBankChecked_refuses (w : WinId) (size base i : Nat) (s : State) :
    OnlyRefuses (swapBankChecked w size base i s) := by
  unfold swapBankChecked
  split
  · exact onlyRefuses_ok _
  · exact onlyRefuses_refused _

theorem swapBanksChecked_refuses (w : WinId) (size base : Nat) (is : List Nat) (s : State) :
    OnlyRefuses (swapBanksChecked w size base is s) := by
  unfold swapBanksChecked
  split
  · exact onlyRefuses_ok _
  · exact onlyRefuses_refused _

theorem evalIndex_refuses (regs : List Nat) (i : Index) (s : State) : OnlyRefuses (evalIndex regs i s) := by
  induction i with
  | getBank w size base =>
    simp only [evalIndex, getBank]
    split
    · split
      · split
        · exact onlyRefuses_ok _
        · exact onlyRefuses_refused _
      · exact onlyRefuses_refused _
    · exact onlyRefuses_refused _
  | bits hi lo i ih =>
    simp only [evalIndex]
    split
    · exact onlyRefuses_ok _
    · rename_i e he
      intro e' h
      cases h
      exact ih e he
  | op o i j ihi ihj =>
    simp only [evalIndex]
    split
    · exact onlyRefuses_ok _
    · rename_i e he
      intro e' h
      cases h
      exact ihi e he
    · rename_i e he _
      intro e' h
      cases h
      exact ihj e he
  | choose c i j ihc ihi ihj =>
    simp only [evalIndex]
    split
    · split
      · exact ihj
      · exact ihi
    · rename_i e he
      intro e' h
      cases h
      exact ihc e he
  | _ => exact onlyRefuses_ok _

theorem evalIndices_refuses (regs : List Nat) (is : List Index) (s : State) :
    OnlyRefuses (evalIndices regs is s) := by
  induction is with
  | nil => exact onlyRefuses_ok _
  | cons i is ih =>
    simp only [evalIndices]
    split
    · exact onlyRefuses_ok _
    · rename_i e he
      intro e' h
      cases h
      exact evalIndex_refuses regs i s e he
    · rename_i e he _
      intro e' h
      cases h
      exact ih e he

theorem runAction_refuses (regs : List Nat) (act : Action) (s : State) : OnlyRefuses (runAction regs act s) := by
  induction act generalizing regs s with
  | swap w size base i =>
    simp only [runAction]
    split
    · exact swapBankChecked_refuses _ _ _ _ _
    · rename_i e he
      intro e' h
      cases h
      exact evalIndex_refuses regs i s e he
  | swapBanks w size base is =>
    simp only [runAction]
    split
    · exact swapBanksChecked_refuses _ _ _ _ _
    · rename_i e he
      intro e' h
      cases h
      exact evalIndices_refuses regs is s e he
  | mirror k i =>
    simp only [runAction]
    split
    · exact onlyRefuses_ok _
    · rename_i e he
      intro e' h
      cases h
      exact evalIndex_refuses regs i s e he
  | setMode m => exact onlyRefuses_ok _
  | setTable t => exact onlyRefuses_ok _
  | whenCrc k a ih =>
    simp only [runAction]
    split
    · exact ih regs s
    · exact onlyRefuses_ok _
  | choose c a b iha ihb =>
    simp only [runAction]
    split
    · split
      · exact ihb regs s
      · exact iha regs s
    · rename_i e he
      intro e' h
      cases h
      exact evalIndex_refuses regs c s e he
  | both a b iha ihb =>
    simp only [runAction]
    split
    · exact ihb regs _
    · rename_i e he
      intro e' h
      cases h
      exact iha regs s e he
  | nothing => exact onlyRefuses_ok _
  | withScanline a ih => exact ih _ _

theorem runActions_refuses (regs : List Nat) (as : List Action) (s : State) :
    OnlyRefuses (runActions regs as s) := by
  induction as generalizing s with
  | nil => exact onlyRefuses_ok _
  | cons a as ih =>
    simp only [runActions]
    split
    · exact ih _
    · rename_i e he
      intro e' h
      cases h
      exact runAction_refuses regs a s e he

theorem latchUpdate_refuses (p : LatchParams) (s : State) : OnlyRefuses (latchUpdate p s) := by
  unfold latchUpdate
  split
  · exact runActions_refuses _ _ _
  · exact onlyRefuses_ok _

theorem menuUpdate_refuses (p : MenuParams) (s : State) : OnlyRefuses (menuUpdate p s) := by
  unfold menuUpdate
  split
  · exact runActions_refuses _ _ _
  · exact onlyRefuses_ok _

theorem boardUpdate_refuses (s : State) : OnlyRefuses (boardUpdate s) := by
  unfold boardUpdate
  split
  · exact onlyRefuses_ok _
  · exact onlyRefuses_ok _
  · exact onlyRefuses_ok _
  · exact onlyRefuses_ok _
  · exact menuUpdate_refuses _ _
  · exact latchUpdate_refuses _ _
  · exact onlyRefuses_ok _

theorem mapRanges_refuses (ms : List Mapping) (s : State) : OnlyRefuses (mapRanges ms s) := by
  induction ms generalizing s with
  | nil => exact onlyRefuses_ok _
  | cons m ms ih =>
    simp only [mapRanges, mapRange]
    by_cases h : mapLegal m = true
    · simp only [h, if_true]
      exact ih _
    · simp only [h, Bool.false_eq_true, if_false]
      exact onlyRefuses_refused _

/-- Every stop of a `SubReset` is a refusal (R422, R450). -/
theorem subReset_refuses (hard : Bool) (s : State) : OnlyRefuses (subReset hard s) := by
  unfold subReset
  split
  · exact onlyRefuses_ok _
  · exact boardUpdate_refuses _
  · exact boardUpdate_refuses _
  · exact boardUpdate_refuses _
  · exact boardUpdate_refuses _
  · unfold menuSubReset
    split
    · exact menuUpdate_refuses _ _
    · exact onlyRefuses_ok _
  · unfold latchSubReset
    split
    · exact latchUpdate_refuses _ _
    · rename_i e he
      intro e' h
      cases h
      exact mapRanges_refuses _ _ e he
  · exact mapRanges_refuses _ _

/-- Every stop of a write binding's effect is a refusal (R422). -/
theorem writeBound_refuses (w : WriteBinding) (a : Addr) (d e : Byte) (s : State) :
    OnlyRefuses (writeBound w a d e s) := by
  cases w with
  | prgSwap size base => exact swapBankChecked_refuses _ _ _ _ _
  | chrSwap size base => exact swapBankChecked_refuses _ _ _ _ _
  | boardWrite f =>
    cases f with
    | latchData =>
      simp only [writeBound, boardWrite, latchData]
      split
      · split
        · exact latchUpdate_refuses _ _
        · exact onlyRefuses_ok _
      · exact onlyRefuses_ok _
    | actions as => exact runActions_refuses _ _ _
    | _ => exact onlyRefuses_ok _
  | _ => exact onlyRefuses_ok _

/-! ### The seven transactions -/

/-- Every instruction completes its step as one of the seven transactions (R111): a row is its transaction. -/
theorem exec_cases (i : Instr) (s : State) :
    (∃ a, i ∈ cpuReads a ∧ exec i s = .next (cpuRead a s))
    ∨ (∃ a d, i ∈ cpuWrites a d ∧ exec i s = .next (cpuWrite a d s))
    ∨ (∃ a, i ∈ ppuReads a ∧ exec i s = .next (ppuRead a s))
    ∨ (∃ a d, i ∈ ppuWrites a d ∧ exec i s = .next (ppuWrite a d s))
    ∨ (i = .resetHard ∧ exec i s = .next (resetBlock true s))
    ∨ (i = .resetSoft ∧ exec i s = .next (resetBlock false s))
    ∨ (i = .save ∧ exec i s = .next (saveBlock s))
    ∨ (i = .load ∧ exec i s = .next (loadBlock s)) := by
  cases i with
  | cpuRd a => exact .inl ⟨a, by simp [cpuReads], rfl⟩
  | prgRd a => exact .inl ⟨a, by simp [cpuReads], rfl⟩
  | wrkRd a => exact .inl ⟨a, by simp [cpuReads], rfl⟩
  | ppuRd a => exact .inr (.inr (.inl ⟨a, by simp [ppuReads], rfl⟩))
  | chrRd a => exact .inr (.inr (.inl ⟨a, by simp [ppuReads], rfl⟩))
  | nmtRd a => exact .inr (.inr (.inl ⟨a, by simp [ppuReads], rfl⟩))
  | ppuPaletteRd a => exact .inr (.inr (.inl ⟨a, by simp [ppuReads], rfl⟩))
  | ppuWr a d => exact .inr (.inr (.inr (.inl ⟨a, d, by simp [ppuWrites], rfl⟩)))
  | chrWr a d => exact .inr (.inr (.inr (.inl ⟨a, d, by simp [ppuWrites], rfl⟩)))
  | nmtWr a d => exact .inr (.inr (.inr (.inl ⟨a, d, by simp [ppuWrites], rfl⟩)))
  | ppuPaletteWr a d => exact .inr (.inr (.inr (.inl ⟨a, d, by simp [ppuWrites], rfl⟩)))
  | resetHard => exact .inr (.inr (.inr (.inr (.inl ⟨rfl, rfl⟩))))
  | resetSoft => exact .inr (.inr (.inr (.inr (.inr (.inl ⟨rfl, rfl⟩)))))
  | save => exact .inr (.inr (.inr (.inr (.inr (.inr (.inl ⟨rfl, rfl⟩))))))
  | load => exact .inr (.inr (.inr (.inr (.inr (.inr (.inr ⟨rfl, rfl⟩))))))
  | _ a d => exact .inr (.inl ⟨a, d, by simp [cpuWrites], rfl⟩)

theorem exec_cpuReads {a : Addr} {i : Instr} (h : i ∈ cpuReads a) (s : State) :
    exec i s = .next (cpuRead a s) := by
  simp only [cpuReads, List.mem_cons, List.not_mem_nil, or_false] at h
  rcases h with rfl | rfl | rfl <;> rfl

theorem exec_cpuWrites {a : Addr} {d : Byte} {i : Instr} (h : i ∈ cpuWrites a d) (s : State) :
    exec i s = .next (cpuWrite a d s) := by
  simp only [cpuWrites, List.mem_cons, List.not_mem_nil, or_false] at h
  rcases h with rfl | rfl | rfl | rfl | rfl | rfl | rfl | rfl | rfl | rfl | rfl <;> rfl

theorem exec_ppuReads {a : Addr} {i : Instr} (h : i ∈ ppuReads a) (s : State) :
    exec i s = .next (ppuRead a s) := by
  simp only [ppuReads, List.mem_cons, List.not_mem_nil, or_false] at h
  rcases h with rfl | rfl | rfl | rfl <;> rfl

theorem exec_ppuWrites {a : Addr} {d : Byte} {i : Instr} (h : i ∈ ppuWrites a d) (s : State) :
    exec i s = .next (ppuWrite a d s) := by
  simp only [ppuWrites, List.mem_cons, List.not_mem_nil, or_false] at h
  rcases h with rfl | rfl | rfl | rfl <;> rfl

/-! ### The power check -/

theorem transact_powered {s : State} (k : State → Except Stop State) (h : s.powered = true) :
    transact s (fun s => powerGate s (k s)) = transact s k := by
  unfold transact
  beta_reduce
  rw [powerGate_on _ (by exact h)]

/-- A gated transaction of a block that is not powered (R43). -/
theorem transact_unpowered {s : State} (k : State → Except Stop State) (h : s.powered = false) :
    transact s (fun s => powerGate s (k s)) =
      { s with refused := true, result := .refused .notPoweredOn, events := [] } := by
  unfold transact
  beta_reduce
  rw [powerGate_off _ (by exact h)]
  rfl

/-! ### Port transactions -/

/-- A CPU read of a powered block (R190). -/
theorem cpuRead_on {s : State} (a : Addr) (h : s.powered = true) :
    cpuRead a s =
      { (readBound (s.bus.readAt a.toNat) a (clearOutput s)).2 with
        latch := (readBound (s.bus.readAt a.toNat) a (clearOutput s)).1
        result := .byte (readBound (s.bus.readAt a.toNat) a (clearOutput s)).1 } := by
  unfold cpuRead
  rw [transact_powered _ h]
  rfl

/-- A read binding changes nothing but the draw counter (R84, R195). -/
theorem readBound_frame (r : ReadBinding) (a : Addr) (s : State) :
    (readBound r a s).2 = { s with draws := if r = .system then s.draws + 1 else s.draws } := by
  cases r <;> rfl

/-- All that a CPU read changes (R84, R190). -/
theorem cpuRead_frame {s : State} (a : Addr) (h : s.powered = true) :
    ∃ v d, cpuRead a s = { s with latch := v, result := .byte v, events := [], draws := d } := by
  rw [cpuRead_on a h, readBound_frame]
  exact ⟨_, _, rfl⟩

/-- A CPU write of a powered block (R191): the binding's effect after the latch takes the byte. -/
theorem cpuWrite_on {s : State} (a : Addr) (d : Byte) (h : s.powered = true) :
    cpuWrite a d s =
      match writeBound (s.bus.writeAt a.toNat) a d (busValue a d { clearOutput s with latch := d })
          { clearOutput s with latch := d } with
      | .ok t => t
      | .error e => takeStop e (clearOutput s) := by
  unfold cpuWrite
  rw [transact_powered _ h]
  rfl

/-- Everything a CPU write of a powered block can do: its handler completes, or it is refused. -/
theorem cpuWrite_cases {s : State} (a : Addr) (d : Byte) (h : s.powered = true) :
    (∃ t, writeBound (s.bus.writeAt a.toNat) a d (busValue a d { clearOutput s with latch := d })
        { clearOutput s with latch := d } = .ok t ∧ cpuWrite a d s = t)
    ∨ ∃ r, cpuWrite a d s = { s with refused := true, result := .refused r, events := [] } := by
  rw [cpuWrite_on a d h]
  cases hx : writeBound (s.bus.writeAt a.toNat) a d (busValue a d { clearOutput s with latch := d })
      { clearOutput s with latch := d } with
  | ok t => exact .inl ⟨t, rfl, rfl⟩
  | error e =>
    obtain ⟨r, rfl⟩ := writeBound_refuses _ _ _ _ _ e hx
    exact .inr ⟨r, rfl⟩

/-- A PPU read of a powered block (R193). -/
theorem ppuRead_on {s : State} (p : Addr) (h : s.powered = true) :
    ppuRead p s =
      match ppuRoute p with
      | none => { s with refused := true, result := .refused .ppuPalette, events := [] }
      | some (w, o) => { s with result := .byte (readBM w o s), events := [] } := by
  unfold ppuRead
  rw [transact_powered _ h]
  unfold transact
  cases ppuRoute p with
  | none => rfl
  | some wo =>
    obtain ⟨w, o⟩ := wo
    cases w <;> rfl

/-- A PPU write of a powered block (R194). -/
theorem ppuWrite_on {s : State} (p : Addr) (d : Byte) (h : s.powered = true) :
    ppuWrite p d s =
      match ppuRoute p with
      | none => { s with refused := true, result := .refused .ppuPalette, events := [] }
      | some (w, o) => writeBM w o d (clearOutput s) := by
  unfold ppuWrite
  rw [transact_powered _ h]
  unfold transact
  cases ppuRoute p <;> rfl

/-! ### Host transactions -/

/-- Everything a reset can do: its `SubReset` completes, or it is refused (R450). -/
theorem resetBlock_cases (hard : Bool) (s : State) :
    (∃ t, (hard = true ∨ s.powered = true) ∧ subReset hard (resetBase hard (clearOutput s)) = .ok t
        ∧ resetBlock hard s = { t with events := [] })
    ∨ ∃ r, resetBlock hard s = { s with refused := true, result := .refused r, events := [] } := by
  unfold resetBlock transact
  beta_reduce
  by_cases hp : hard = false ∧ s.powered = false
  · rw [if_pos (by exact hp)]
    exact .inr ⟨.notPoweredOn, rfl⟩
  · rw [if_neg (by exact hp)]
    cases hx : subReset hard (resetBase hard (clearOutput s)) with
    | ok t =>
      refine .inl ⟨t, ?_, rfl, rfl⟩
      by_contra hn
      rw [not_or] at hn
      exact hp ⟨by simpa using hn.1, by simpa using hn.2⟩
    | error e =>
      obtain ⟨r, rfl⟩ := subReset_refuses _ _ e hx
      exact .inr ⟨r, rfl⟩

/-- A save of a powered block (R404). -/
theorem saveBlock_on {s : State} (h : s.powered = true) :
    saveBlock s = { s with result := .stream (saveStream s), events := [] } := by
  unfold saveBlock
  rw [transact_powered _ h]
  rfl

/-- Everything a load of a powered block can do (R405): the stream is corrupt and the state is kept; or it is
applied and the windows are recomputed; or a template's update refuses. -/
theorem loadBlock_cases {s : State} (h : s.powered = true) :
    (∃ c, parseStream s.cart s.stream = .error c
        ∧ loadBlock s = { s with result := .error (.corruptSaveState c), events := [] })
    ∨ (∃ got t, parseStream s.cart s.stream = .ok got ∧ boardUpdate (applyLoad got (clearOutput s)) = .ok t
        ∧ loadBlock s = { t with events := [] })
    ∨ (∃ got r, parseStream s.cart s.stream = .ok got
        ∧ boardUpdate (applyLoad got (clearOutput s)) = .error (.refused r)
        ∧ loadBlock s = { s with refused := true, result := .refused r, events := [] }) := by
  unfold loadBlock
  rw [transact_powered _ h]
  unfold transact
  beta_reduce
  rw [clearOutput_cart, clearOutput_stream]
  cases hp : parseStream s.cart s.stream with
  | error c => exact .inl ⟨c, rfl, rfl⟩
  | ok got =>
    simp only []
    cases hu : boardUpdate (applyLoad got (clearOutput s)) with
    | ok t => exact .inr (.inl ⟨got, t, rfl, hu, rfl⟩)
    | error e =>
      obtain ⟨r, rfl⟩ := boardUpdate_refuses _ e hu
      exact .inr (.inr ⟨got, r, rfl, hu, rfl⟩)

/-- A transaction of a block that is not powered (R43): all but a hard reset are refused. -/
theorem exec_off {s : State} {i : Instr} (h : s.powered = false) (hi : i ≠ .resetHard) :
    exec i s = .next { s with refused := true, result := .refused .notPoweredOn, events := [] } := by
  rcases exec_cases i s with ⟨a, -, hx⟩ | ⟨a, d, -, hx⟩ | ⟨a, -, hx⟩ | ⟨a, d, -, hx⟩ | ⟨rfl, hx⟩ | ⟨rfl, hx⟩ |
    ⟨rfl, hx⟩ | ⟨rfl, hx⟩ <;> rw [hx]
  · exact congrArg _ (transact_unpowered _ h)
  · exact congrArg _ (transact_unpowered _ h)
  · exact congrArg _ (transact_unpowered _ h)
  · exact congrArg _ (transact_unpowered _ h)
  · exact absurd rfl hi
  · unfold resetBlock transact
    beta_reduce
    rw [if_pos ⟨rfl, by exact h⟩]
    rfl
  · exact congrArg _ (transact_unpowered _ h)
  · exact congrArg _ (transact_unpowered _ h)

/-! ### What every transaction keeps -/

/-- What no transaction changes: the configuration, and the transactions still waiting (R30, R87). -/
def KeepsRun (s t : State) : Prop :=
  t.cart = s.cart ∧ t.pending = s.pending ∧ t.stream = s.stream

theorem Handled.keepsRun {s t : State} (h : Handled s t) : KeepsRun s t := by
  obtain ⟨p, c, n, w, e, b, m, d, rfl⟩ := h
  exact ⟨rfl, rfl, rfl⟩

theorem Updated.keepsRun {s t : State} (h : Updated s t) : KeepsRun s t := by
  obtain ⟨p, c, n, w, e, d, rfl⟩ := h
  exact ⟨rfl, rfl, rfl⟩

theorem Remapped.keepsRun {s t : State} (h : Remapped s t) : KeepsRun s t := by
  obtain ⟨u, p, c, n, w, e, b, d, rfl⟩ := h
  exact ⟨rfl, rfl, rfl⟩

/-- The state before `SubReset` differs from the one before the reset in its table, registers, windows and
power mark (R450, R451). -/
theorem resetBase_eq (hard : Bool) (s : State) :
    ∃ p c n w b,
      resetBase hard s = { s with
        bus := baseBus s.cart, prg := p, chr := c, nmt := n, wrk := w, board := b,
        powered := if hard then true else s.powered } := by
  cases hard with
  | false => exact ⟨s.prg, s.chr, s.nmt, s.wrk, s.board, rfl⟩
  | true =>
    obtain ⟨p, c, n, w, e, he⟩ := defaultWindows_onlyWindows
      { s with bus := baseBus s.cart, board := hardDefaults s.cart.board, powered := true }
    have hev : e = s.events := by
      have h1 := congrArg State.events he
      simp only [defaultWindows, setNmt, mapBanks_events, mapBank_events] at h1
      exact h1.symm
    refine ⟨p, c, n, w, hardDefaults s.cart.board, ?_⟩
    simp only [resetBase, if_true]
    rw [he, hev]

theorem applyLoad_eq (got : Collected) (s : State) :
    ∃ b c w, applyLoad got s = { s with board := b, ramChr := c, ramWrk := w } := by
  unfold applyLoad
  have h1 : ∃ b, loadRegs got.reg s = { s with board := b } := by
    cases got.reg with
    | none => exact ⟨s.board, rfl⟩
    | some r => exact ⟨r, rfl⟩
  obtain ⟨b, hb⟩ := h1
  rw [hb]
  have h2 : ∀ t : State, ∃ w, loadRam .wrk got.wrk t = { t with ramWrk := w } := by
    intro t
    cases got.wrk with
    | none => exact ⟨t.ramWrk, rfl⟩
    | some bs => exact ⟨_, rfl⟩
  have h3 : ∀ t : State, ∃ c, loadRam .chr got.crm t = { t with ramChr := c } := by
    intro t
    cases got.crm with
    | none => exact ⟨t.ramChr, rfl⟩
    | some bs =>
      simp only [loadRam]
      split
      · exact ⟨_, rfl⟩
      · exact ⟨t.ramChr, rfl⟩
  obtain ⟨w, hw⟩ := h2 { s with board := b }
  obtain ⟨c, hc⟩ := h3 (loadRam .wrk got.wrk { s with board := b })
  rw [hc, hw]
  exact ⟨b, c, w, rfl⟩

/-- A transaction keeps the configuration and the waiting transactions. -/
theorem exec_keepsRun {i : Instr} {s t : State} (h : exec i s = .next t) : KeepsRun s t := by
  by_cases hp : s.powered = true
  · rcases exec_cases i s with ⟨a, -, hx⟩ | ⟨a, d, -, hx⟩ | ⟨a, -, hx⟩ | ⟨a, d, -, hx⟩ | ⟨rfl, hx⟩ |
      ⟨rfl, hx⟩ | ⟨rfl, hx⟩ | ⟨rfl, hx⟩ <;> rw [hx] at h <;> cases h
    · obtain ⟨v, d, hr⟩ := cpuRead_frame a hp
      rw [hr]
      exact ⟨rfl, rfl, rfl⟩
    · rcases cpuWrite_cases a d hp with ⟨t, hw, ht⟩ | ⟨r, ht⟩
      · rw [ht]
        exact (handled_closed.writeBound hw).keepsRun
      · rw [ht]
        exact ⟨rfl, rfl, rfl⟩
    · rw [ppuRead_on a hp]
      split <;> exact ⟨rfl, rfl, rfl⟩
    · rw [ppuWrite_on a d hp]
      split
      · exact ⟨rfl, rfl, rfl⟩
      · unfold writeBM
        split
        · exact ⟨rfl, rfl, rfl⟩
        · exact ⟨by simp, by simp, by simp⟩
    · rcases resetBlock_cases true s with ⟨t, -, ht, hr⟩ | ⟨r, hr⟩ <;> rw [hr]
      · obtain ⟨p, c, n, w, b, hb⟩ := resetBase_eq true (clearOutput s)
        rw [hb] at ht
        obtain ⟨h1, h2, h3⟩ := (remapped_closed.subReset ht).keepsRun
        exact ⟨h1, h2, h3⟩
      · exact ⟨rfl, rfl, rfl⟩
    · rcases resetBlock_cases false s with ⟨t, -, ht, hr⟩ | ⟨r, hr⟩ <;> rw [hr]
      · obtain ⟨p, c, n, w, b, hb⟩ := resetBase_eq false (clearOutput s)
        rw [hb] at ht
        obtain ⟨h1, h2, h3⟩ := (remapped_closed.subReset ht).keepsRun
        exact ⟨h1, h2, h3⟩
      · exact ⟨rfl, rfl, rfl⟩
    · rw [saveBlock_on hp]
      exact ⟨rfl, rfl, rfl⟩
    · rcases loadBlock_cases hp with ⟨c, -, hl⟩ | ⟨got, t, -, hu, hl⟩ | ⟨_, r, -, -, hl⟩ <;> rw [hl]
      · exact ⟨rfl, rfl, rfl⟩
      · obtain ⟨b, c, w, ha⟩ := applyLoad_eq got (clearOutput s)
        rw [ha] at hu
        obtain ⟨h1, h2, h3⟩ := (updated_closed.update hu).keepsRun
        exact ⟨h1, h2, h3⟩
      · exact ⟨rfl, rfl, rfl⟩
  · by_cases hi : i = .resetHard
    · subst hi
      have hx : exec .resetHard s = .next (resetBlock true s) := rfl
      rw [hx] at h
      cases h
      rcases resetBlock_cases true s with ⟨t, -, ht, hr⟩ | ⟨r, hr⟩ <;> rw [hr]
      · obtain ⟨p, c, n, w, b, hb⟩ := resetBase_eq true (clearOutput s)
        rw [hb] at ht
        obtain ⟨h1, h2, h3⟩ := (remapped_closed.subReset ht).keepsRun
        exact ⟨h1, h2, h3⟩
      · exact ⟨rfl, rfl, rfl⟩
    · rw [exec_off (by simpa using hp) hi] at h
      cases h
      exact ⟨rfl, rfl, rfl⟩

/-- A transaction that completed (R13): it was admitted, and it returns neither a refusal nor an error. -/
structure Completed (i : Instr) (s t : State) : Prop where
  admitted : i = .resetHard ∨ s.powered = true
  powered : t.powered = true
  refused : t.refused = s.refused
  noRefusal : ∀ r, t.result ≠ .refused r
  noError : ∀ e, t.result ≠ .error e

/-- Every way a transaction can end (R13): refused, or corrupt (a load only), or completed. -/
theorem exec_outcome {i : Instr} {s t : State} (h : exec i s = .next t) :
    (∃ r, t = { s with refused := true, result := .refused r, events := [] })
    ∨ (i = .load ∧ ∃ c, t = { s with result := .error (.corruptSaveState c), events := [] })
    ∨ Completed i s t := by
  have reset (hard : Bool) (hi : i = .resetHard ∨ s.powered = true) (hk : hard = true ∨ s.powered = true) :
      (∃ r, resetBlock hard s = { s with refused := true, result := .refused r, events := [] })
      ∨ Completed i s (resetBlock hard s) := by
    rcases resetBlock_cases hard s with ⟨t, -, ht, hr⟩ | ⟨r, hr⟩ <;> rw [hr]
    · obtain ⟨p, c, n, w, b, hb⟩ := resetBase_eq hard (clearOutput s)
      rw [hb] at ht
      obtain ⟨_, _, _, _, _, _, _, _, rfl⟩ := remapped_closed.subReset ht
      refine .inr ⟨hi, ?_, rfl, (by intro r h; cases h), (by intro e h; cases h)⟩
      show (if hard = true then true else s.powered) = true
      rcases hk with hk | hk
      · rw [hk]; rfl
      · rw [hk]; simp
    · exact .inl ⟨r, rfl⟩
  by_cases hp : s.powered = true
  · rcases exec_cases i s with ⟨a, -, hx⟩ | ⟨a, d, -, hx⟩ | ⟨a, -, hx⟩ | ⟨a, d, -, hx⟩ | ⟨rfl, hx⟩ |
      ⟨rfl, hx⟩ | ⟨rfl, hx⟩ | ⟨rfl, hx⟩ <;> rw [hx] at h <;> cases h
    · obtain ⟨v, d, hr⟩ := cpuRead_frame a hp
      rw [hr]
      exact .inr (.inr ⟨.inr hp, hp, rfl, (by intro r h; cases h), (by intro e h; cases h)⟩)
    · rcases cpuWrite_cases a d hp with ⟨t, hw, ht⟩ | ⟨r, ht⟩ <;> rw [ht]
      · obtain ⟨_, _, _, _, _, _, _, _, rfl⟩ := handled_closed.writeBound hw
        exact .inr (.inr ⟨.inr hp, hp, rfl, (by intro r h; cases h), (by intro e h; cases h)⟩)
      · exact .inl ⟨r, rfl⟩
    · rw [ppuRead_on a hp]
      split
      · exact .inl ⟨_, rfl⟩
      · exact .inr (.inr ⟨.inr hp, hp, rfl, (by intro r h; cases h), (by intro e h; cases h)⟩)
    · rw [ppuWrite_on a d hp]
      split
      · exact .inl ⟨_, rfl⟩
      · refine .inr (.inr ?_)
        unfold writeBM
        split
        · exact ⟨.inr hp, hp, rfl, (by intro r h; cases h), (by intro e h; cases h)⟩
        · exact ⟨.inr hp, by simpa using hp, by simp, by simp, by simp⟩
    · exact (reset true (.inl rfl) (.inl rfl)).imp id .inr
    · exact (reset false (.inr hp) (.inr hp)).imp id .inr
    · rw [saveBlock_on hp]
      exact .inr (.inr ⟨.inr hp, hp, rfl, (by intro r h; cases h), (by intro e h; cases h)⟩)
    · rcases loadBlock_cases hp with ⟨c, -, hl⟩ | ⟨got, t, -, hu, hl⟩ | ⟨_, r, -, -, hl⟩ <;> rw [hl]
      · exact .inr (.inl ⟨rfl, c, rfl⟩)
      · obtain ⟨b, c, w, ha⟩ := applyLoad_eq got (clearOutput s)
        rw [ha] at hu
        obtain ⟨_, _, _, _, _, _, rfl⟩ := updated_closed.update hu
        exact .inr (.inr ⟨.inr hp, hp, rfl, (by intro r h; cases h), (by intro e h; cases h)⟩)
      · exact .inl ⟨r, rfl⟩
  · by_cases hi : i = .resetHard
    · subst hi
      have hx : exec .resetHard s = .next (resetBlock true s) := rfl
      rw [hx] at h
      cases h
      exact (reset true (.inl rfl) (.inl rfl)).imp id .inr
    · rw [exec_off (by simpa using hp) hi] at h
      cases h
      exact .inl ⟨_, rfl⟩

/-- Every instruction answers a next state (R13, R422). -/
theorem exec_next (i : Instr) (s : State) : ∃ t, exec i s = .next t := by
  cases i <;> exact ⟨_, rfl⟩

end Sys2Proof.Machine
end

