-- ==== Sys2Proof/Laws/Resets.lean ====
section
/-! SUPPORT. What a `SubReset` and a load of a modelled board leave: the table, the registers and the windows they
give. -/

namespace Sys2Proof.Machine

/-- The registers of a board after its `SubReset`: a menu moves on, everything else is kept (R215, R257). -/
def resetRegs (hard : Bool) (b : Board) (r : BoardRegs) : BoardRegs :=
  match b, r with
  | .menu p, .menu m => .menu (nextMenu p hard m)
  | _, r => r

theorem nextMenu4_lt (hard : Bool) (m : Byte) : (nextMenu menu4Params hard m).toNat < 4 := by
  unfold nextMenu
  split
  · decide
  · have : (m.toNat + 1) % menu4Params.count < 4 := Nat.mod_lt _ (by decide)
    rw [BitVec.toNat_ofNat, Nat.mod_eq_of_lt (by omega)]
    exact this

/-- The registers stay those of a modelled board. -/
theorem resetRegs_match {hard : Bool} {b : Board} {r : BoardRegs} (hr : regsMatch b r) :
    regsMatch b (resetRegs hard b r) := by
  cases b <;> cases r <;> simp only [regsMatch] at hr <;> (try exact hr)
  rintro rfl
  exact nextMenu4_lt hard _

/-- The hard defaults are registers of the board (R290, R310, R320, R330, R256). -/
theorem hardDefaults_match (b : Board) : regsMatch b (hardDefaults b) := by
  cases b <;> (try trivial)
  rintro rfl
  decide

theorem mapRanges_board {ms : List Mapping} {s t : State} (h : mapRanges ms s = .ok t) : t.board = s.board := by
  induction ms generalizing s with
  | nil => cases h; rfl
  | cons m ms ih =>
    simp only [mapRanges, mapRange] at h
    split at h
    · rename_i u hu
      split at hu
      · cases hu
        rw [ih h]
        rfl
      · cases hu
    · cases h

/-- A `SubReset` leaves registers of the board, on every board (R214, R257). -/
theorem subReset_regs {hard : Bool} {s t : State} (hr : regsMatch s.cart.board s.board)
    (ht : subReset hard s = .ok t) : regsMatch t.cart.board t.board := by
  have hk : t.cart = s.cart := by
    obtain ⟨_, _, _, _, _, _, _, _, rfl⟩ := remapped_closed.subReset ht
    rfl
  have same (h : t.board = s.board) : regsMatch t.cart.board t.board := by rw [hk, h]; exact hr
  unfold subReset at ht
  split at ht
  · cases ht; exact hr
  · refine same ?_
    rw [(updated_closed.update ht).board]
    unfold mmc1Install
    simp only []
    split <;> rfl
  · exact same (updated_closed.update ht).board
  · exact same (updated_closed.update ht).board
  · exact same (updated_closed.update ht).board
  · rename_i p hb
    unfold menuSubReset at ht
    split at ht
    · rename_i m hm
      rw [hk, hb, (updated_closed.menuUpdate ht).board]
      rintro rfl
      exact nextMenu4_lt hard m
    · cases ht; exact hr
  · refine same ?_
    unfold latchSubReset at ht
    split at ht
    · rename_i u hu
      rw [(updated_closed.latchUpdate ht).board, mapRanges_board hu]
    · cases ht
  · exact same (mapRanges_board ht)

/-- Another table and other registers of the board leave the windows such a start. -/
theorem Untouched.with_bus_board {s : State} (h : Untouched s) (b : Bus) (r : BoardRegs) :
    Untouched { s with bus := b, board := r } :=
  ⟨⟨h.counts.prg, h.counts.chr, h.counts.nmt, h.counts.wrk⟩, h.nmtHome, h.wrk, h.prg, h.chr, h.nmt⟩

/-- The table after MMC1's `Map` calls (R291). -/
theorem mmc1Install_eq {s : State} (hb : s.bus = baseBus s.cart) (hm : s.cart.board = .mmc1) :
    mmc1Install s = { s with bus := boardTable s.cart } := by
  unfold mmc1Install boardTable
  rw [hm]
  simp only [install, hb]
  split <;> rfl

/-- `SubReset` of a modelled board over the base bindings never stops (R424): it leaves the board's table, its
registers, and the windows its rules give them. -/
theorem subReset_modelled {hard : Bool} {s : State} (hb : s.bus = baseBus s.cart)
    (hm : modelled s.cart.board = true) (hr : regsMatch s.cart.board s.board) (hu : Untouched s) :
    ∃ es, subReset hard s = .ok (State.withBoardWindows
      { s with bus := boardTable s.cart, board := resetRegs hard s.cart.board s.board } es) := by
  have key := boardUpdate_modelled
    (s := { s with bus := boardTable s.cart, board := resetRegs hard s.cart.board s.board })
    hm (resetRegs_match hr) (hu.with_bus_board _ _)
  obtain ⟨es, hk⟩ := key
  refine ⟨es, ?_⟩
  rw [← hk]
  cases hc : s.cart.board with
  | nrom =>
    have hbu : boardUpdate { s with bus := boardTable s.cart, board := resetRegs hard Board.nrom s.board }
        = .ok { s with bus := boardTable s.cart, board := resetRegs hard Board.nrom s.board } := by
      simp only [boardUpdate, hc]
    rw [hbu]
    simp only [subReset, hc, boardTable, resetRegs, ← hb]
  | mmc1 => simp only [subReset, hc, mmc1Install_eq hb hc, resetRegs]
  | uxrom => simp only [subReset, hc, install, boardTable, hb, resetRegs]
  | cnrom => simp only [subReset, hc, install, boardTable, hb, resetRegs]
  | axrom => simp only [subReset, hc, install, boardTable, hb, resetRegs]
  | menu p =>
    rw [hc] at hr
    cases hg : s.board with
    | menu m => simp only [subReset, menuSubReset, boardUpdate, hc, hg, boardTable, resetRegs, ← hb]
    | _ => rw [hg] at hr; exact hr.elim
  | latch p => rw [hc] at hm; exact absurd hm (by simp [modelled])
  | pattern p => rw [hc] at hm; exact absurd hm (by simp [modelled])

/-- A hard reset of a modelled board (R450, R452). -/
theorem resetBlock_hard {s : State} (hc : PageCounts s) (hm : modelled s.cart.board = true) :
    resetBlock true s =
      State.withBoardWindows
        { s with bus := boardTable s.cart, board := hardDefaults s.cart.board, powered := true, result := .done }
        [] := by
  have hbase : resetBase true (clearOutput s) = defaultWindows
      { clearOutput s with bus := baseBus s.cart, board := hardDefaults s.cart.board, powered := true } := rfl
  have hcount : PageCounts { clearOutput s with
      bus := baseBus s.cart, board := hardDefaults s.cart.board, powered := true } :=
    ⟨hc.prg, hc.chr, hc.nmt, hc.wrk⟩
  have heq := defaultWindows_eq hcount
  obtain ⟨es, hs⟩ := subReset_modelled (hard := true) (s := resetBase true (clearOutput s))
    (by rw [hbase, heq]; rfl) (by rw [hbase, heq]; exact hm)
    (by rw [hbase, heq]; exact hardDefaults_match _) (by rw [hbase]; exact untouched_of_defaults hcount)
  have hregs : resetRegs true s.cart.board (hardDefaults s.cart.board) = hardDefaults s.cart.board := by
    cases s.cart.board <;> rfl
  unfold resetBlock transact
  beta_reduce
  rw [if_neg (by simp), hs, hbase, heq]
  simp only [State.withBoardWindows, dropEvents, clearOutput_cart, hregs]
  rfl

/-- A soft reset of a modelled board whose windows follow its registers (R450, R453). -/
theorem resetBlock_soft {s : State} (hp : s.powered = true) (hm : modelled s.cart.board = true)
    (hr : regsMatch s.cart.board s.board) (hw : s.windows = boardWindows s.cart s.board) :
    resetBlock false s =
      State.withBoardWindows
        { s with
          bus := boardTable s.cart, board := resetRegs false s.cart.board s.board, result := .done }
        [] := by
  have hu : Untouched { clearOutput s with bus := baseBus s.cart } :=
    untouched_of_windows (regs := s.board) hr hw
  obtain ⟨es, hs⟩ := subReset_modelled (hard := false) (s := { clearOutput s with bus := baseBus s.cart })
    rfl hm hr hu
  unfold resetBlock transact
  beta_reduce
  rw [if_neg (by simp [hp])]
  have hbase : resetBase false (clearOutput s) = { clearOutput s with bus := baseBus s.cart } := rfl
  rw [hbase, hs]
  rfl

/-- A load of a stream that parses, on a modelled board whose windows follow its registers (R405, R406): the
stream's registers and RAM, and the windows of the registers. -/
theorem loadBlock_ready {s : State} {b : Board} {got : Collected} {r : BoardRegs} (hm : modelled b = true)
    (hR : s.Ready b) (hp : parseStream s.cart s.stream = .ok got) (hr : regsMatch b r)
    (hg : got.reg.getD s.board = r) :
    loadBlock s =
      State.withBoardWindows
        { s with
          board := r
          ramWrk := (got.wrk.map (Memory.ofBytes 0)).getD s.ramWrk
          ramChr := if s.cart.chrSize = 0 then (got.crm.map (Memory.ofBytes 0)).getD s.ramChr else s.ramChr
          result := .done }
        [] := by
  have hpow := hR.powered
  have hreg : loadRegs got.reg (clearOutput s) = { clearOutput s with board := r } := by
    cases h : got.reg <;> rw [h] at hg <;> cases hg <;> rfl
  have happ : applyLoad got (clearOutput s) = { s with
      board := r
      ramWrk := (got.wrk.map (Memory.ofBytes 0)).getD s.ramWrk
      ramChr := if s.cart.chrSize = 0 then (got.crm.map (Memory.ofBytes 0)).getD s.ramChr else s.ramChr
      result := .done, events := [] } := by
    unfold applyLoad
    rw [hreg]
    have hw : loadRam .wrk got.wrk { clearOutput s with board := r } =
        { clearOutput s with board := r, ramWrk := (got.wrk.map (Memory.ofBytes 0)).getD s.ramWrk } := by
      cases got.wrk <;> rfl
    rw [hw]
    cases got.crm with
    | none => simp [loadRam, clearOutput]
    | some d =>
      by_cases hz : s.cart.chrSize = 0
      · simp [loadRam, Cartridge.writable, Cartridge.chrIsRam, hz, State.setRam, clearOutput]
      · simp [loadRam, Cartridge.writable, Cartridge.chrIsRam, hz, clearOutput]
  have h0 := untouched_of_windows (s := s) hR.wf.regs (hR.settled hpow).2
  obtain ⟨es, he⟩ := boardUpdate_modelled (s := applyLoad got (clearOutput s))
    (by rw [happ]; show modelled s.cart.board = true; rw [hR.board]; exact hm)
    (by rw [happ]; show regsMatch s.cart.board r; rw [hR.board]; exact hr)
    (by rw [happ]; exact ⟨⟨h0.counts.prg, h0.counts.chr, h0.counts.nmt, h0.counts.wrk⟩, h0.nmtHome, h0.wrk,
      h0.prg, h0.chr, h0.nmt⟩)
  rcases loadBlock_cases hpow with ⟨c, h', -⟩ | ⟨got', t, h', hb, hl⟩ | ⟨got', q, h', hb, -⟩ <;>
    rw [hp] at h' <;> cases h'
  · rw [he] at hb
    cases hb
    rw [hl, happ]
    rfl
  · rw [he] at hb
    cases hb

end Sys2Proof.Machine
end

