-- ==== Sys2Proof/Tests/Slice0.lean ====
section
/-! SUPPORT. The model's own tests. Expected words and values come from spec/30_encoding.md and from the
vectors V1 to V44 and programs P1 to P4 of spec/95_test_vectors.md, named in each docstring; the witnesses at
the end show states that meet the hypotheses of the obligations. -/

namespace Sys2Proof.Tests

open Sys2Proof Sys2Proof.Machine

/-! ### Helpers -/

/-- The ROM of 95_test_vectors.md section 0, at the first and last four bytes of each bank of `unit` bytes: the
byte is the bank's number. Bank 0 holds zeros and lists nothing. -/
def romMarks (unit size : Nat) : Memory :=
  ((List.range (size / unit)).drop 1).flatMap fun k =>
    [0, 1, unit - 4, unit - 3, unit - 1].map fun o => (k * unit + o, BitVec.ofNat 8 k)

/-- A test cartridge: `PRG(prg)`, `CHR(chr)` (or CHR RAM for 0), WRK. -/
def testCart (b : Board) (prg chr wrk : Nat) (m : Mirroring) : Cartridge :=
  { resetCart with
    board := b, prgSize := prg, prgBytes := romMarks 8192 prg, chrSize := chr, chrBytes := romMarks 1024 chr,
    wrkSize := wrk, mirroring := m }

/-- The next state, if there is one. -/
def nextOf (o : Host.Outcome State Fault Refusal) : Option State :=
  match o with
  | .next s => some s
  | .fault _ => none
  | .refused _ => none

/-- The state after an instruction. -/
def after (i : Instr) (s : State) : State := (nextOf (exec i s)).getD s

/-- A cartridge after `POWERON`, all draws 0. -/
def up (c : Cartridge) : State := after .resetHard (State.powerOn c ⟨0, [], [], []⟩ [])

def nromUp : State := up (testCart .nrom 32768 8192 0 .h)
def mmc1Up : State := up (testCart .mmc1 131072 32768 8192 .h)
def uxromUp : State := up (testCart .uxrom 131072 0 8192 .v)
def cnromUp : State := up (testCart .cnrom 32768 32768 0 .h)
def axromUp : State := up (testCart .axrom 262144 0 0 .h)
def menuUp : State := up (testCart menu4 131072 32768 0 .v)

/-- MMC1 with given registers, after a load has recomputed its windows. -/
def mmc1With (r : Mmc1Regs) : State := mmc1Update r { mmc1Up with board := .mmc1 r, events := [] }

/-- `BUS_CONFLICTS` on. -/
def conflicting (s : State) : State :=
  { s with cart := { s.cart with params := { s.cart.params with busConflicts := true } } }

def offsOf (ps : List Page) : List Nat := ps.map Page.off

/-! ### Well-formedness: an ill-formed term for each check (R112, R115, R116) -/

theorem test_wf_refuses_ppu_addresses :
    (Instr.ppuRd 0x4000).wf = false ∧ (Instr.ppuWr 0x4000 0).wf = false ∧ (Instr.chrRd 0x2000).wf = false
    ∧ (Instr.chrWr 0x2000 0).wf = false ∧ (Instr.nmtRd 0x1FFF).wf = false ∧ (Instr.nmtRd 0x3F00).wf = false
    ∧ (Instr.nmtWr 0x1FFF 0).wf = false ∧ (Instr.nmtWr 0x3F00 0).wf = false
    ∧ (Instr.ppuPaletteRd 0x3EFF).wf = false ∧ (Instr.ppuPaletteRd 0x4000).wf = false
    ∧ (Instr.ppuPaletteWr 0x3EFF 0).wf = false ∧ (Instr.ppuPaletteWr 0x4000 0).wf = false := by decide

theorem test_wf_refuses_cpu_addresses :
    (Instr.prgRd 0x7FFF).wf = false ∧ (Instr.wrkRd 0x5FFF).wf = false ∧ (Instr.wrkRd 0x8000).wf = false
    ∧ (Instr.wrkWr 0x5FFF 0).wf = false ∧ (Instr.wrkWr 0x8000 0).wf = false
    ∧ (Instr.nromWrIgnored 0x7FFF 0).wf = false ∧ (Instr.uxromPrgSelect 0x7FFF 0).wf = false
    ∧ (Instr.cnromChrSelect 0x7FFF 0).wf = false ∧ (Instr.axromSelect 0x7FFF 0).wf = false := by decide

theorem test_wf_refuses_mmc1_operands :
    (Instr.mmc1SerialReset 0x7FFF 0x80).wf = false ∧ (Instr.mmc1SerialReset 0x8000 0x7F).wf = false
    ∧ (Instr.mmc1ShiftControl 0x7FFF 0).wf = false ∧ (Instr.mmc1ShiftControl 0xA000 0).wf = false
    ∧ (Instr.mmc1ShiftControl 0x8000 0x80).wf = false ∧ (Instr.mmc1ShiftChr0 0x9FFF 0).wf = false
    ∧ (Instr.mmc1ShiftChr0 0xC000 0).wf = false ∧ (Instr.mmc1ShiftChr0 0xA000 0x80).wf = false
    ∧ (Instr.mmc1ShiftChr1 0xBFFF 0).wf = false ∧ (Instr.mmc1ShiftChr1 0xE000 0).wf = false
    ∧ (Instr.mmc1ShiftChr1 0xC000 0x80).wf = false ∧ (Instr.mmc1ShiftPrg 0xDFFF 0).wf = false
    ∧ (Instr.mmc1ShiftPrg 0xE000 0x80).wf = false := by decide

theorem test_rowFor_refuses_rows_of_other_boards :
    (Instr.cpuRd 0x6000).rowFor .nrom = false ∧ (Instr.cpuWr 0x6000 0).rowFor .nrom = false
    ∧ (Instr.cpuWr 0x8000 0).rowFor .mmc1 = false ∧ (Instr.ppuRd 0).rowFor .nrom = false
    ∧ (Instr.ppuWr 0 0).rowFor .nrom = false ∧ (Instr.nromWrIgnored 0x8000 0).rowFor .mmc1 = false
    ∧ (Instr.mmc1SerialReset 0x8000 0x80).rowFor .nrom = false
    ∧ (Instr.mmc1ShiftControl 0x8000 0).rowFor .uxrom = false
    ∧ (Instr.mmc1ShiftChr0 0xA000 0).rowFor .uxrom = false
    ∧ (Instr.mmc1ShiftChr1 0xC000 0).rowFor .uxrom = false
    ∧ (Instr.mmc1ShiftPrg 0xE000 0).rowFor .uxrom = false
    ∧ (Instr.uxromPrgSelect 0x8000 0).rowFor .cnrom = false
    ∧ (Instr.cnromChrSelect 0x8000 0).rowFor .axrom = false
    ∧ (Instr.axromSelect 0x8000 0).rowFor menu4 = false := by decide

/-! ### Decoding: words written out field by field, `cls z h A D` (R110, R111, R115, R116) -/

/-- R111, V40: the classes whose word is a row of its own. -/
theorem test_decode_classes :
    decode .nrom 0b0001_000_0_0010000000000010_00000000 = .ok (.cpuRd 0x2002)
    ∧ decode .nrom 0b0010_000_0_0100000000010100_00000010 = .ok (.cpuWr 0x4014 2)
    ∧ decode menu4 0b0010_000_0_1000000000000000_00000010 = .ok (.cpuWr 0x8000 2)
    ∧ decode .nrom 0b1000_000_1_0000000000000000_00000000 = .ok .resetHard
    ∧ decode .nrom 0b1000_000_0_0000000000000000_00000000 = .ok .resetSoft
    ∧ decode .nrom 0b1001_000_0_0000000000000000_00000000 = .ok .save
    ∧ decode .nrom 0b1010_000_0_0000000000000000_00000000 = .ok .load := by decide

/-- R111, V40: the two PPU transactions, before their sub-row is picked. -/
theorem test_decode_ppu_transactions :
    decodeClass 0b0011_000_0_0010010000000000_00000000 = .ok (.ppuRd 0x2400)
    ∧ decodeClass 0b0100_000_0_0000000000000000_10011001 = .ok (.ppuWr 0 0x99) := by decide

/-- R116: the CPU sub-rows by address. -/
theorem test_decode_cpu_rows :
    decode .nrom 0b0001_000_0_1111111111111100_00000000 = .ok (.prgRd 0xFFFC)
    ∧ decode .nrom 0b0001_000_0_0110000000000000_00000000 = .ok (.wrkRd 0x6000)
    ∧ decode .nrom 0b0010_000_0_0111111111111111_10011001 = .ok (.wrkWr 0x7FFF 0x99) := by decide

/-- R116, R113: the PPU sub-rows by address. -/
theorem test_decode_ppu_rows :
    decode .nrom 0b0011_000_0_0001010000000000_00000000 = .ok (.chrRd 0x1400)
    ∧ decode .nrom 0b0100_000_0_0000000000000000_10011001 = .ok (.chrWr 0 0x99)
    ∧ decode .nrom 0b0011_000_0_0011100000000000_00000000 = .ok (.nmtRd 0x3800)
    ∧ decode .nrom 0b0100_000_0_0010110000000101_00110011 = .ok (.nmtWr 0x2C05 0x33)
    ∧ decode .nrom 0b0011_000_0_0011111100000000_00000000 = .ok (.ppuPaletteRd 0x3F00)
    ∧ decode .nrom 0b0100_000_0_0011111111111111_00000001 = .ok (.ppuPaletteWr 0x3FFF 1) := by decide

/-- R115: the rows of the boards. -/
theorem test_decode_board_rows :
    decode .nrom 0b0010_000_0_1000000000000000_00000101 = .ok (.nromWrIgnored 0x8000 5)
    ∧ decode .uxrom 0b0010_000_0_1100000000000000_00001100 = .ok (.uxromPrgSelect 0xC000 0x0C)
    ∧ decode .cnrom 0b0010_000_0_1000000000000000_00000011 = .ok (.cnromChrSelect 0x8000 3)
    ∧ decode .axrom 0b0010_000_0_1000000000000000_00010011 = .ok (.axromSelect 0x8000 0x13) := by decide

/-- R115: MMC1's rows: `D[7]` first, then `A[14:13]`. -/
theorem test_decode_mmc1_rows :
    decode .mmc1 0b0010_000_0_1110000000000000_10000001 = .ok (.mmc1SerialReset 0xE000 0x81)
    ∧ decode .mmc1 0b0010_000_0_1001111111111111_00000001 = .ok (.mmc1ShiftControl 0x9FFF 1)
    ∧ decode .mmc1 0b0010_000_0_1010000000000000_00000001 = .ok (.mmc1ShiftChr0 0xA000 1)
    ∧ decode .mmc1 0b0010_000_0_1100000000000000_00000001 = .ok (.mmc1ShiftChr1 0xC000 1)
    ∧ decode .mmc1 0b0010_000_0_1110000000000000_00000001 = .ok (.mmc1ShiftPrg 0xE000 1) := by decide

/-- V41: the reserved words, each by the check that fails. -/
theorem test_decode_rejects :
    decode .nrom 0x00000000 = .error (.reservedClass 0) ∧ decode .nrom 0x50000000 = .error (.reservedClass 5)
    ∧ decode .nrom 0x12000000 = .error (.reservedBits 1) ∧ decode .nrom 0x11000000 = .error (.reservedMode 1)
    ∧ decode .nrom 0x10FFFC01 = .error (.reservedData 1)
    ∧ decode .nrom 0x30400000 = .error (.reservedAddress 0x4000)
    ∧ decode .nrom 0x81008000 = .error (.reservedAddress 0x80) := by decide

/-- The table interface decodes on the board of `State.reset`. -/
theorem test_decodeTableWord :
    decodeTableWord 32 0x20A00001 = some (.mmc1ShiftChr0 0xA000 1) ∧ decodeTableWord 32 0 = none := by decide

/-! ### One step per instruction -/

/-- V11: a `System` write sets only the latch. -/
theorem test_cpuWr_system : after (.cpuWr 0x4014 2) nromUp = { nromUp with latch := 2 } := by decide

/-- V11: a `System` read drives a draw into the latch. -/
theorem test_cpuRd_system :
    let t := after (.cpuRd 0x2002) nromUp
    t.result = .byte t.latch ∧ t.draws = nromUp.draws + 1 := ⟨rfl, by decide⟩

/-- V10: open bus reads the latch. -/
theorem test_cpuRd_open_bus :
    (after (.cpuRd 0x5FFF) (after (.cpuWr 0x4020 0xA5) nromUp)).result = .byte 0xA5 := by decide

/-- V24: MMC1's vector byte comes from the last bank. -/
theorem test_prgRd : (after (.prgRd 0xFFFC) mmc1Up).result = .byte 0x0F := by decide

/-- V23: a 16 KiB PRG repeats under the 32 KiB window. -/
theorem test_prgRd_repeats :
    let s := up (testCart .nrom 16384 8192 0 .h)
    (after (.prgRd 0xC000) s).result = .byte 0 ∧ (after (.prgRd 0xFFFC) s).result = .byte 1 := by decide

/-- V10: with no WRK, `$6000` is open bus. -/
theorem test_wrkRd_absent : (after (.wrkRd 0x6000) (after (.prgRd 0xE000) nromUp)).result = .byte 3 := by decide

/-- V12: WRK keeps what is written. -/
theorem test_wrkWr :
    (after (.wrkWr 0x7FFF 0x99) mmc1Up).ramWrk = [(8191, 0x99)]
    ∧ (after (.wrkRd 0x7FFF) (after (.wrkWr 0x7FFF 0x99) mmc1Up)).result = .byte 0x99 := by decide

/-- P2 lines 13 and 14: CHR ROM reads under two 4 KiB banks. -/
theorem test_chrRd :
    let s := mmc1With ⟨0x1E, 3, 5, 2, 0, 0⟩
    (after (.chrRd 0) s).result = .byte 0x0C ∧ (after (.chrRd 0x1400) s).result = .byte 0x15 := by decide

/-- V17, P3: CHR ROM is not written, CHR RAM is. -/
theorem test_chrWr :
    (after (.chrWr 0 0xFF) nromUp).ramChr = [] ∧ (after (.chrWr 0 0x99) axromUp).ramChr = [(0, 0x99)] := by
  decide

/-- V16: horizontal nametables, and the mirror at `$3C00`. -/
theorem test_nmtRd :
    let s := after (.nmtWr 0x2C00 2) (after (.nmtWr 0x2000 1) nromUp)
    (after (.nmtRd 0x2400) s).result = .byte 1 ∧ (after (.nmtRd 0x2800) s).result = .byte 2
    ∧ (after (.nmtRd 0x3C00) s).result = .byte 2 := by decide

/-- P3 line 8: the second screen of AxROM. -/
theorem test_nmtWr :
    (after (.nmtWr 0x2C05 0x33) (after (.axromSelect 0x8000 0x13) axromUp)).ramNmt = [(1029, 0x33)] := by
  decide

/-- V16: the palette is refused, and the mark stays. -/
theorem test_palette :
    after (.ppuPaletteRd 0x3F00) nromUp = { nromUp with refused := true, result := .refused .ppuPalette }
    ∧ after (.ppuPaletteWr 0x3F00 1) nromUp
      = { nromUp with refused := true, result := .refused .ppuPalette } := by decide

/-- V23: NROM ignores a write. -/
theorem test_nromWrIgnored : after (.nromWrIgnored 0x8000 1) nromUp = { nromUp with latch := 1 } := by decide

/-- V26: the serial reset from `ctrl = $08`, `prg = 5`. -/
theorem test_mmc1SerialReset :
    let t := after (.mmc1SerialReset 0x9FFF 0xFF) (mmc1With ⟨0x08, 0, 0, 5, 0, 0⟩)
    t.board = .mmc1 ⟨0x0C, 0, 0, 5, 0, 0⟩ ∧ offsOf t.prg = [81920, 90112, 114688, 122880] ∧ t.events = [] := by
  decide

/-- V25: the second write of `MMC1W $8000, #$0E`. -/
theorem test_mmc1ShiftControl_shifts :
    (after (.mmc1ShiftControl 0x8000 1) (mmc1With ⟨0x0C, 0, 0, 0, 0, 1⟩)).board
      = .mmc1 ⟨0x0C, 0, 0, 0, 2, 2⟩ := by decide

/-- V25: its fifth write. -/
theorem test_mmc1ShiftControl_commits :
    let t := after (.mmc1ShiftControl 0x8000 0) (mmc1With ⟨0x0C, 0, 0, 0, 14, 4⟩)
    t.board = .mmc1 ⟨0x0E, 0, 0, 0, 0, 0⟩ ∧ offsOf t.nmt = [0, 1024, 0, 1024]
    ∧ t.events = [.ppuUpdate, .ppuSetMirroring ⟨0, 1, 0, 1⟩] := by decide

/-- V26: `MMC1W $A000, #$03` in 4 KiB mode, the fifth write. -/
theorem test_mmc1ShiftChr0 :
    let t := after (.mmc1ShiftChr0 0xA000 0) (mmc1With ⟨0x10, 0, 0, 5, 3, 4⟩)
    (offsOf t.chr).take 4 = [12288, 13312, 14336, 15360] ∧ t.events = [.ppuUpdate] := by decide

/-- V26: `MMC1W $C000, #$05`, the fifth write. -/
theorem test_mmc1ShiftChr1 :
    let t := after (.mmc1ShiftChr1 0xC000 0) (mmc1With ⟨0x10, 3, 0, 5, 5, 4⟩)
    (offsOf t.chr).drop 4 = [20480, 21504, 22528, 23552] ∧ (after (.chrRd 0x1000) t).result = .byte 0x14 := by
  decide

/-- V26: `MMC1W $E000, #$05` in PRG mode 0, the fifth write: 32 KiB bank 2. -/
theorem test_mmc1ShiftPrg :
    let t := after (.mmc1ShiftPrg 0xE000 0) (mmc1With ⟨0, 0, 0, 0, 5, 4⟩)
    (after (.prgRd 0x8000) t).result = .byte 8 ∧ (after (.prgRd 0xC000) t).result = .byte 0x0A
    ∧ t.events = [] := by decide

/-- V27: `WR $8000, #$09` maps bank 1 and keeps the last bank. -/
theorem test_uxromPrgSelect :
    let t := after (.uxromPrgSelect 0x8000 9) uxromUp
    t.board = .uxrom 9 ∧ offsOf t.prg = [16384, 24576, 114688, 122880] ∧ t.events = [] := by decide

/-- V27: three banks: the last one the mask reaches is bank 1. -/
theorem test_uxrom_three_banks :
    (after (.prgRd 0xFFFC) (up (testCart .uxrom 49152 0 0 .v))).result = .byte 3 := by decide

/-- V28, V20. -/
theorem test_cnromChrSelect :
    let t := after (.cnromChrSelect 0x8000 2) cnromUp
    (after (.chrRd 0x400) t).result = .byte 0x11 ∧ t.events = [.ppuUpdate] := by decide

/-- V15: the two columns of the second and third lines. -/
theorem test_bus_conflicts :
    (after (.cnromChrSelect 0xA000 2) cnromUp).board = .cnrom 2
    ∧ (after (.cnromChrSelect 0xA000 2) (conflicting cnromUp)).board = .cnrom 0
    ∧ (after (.cnromChrSelect 0xE000 3) (conflicting cnromUp)).board = .cnrom 3 := by decide

/-- V29. -/
theorem test_axromSelect :
    let t := after (.axromSelect 0x8000 0x13) axromUp
    (after (.prgRd 0x8000) t).result = .byte 0x0C ∧ offsOf t.nmt = [1024, 1024, 1024, 1024]
    ∧ t.events = [.ppuUpdate, .ppuSetMirroring ⟨1, 1, 1, 1⟩] := by decide

/-- V21: a four-screen AxROM. -/
theorem test_axrom_four_screens :
    let s := up (testCart .axrom 262144 0 0 .four)
    offsOf s.nmt = [0, 1024, 2048, 3072] ∧ (after (.axromSelect 0x8000 0x10) s).nmt = s.nmt
    ∧ (after (.axromSelect 0x8000 0x10) s).events = [] := by decide

/-- V24: MMC1 after `POWERON`. -/
theorem test_resetHard :
    mmc1Up.board = .mmc1 ⟨0x0C, 0, 0, 0, 0, 0⟩ ∧ offsOf mmc1Up.prg = [0, 8192, 114688, 122880]
    ∧ offsOf mmc1Up.nmt = [0, 0, 0, 0] ∧ mmc1Up.events = [] ∧ mmc1Up.powered = true := by decide

/-- V43: a hard reset of UxROM keeps WRK and returns to bank 0. -/
theorem test_resetHard_keeps_ram :
    let t := after .resetHard (after (.wrkWr 0x6000 0x11) (after (.uxromPrgSelect 0x8000 5) uxromUp))
    t.board = .uxrom 0 ∧ t.ramWrk = [(0, 0x11)] := by decide

/-- V30: the menu moves on, and wraps after the last image. -/
theorem test_resetSoft :
    (after (.prgRd 0x8000) (after .resetSoft menuUp)).result = .byte 4
    ∧ (after .resetSoft { menuUp with board := .menu 3 }).board = .menu 0 := by decide

/-- V42: before power, a soft reset is refused. -/
theorem test_resetSoft_unpowered :
    (after .resetSoft { menuUp with powered := false }).result = .refused .notPoweredOn := by decide

/-- P4 line 8. -/
theorem test_save :
    (after .save { menuUp with board := .menu 2 }).result
      = .stream [0x52, 0x45, 0x47, 0x00, 0x01, 0x00, 0x00, 0x00, 0x02] := by decide

/-- V37: an unknown chunk is skipped; `prg = 4` maps bank 4. -/
theorem test_load :
    let t := after .load { uxromUp with stream :=
      [0x58, 0x59, 0x5A, 0x00, 0x02, 0x00, 0x00, 0x00, 0xAA, 0xBB,
       0x52, 0x45, 0x47, 0x00, 0x01, 0x00, 0x00, 0x00, 0x04] }
    t.board = .uxrom 4 ∧ (after (.prgRd 0x8000) t).result = .byte 8 ∧ t.result = .done ∧ t.events = [] := by
  decide

/-- V38: a value outside its range, an absent `REG`, a wrong bulk method. -/
theorem test_load_rejects :
    (after .load { mmc1Up with stream :=
      [0x52, 0x45, 0x47, 0x00, 0x06, 0x00, 0x00, 0x00, 0x0C, 0, 0, 0, 3, 1] }).result
        = .error (.corruptSaveState .illegalReg)
    ∧ (after .load { cnromUp with stream := [] }).result = .error (.corruptSaveState .missingReg)
    ∧ (after .load { axromUp with stream :=
      [0x52, 0x45, 0x47, 0x00, 1, 0, 0, 0, 0, 0x43, 0x52, 0x4D, 0x00, 1, 0, 0, 0, 2] }).result
        = .error (.corruptSaveState .bulkMethod) := by decide

/-! ### Steps -/

/-- V42: a reserved word is refused first, before the power check. -/
theorem test_step_reserved_first :
    ((nextOf (step ({ nromUp with powered := false }.withFetchWord 32 0x50000000))).getD nromUp).result
      = .refused .reservedEncoding := by decide

/-- P2 line 2, from `State.reset`. -/
theorem test_step_from_reset :
    ((nextOf (step (State.reset.withFetchWord 32 0x20600042))).getD State.reset).ramWrk = [(0, 0x42)] := by
  decide

/-- A hard reset of the reset cartridge at power-on gives `State.reset`. -/
theorem test_reset_state : nextOf (exec .resetHard (State.powerOn resetCart ⟨0, [], [], []⟩ []))
    = some State.reset := by decide

/-! ### Windows, table, mirroring, host side -/

/-- V1, V3, V9. -/
theorem test_mask :
    [0, 1, 3, 4, 5, 255, 2 ^ 32 + 1, 0xFFFFFFFF].map (maskIndex · 32768 8192) = [0, 1, 3, 0, 1, 3, 1, 3]
    ∧ [2, 3, 0xFFFFFFFF].map (maskIndex · 49152 16384) = [0, 1, 1]
    ∧ [32768, 65536, 131072, 262144].map (maskIndex 0x0F · 16384) = [1, 3, 7, 15] := by decide

/-- V4: an undersized Source repeats. -/
theorem test_undersized :
    offsOf (swapBank .prg 32768 0 5 (up (testCart .nrom 16384 8192 0 .h))).prg = [0, 8192, 0, 8192] := by decide

/-- V6. -/
theorem test_getBank :
    let s := swapBank .prg 16384 0x4000 9 mmc1Up
    getBank .prg 16384 0x4000 s = .ok 9 ∧ getBank .prg 8192 0x4000 s = .error (.refused .getBankGranularity)
    ∧ getBank .prg 8192 0x6000 s = .error (.refused .getBankGranularity)
    ∧ getBank .prg 16384 0x6000 s = .error (.refused .illFormedSwap) := by decide

/-- V7. -/
theorem test_wellFormedSwap :
    wellFormedSwap .prg 2048 0 = false ∧ wellFormedSwap .prg 16384 0x2000 = true
    ∧ wellFormedSwap .chr 1024 0x0C00 = true ∧ wellFormedSwap .prg 65536 0 = false := by decide

/-- V13: a board of two overlapping `Map` calls. -/
theorem test_map_overlap :
    let s := up (testCart (.pattern ⟨[openBusMap 0x5000 0x5FFF (.const 0xFF),
      openBusMap 0x5800 0x58FF .openBusHigh], false⟩) 32768 8192 0 .h)
    [0x5000, 0x5800, 0x58FF, 0x5900].map (fun a => (after (.cpuRd a) s).result)
      = [.byte 0xFF, .byte 0x58, .byte 0x58, .byte 0xFF] := by decide

/-- V14. -/
theorem test_map_refusals :
    mapLegal ⟨0x4000, 0x4FFF, some (.const 0), none⟩ = false
    ∧ mapLegal ⟨0x9000, 0x8000, some (.const 0), none⟩ = false
    ∧ mapLegal ⟨0x5000, 0x5FFF, some .prgWin, none⟩ = false
    ∧ mapLegal ⟨0x4020, 0x4020, some (.const 0), none⟩ = true := by decide

/-- V19. -/
theorem test_mirror_helpers :
    [0, 1, 0xFE].map (helperMode .standard .hv) = [.h, .v, .h]
    ∧ [0, 1].map (helperMode .standard .vh) = [.v, .h]
    ∧ [2, 3].map (helperMode .standard .hv01) = [.s0, .s1]
    ∧ [1, 6].map (helperMode .standard .vh01) = [.h, .s0] := by decide

/-- V31, V32, V33: the signature, the sizes, flags bytes `$F4 $F0` and `$09 $00`. -/
theorem test_identification :
    identify resetParams [] [0x4E, 0x45, 0x53, 0x00] = .error (.invalidHeader .signature)
    ∧ identify resetParams [] [0x4E, 0x45, 0x53, 0x1A, 0] = .error (.invalidHeader .size)
    ∧ (readHeader resetParams [0x4E, 0x45, 0x53, 0x1A, 2, 1, 0xF4, 0xF0]).mapperId = 255
    ∧ (readHeader resetParams [0x4E, 0x45, 0x53, 0x1A, 2, 1, 0xF4, 0xF0]).trainer = true
    ∧ (readHeader resetParams [0x4E, 0x45, 0x53, 0x1A, 2, 1, 0x09, 0]).mirroring = .four := by decide

/-- V34. -/
theorem test_dirty :
    let h (k : Nat) (v : Byte) : List Byte := (List.replicate 16 0).set k v
    dirtyHeader 10 (h 12 0x41) = true ∧ dirtyHeader 10 (h 9 0x41) = false ∧ dirtyHeader 10 (h 15 1) = false
    ∧ dirtyHeader 10 (h 13 0x7E) = true ∧ dirtyHeader 10 (h 13 0x7F) = false := by decide

/-- V35, V26. -/
theorem test_factory :
    let p := { resetParams with catalogue := ⟨[0, 1, 2, 3, 4, 7], by decide⟩ }
    [create p (.number 4) 32768 8192, create p (.number 9999) 32768 8192, create p (.number 1) 524288 8192]
        |>.map (fun o => match o with | .next _ => none | .fault r => some (.inl r) | .refused r => some (.inr r))
      = [some (Sum.inr (.boardNotModelled 4)), some (.inl (.error (.unsupportedMapper 9999))),
         some (.inr (.boardNotModelled 1))] := by decide

/-- R262's line-swap of `r = 2` with `X = 1`, `O = 0`; R256's table of image starts, and past its end; R10's bit
field; R158's refusal inside an index. -/
theorem test_index :
    evalIndex [2] (.scrambled 0 1 0) nromUp = .ok 3
    ∧ [0, 1, 2].map (fun m => evalIndex [m] ((Index.reg 0).table (.const 9) 0 [4, 6]) nromUp) = [.ok 4, .ok 6, .ok 9]
    ∧ evalIndex [0xB4] (.bits 6 4 (.reg 0)) nromUp = .ok 3
    ∧ evalIndex [] (.op .add (.const 1) (.getBank .prg 8192 0x2000)) nromUp
      = .error (.refused .getBankGranularity) := by decide

/-- R251, R254: `Update` over the latch and the sub-registers: bank `2 * sub[1] + latch[0]`. -/
theorem test_latchUpdate :
    let u := Action.swap .prg 8192 0 (.op .or (.op .shl (.reg 2) (.const 1)) (.bits 0 0 (.reg 0)))
    let s := up (testCart (.latch ⟨0x8000, 0x9FFF, 0xA000, 0xBFFF, 2, 1, [u], 1, [0, 0], false⟩) 32768 8192 0 .h)
    let t := after (.cpuWr 0xA000 1) s
    (offsOf s.prg).head? = some 8192 ∧ t.board = .latch 1 [0, 1] ∧ (offsOf t.prg).head? = some 24576 := by decide

/-- R291: a write function of another board's registers changes no register (assumption 25). -/
theorem test_foreign_write :
    let s := { nromUp with bus := [⟨0x8000, 0xFFFF, none, some (.boardWrite .uxrom)⟩] }
    after (.cpuWr 0x8000 5) s = { s with latch := 5 } := by decide

/-- R298: the gate of WRK, shut and open. -/
theorem test_mmc1_gate :
    let s := up { testCart .mmc1 131072 32768 8192 .h with params := { resetParams with mmc1WramGate := true } }
    (after (.wrkWr 0x6000 7) { s with board := .mmc1 ⟨0x0C, 0, 0, 0x10, 0, 0⟩ }).ramWrk = []
    ∧ (after (.wrkWr 0x6000 7) { s with board := .mmc1 ⟨0x0C, 0, 0, 0x0F, 0, 0⟩ }).ramWrk = [(0, 7)] := by decide

/-- V25: the words of `MMC1W $8000, #$0E`. -/
theorem test_mmc1w :
    (Pseudo.mmc1w 0x8000 0x0E).expand.map Line.word
      = [0x20800000, 0x20800001, 0x20800001, 0x20800001, 0x20800000]
    ∧ (Line.wr 0x8000 0x05).text = "WR $8000, #$05" := by decide

/-- The CRC-32 check value (R367: the standard reflected CRC) of the digits 1 to 9. -/
theorem test_crc32 : crc32 [0x31, 0x32, 0x33, 0x34, 0x35, 0x36, 0x37, 0x38, 0x39] = 0xCBF43926 := by
  decide +kernel

/-! ### The states of the witnesses -/

theorem ready_nrom : nromUp.Ready .nrom :=
  ⟨⟨by decide, by decide, by decide, by decide, by decide, by decide, by decide, trivial⟩,
   fun _ => by decide +kernel, by decide, by decide⟩

theorem ready_mmc1 : mmc1Up.Ready .mmc1 :=
  ⟨⟨by decide, by decide, by decide, by decide, by decide, by decide, by decide, ⟨by decide, by decide⟩⟩,
   fun _ => by decide +kernel, by decide, by decide⟩

theorem ready_uxrom : uxromUp.Ready .uxrom :=
  ⟨⟨by decide, by decide, by decide, by decide, by decide, by decide, by decide, trivial⟩,
   fun _ => by decide +kernel, by decide, by decide⟩

theorem ready_cnrom : cnromUp.Ready .cnrom :=
  ⟨⟨by decide, by decide, by decide, by decide, by decide, by decide, by decide, trivial⟩,
   fun _ => by decide +kernel, by decide, by decide⟩

theorem ready_axrom : axromUp.Ready .axrom :=
  ⟨⟨by decide, by decide, by decide, by decide, by decide, by decide, by decide, trivial⟩,
   fun _ => by decide +kernel, by decide, by decide⟩

theorem ready_menu : menuUp.Ready menu4 :=
  ⟨⟨by decide, by decide, by decide, by decide, by decide, by decide, by decide, fun _ => by decide⟩,
   fun _ => by decide +kernel, by decide, by decide⟩

/-! ### Witnesses: the hypotheses of each obligation are met, each clause by itself -/

theorem witness_TransactionDecodesFromItsWord :
    (Instr.ppuRd 0x3FFF).isClass = true ∧ (Instr.ppuRd 0x3FFF).wf = true
    ∧ (Instr.cpuWr 0xFFFF 0xFF).isClass = true ∧ (Instr.cpuWr 0xFFFF 0xFF).wf = true := by decide

theorem witness_RowDecodesFromItsWord :
    (Instr.nromWrIgnored 0xFFFF 0xFF).rowFor .nrom = true ∧ (Instr.mmc1SerialReset 0x8000 0x80).rowFor .mmc1 = true
    ∧ (Instr.uxromPrgSelect 0x8000 0).rowFor .uxrom = true ∧ (Instr.cnromChrSelect 0x8000 0).rowFor .cnrom = true
    ∧ (Instr.axromSelect 0xFFFF 0).rowFor .axrom = true ∧ (Instr.cpuWr 0x8000 0).rowFor menu4 = true
    ∧ (Instr.nmtRd 0x3EFF).rowFor .mmc1 = true ∧ (Instr.load).rowFor .mmc1 = true := by decide

theorem witness_DecodedWordIsTheEncoding : decode .mmc1 0x20800080 = .ok (.mmc1SerialReset 0x8000 0x80) := by
  decide

/-- `CPU_RD $8000` and a reserved word, as waiting transactions. -/
def waiting : State := { nromUp with pending := [⟨0x50000000, []⟩, ⟨0x10800000, []⟩] }

theorem witness_ReservedWordsAreRefused :
    (waiting.pending = ⟨0x50000000, []⟩ :: [⟨0x10800000, []⟩] ∧ ReservedWord 0x50000000)
    ∧ ¬ ReservedWord 0x303F0000
    ∧ (0x3F00 ≤ (0x3F00 : Addr).toNat ∧ (0x3FFF : Addr).toNat < 0x4000 ∧ nromUp.powered = true) := by
  unfold ReservedWord
  decide

theorem witness_StepRunsTheNextTransaction :
    ({ waiting with pending := [⟨0x10800000, []⟩] } : State).pending = ⟨0x10800000, []⟩ :: []
    ∧ decode waiting.cart.board 0x10800000 = .ok (.prgRd 0x8000) ∧ nromUp.pending = [] := by decide

theorem witness_RunAnswersEveryWaitingTransaction : 2 ≤ waiting.pending.length := by decide

/-- A cartridge file of 16 KiB of PRG zeros, with the flags bytes 0: NROM with CHR RAM. -/
def nromFile : List Byte :=
  [0x4E, 0x45, 0x53, 0x1A, 1, 0, 0, 0, 0, 0, 0, 0, 0, 0, 0, 0] ++ List.replicate 16384 0

/-- What identification gives that file: no check fails, and the CRC goes to the database. -/
theorem identify_nromFile (db : List DbEntry) :
    let h := readHeader resetParams nromFile
    let crc := crc32 (crcPayload resetParams h nromFile)
    identify resetParams db nromFile = .ok (withDatabase (dbLookup db crc) h crc nromFile) := by
  have hs : sizesOk (readHeader resetParams nromFile) nromFile = true := by
    have hl : nromFile.length = 16400 := by
      rw [nromFile, List.length_append, List.length_replicate]
      rfl
    rw [sizesOk, hl]
    rfl
  have hg : signatureOk nromFile = true := rfl
  simp [identify, hs, hg]

/-- The boot of that file. -/
def nromBoot : BootInput := ⟨resetParams, [], nromFile, none, none, ⟨0, [], [], []⟩, [⟨0x10FFFC00, []⟩]⟩

theorem witness_boot : ∃ s, boot nromBoot = .next s := by
  have h := identify_nromFile []
  simp only [boot, show nromBoot.params = resetParams from rfl, show nromBoot.db = [] from rfl,
    show nromBoot.file = nromFile from rfl, h]
  exact ⟨_, rfl⟩

theorem witness_UnpoweredTransactionsAreRefused :
    (({ nromUp with powered := false } : State).powered = false ∧ Instr.prgRd 0x8000 ≠ .resetHard
      ∧ modelled nromUp.cart.board = true ∧ nextOf (exec .resetHard nromUp) = some nromUp
      ∧ nextOf (exec .resetSoft nromUp) = some nromUp ∧ nromUp.powered = true)
    ∧ ∃ s, boot nromBoot = .next s := ⟨by decide, witness_boot⟩

/-- A completed step, a refused step, and a step after a refusal. -/
theorem witness_RefusalMarkIsSticky :
    (∃ t, step (nromUp.withFetchWord 32 0x10800000) = .next t ∧ ∀ r, t.result ≠ .refused r)
    ∧ (∃ t, step waiting = .next t ∧ t.result = .refused .reservedEncoding)
    ∧ ∃ t, step { waiting with refused := true, pending := [⟨0x10800000, []⟩] } = .next t :=
  ⟨⟨_, rfl, fun _ => nofun⟩, ⟨_, rfl, rfl⟩, ⟨_, rfl⟩⟩

theorem witness_RefusalLeavesTheState :
    ∃ t, exec (.ppuPaletteRd 0x3F00) nromUp = .next t ∧ t.result = .refused .ppuPalette := ⟨_, rfl, by decide⟩

theorem witness_OnlyLoadReturnsAnError : Instr.save ≠ .load := by decide

/-- A UxROM with a stream beside the transaction. -/
def loading (bs : List Byte) : State := { uxromUp with stream := bs }

/-- The failing streams: none, 1 and 7 bytes of a header, a length one too large, two `REG` chunks. -/
theorem witness_FailedLoadLeavesTheState :
    (∃ t, exec .load (loading []) = .next t ∧ t.result = .error (.corruptSaveState .missingReg))
    ∧ ((loading []).powered = true ∧ hasRegs (loading []).cart.board = true ∧ (loading []).stream = [])
    ∧ (0 < (loading [0x52]).stream.length ∧ (loading [0x52, 0x45, 0x47, 0, 1, 0, 0]).stream.length < 8)
    ∧ ([5].length < 2 ∧ 2 < 2 ^ 32
      ∧ (loading [0x52, 0x45, 0x47, 0, 2, 0, 0, 0, 5]).stream = bytes32 tagReg ++ bytes32 2 ++ [5])
    ∧ (loading []).cart.board = .uxrom
    ∧ (loading [0x52, 0x45, 0x47, 0, 1, 0, 0, 0, 5, 0x52, 0x45, 0x47, 0, 1, 0, 0, 0, 6]).stream
      = bytes32 tagReg ++ bytes32 1 ++ [5] ++ (bytes32 tagReg ++ bytes32 1 ++ [6]) :=
  ⟨⟨_, rfl, by decide⟩, by decide⟩

/-- A chunk as its bytes. -/
def chunk (tag : Nat) (payload : List Byte) : List Byte := bytes32 tag ++ bytes32 payload.length ++ payload

/-- The failing chunks, each with bytes behind it: `REG` without a byte, the first illegal value of each MMC1 register
and of the menu, `WRK` and `CRM` with method 2 and one byte short, and the same chunk twice. -/
theorem witness_FailedLoadLeavesTheState_chunks :
    ((loading (chunk tagReg [] ++ [1])).stream = bytes32 tagReg ++ bytes32 0 ++ [] ++ [1]
      ∧ (loading []).powered = true ∧ modelled (loading []).cart.board = true
      ∧ ([] : List Byte).length < (regBytes (hardDefaults (loading []).cart.board)).length)
    ∧ (mmc1Up.cart.board = .mmc1 ∧ 32 ≤ (32 : Byte).toNat ∧ 5 ≤ (5 : Byte).toNat
      ∧ 2 ^ (4 : Byte).toNat ≤ (16 : Byte).toNat)
    ∧ (menuUp.cart.board = menu4 ∧ 4 ≤ (4 : Byte).toNat)
    ∧ (mmc1Up.cart.sourceSize .wrk = 8192 ∧ axromUp.cart.sourceSize .chr = 8192)
    ∧ 2 ≤ (2 : Byte).toNat ∧ (List.replicate 8191 (0 : Byte)).length ≠ 8192
    ∧ (cnromUp.cart.sourceSize .wrk = 0
      ∧ ({ cnromUp with stream := chunk tagWrk [0] ++ chunk tagWrk [0] } : State).stream
        = chunk tagWrk (0 :: []) ++ chunk tagWrk [0] ++ [])
    ∧ (List.replicate 8192 (0 : Byte)).length = axromUp.cart.sourceSize .chr :=
  ⟨by decide, by decide, by decide, by decide, by decide, by rw [List.length_replicate]; decide, by decide,
    List.length_replicate⟩

theorem witness_ConfigurationIsFixed : ∃ t, step waiting = .next t := ⟨_, rfl⟩

theorem witness_TableIsConstantBetweenResets :
    ∃ t, exec (.uxromPrgSelect 0x8000 5) uxromUp = .next t ∧ Instr.uxromPrgSelect 0x8000 5 ≠ .resetHard
      ∧ Instr.uxromPrgSelect 0x8000 5 ≠ .resetSoft := ⟨_, rfl, by decide, by decide⟩

/-- MMC1 with `MMC1_WRAM_GATE`. -/
def gatedUp : State :=
  up { testCart .mmc1 131072 32768 8192 .h with params := { resetParams with mmc1WramGate := true } }

/-- A board of open-bus reads. -/
def busUp : State :=
  up (testCart (.pattern ⟨[openBusMap 0x5000 0x5FFF (.const 0xFF), openBusMap 0x5800 0x58FF .openBusHigh], false⟩)
    32768 8192 0 .h)

/-- Every read binding, at addresses where they meet. -/
theorem witness_CpuReadDrivesTheBoundByte :
    Instr.prgRd 0x8000 ∈ cpuReads 0x8000 ∧ busUp.powered = true ∧ busUp.bus.readAt 0x401F = .system
    ∧ busUp.bus.readAt 0x4020 = .openBus ∧ busUp.bus.readAt 0x57FF = .const 0xFF
    ∧ busUp.bus.readAt 0x5800 = .openBusHigh ∧ busUp.bus.readAt 0x8000 = .prgWin
    ∧ mmc1Up.bus.readAt 0x6000 = .wrkWin ∧ gatedUp.bus.readAt 0x7FFF = .boardRead .mmc1Wrk := by decide

theorem witness_WindowReadsGiveTheMappedByte :
    (mmc1Up.powered = true ∧ mmc1Up.bus.readAt 0xFFFF = .prgWin ∧ mmc1Up.cart.prgSize ≠ 0
      ∧ mmc1Up.prg[(0xFFFF - 0x8000) / 8192]? = some ⟨122880, 15, 16384, 1⟩)
    ∧ mmc1Up.bus.readAt 0x6000 = .wrkWin ∧ mmc1Up.wrk[(0x7FFF - 0x6000) / 8192]? = some ⟨0, 0, 8192, 0⟩ := by
  decide

theorem witness_IgnoredWriteChangesOnlyTheLatch :
    Instr.nromWrIgnored 0x8000 1 ∈ cpuWrites 0x8000 1 ∧ nromUp.powered = true
    ∧ nromUp.bus.writeAt 0x8000 = .ignore ∧ nromUp.bus.writeAt 0x401F = .system := by decide

theorem witness_NromWriteIsIgnored : nromUp.Ready .nrom ∧ 0x8000 ≤ (0x8000 : Addr).toNat :=
  ⟨ready_nrom, by decide⟩

/-- The gated MMC1 with the gate shut (`prg[4] = 1`) or open. -/
def gatedWith (prg : BitVec 5) : State := { gatedUp with board := .mmc1 ⟨0x0C, 0, 0, prg, 0, 0⟩ }

theorem ready_gateShut : (gatedWith 0x10).Ready .mmc1 :=
  ⟨⟨by decide, by decide, by decide, by decide, by decide, by decide, by decide, ⟨by decide, by decide⟩⟩,
   fun _ => by decide +kernel, by decide, by decide⟩

theorem ready_gateOpen : (gatedWith 0).Ready .mmc1 :=
  ⟨⟨by decide, by decide, by decide, by decide, by decide, by decide, by decide, ⟨by decide, by decide⟩⟩,
   fun _ => by decide +kernel, by decide, by decide⟩

theorem witness_WrkWriteStoresOneByte :
    (Instr.wrkWr 0x7FFF 1 ∈ [Instr.wrkWr 0x7FFF 1, .cpuWr 0x7FFF 1] ∧ mmc1Up.powered = true ∧ mmc1Up.ramWrk.wf
      ∧ mmc1Up.bus.writeAt 0x7FFF = .wrkWin ∧ mmc1Up.wrk[(0x7FFF - 0x6000) / 8192]? = some ⟨0, 0, 8192, 0⟩
      ∧ mmc1Up.cart.wrkSize ≠ 0)
    ∧ (gatedWith 0x10).Ready .mmc1 ∧ (gatedWith 0).Ready .mmc1
    ∧ (gatedWith 0x10).cart.wrkSize ≠ 0 ∧ (gatedWith 0x10).cart.params.mmc1WramGate = true
    ∧ (0x10 : BitVec 5).getLsbD 4 = true ∧ (0 : BitVec 5).getLsbD 4 = false
    ∧ 0x6000 ≤ (0x6000 : Addr).toNat ∧ (0x7FFF : Addr).toNat < 0x8000 :=
  ⟨by decide, ready_gateShut, ready_gateOpen, by decide, by decide, by decide, by decide, by decide, by decide⟩

/-- The three linear kinds and an ill-formed one. -/
def linearUp : State :=
  up (testCart (.pattern ⟨[linearMap 0x8000 0x8FFF (.prgSwap 8192 0), linearMap 0x9000 0x9FFF (.chrSwap 1024 0x1C00),
    linearMap 0xA000 0xAFFF (.mirrorSwap .hv), linearMap 0xB000 0xBFFF (.prgSwap 2048 0)], true⟩) 32768 8192 0 .h)

theorem witness_LinearWriteSwapsTheBank :
    linearUp.powered = true ∧ linearUp.bus.writeAt 0x8FFF = .prgSwap 8192 0
    ∧ wellFormedSwap .prg 8192 0 = true ∧ linearUp.bus.writeAt 0x9000 = .chrSwap 1024 0x1C00
    ∧ wellFormedSwap .chr 1024 0x1C00 = true ∧ linearUp.bus.writeAt 0xA000 = .mirrorSwap .hv
    ∧ linearUp.nmt.length = 4 ∧ linearUp.bus.writeAt 0xB000 = .prgSwap 2048 0
    ∧ wellFormedSwap .prg 2048 0 = false := by decide

theorem witness_BusConflictMasksTheRegisterByte :
    (∃ u, exec (.prgRd 0x8000) uxromUp = .next u ∧ u.result = .byte 0) ∧ uxromUp.Ready .uxrom
    ∧ (∃ u, exec (.prgRd 0xFFFF) (conflicting cnromUp) = .next u ∧ u.result = .byte 3)
    ∧ (conflicting cnromUp).Ready .cnrom ∧ axromUp.Ready .axrom
    ∧ uxromUp.cart.prgSize ≠ 0 ∧ 0x8000 ≤ (0x8000 : Addr).toNat :=
  ⟨⟨_, rfl, by decide⟩, ready_uxrom, ⟨_, rfl, by decide⟩,
   ⟨⟨by decide, by decide, by decide, by decide, by decide, by decide, by decide, trivial⟩,
    fun _ => by decide +kernel, by decide, by decide⟩, ready_axrom, by decide, by decide⟩

theorem witness_PpuReadGivesTheMappedByte :
    nromUp.powered = true ∧ (0x1FFF : Addr).toNat < 0x2000
    ∧ nromUp.chr[0x1FFF / 1024]? = some ⟨7168, 0, 8192, 7⟩
    ∧ nromUp.nmt[(0x2000 - 0x2000) % 0x1000 / 1024]? = some ⟨0, 0, 1024, 0⟩
    ∧ nromUp.nmt[(0x3EFF - 0x2000) % 0x1000 / 1024]? = some ⟨1024, 1, 1024, 0⟩ := by decide

theorem witness_PpuWriteStoresOneByte :
    axromUp.powered = true ∧ axromUp.ramChr.wf ∧ axromUp.ramNmt.wf ∧ axromUp.cart.chrSize = 0
    ∧ nromUp.cart.chrSize ≠ 0 ∧ axromUp.chr[0x1FFF / 1024]? = some ⟨7168, 0, 8192, 7⟩
    ∧ axromUp.nmt[(0x3EFF - 0x2000) % 0x1000 / 1024]? = some ⟨0, 0, 1024, 0⟩ := by decide

theorem witness_PaletteIsRefused :
    Instr.ppuWr 0x3FFF 1 ∈ ppuReads 0x3FFF ++ ppuWrites 0x3FFF 1 ∧ nromUp.powered = true
    ∧ 0x3F00 ≤ (0x3F00 : Addr).toNat := by decide

theorem witness_NametableMirrorAgrees :
    (0x3000 ≤ (0x3000 : Addr).toNat ∧ (0x2000 : Addr).toNat + 0x1000 = (0x3000 : Addr).toNat)
    ∧ (0x3EFF : Addr).toNat < 0x3F00 ∧ (0x2EFF : Addr).toNat + 0x1000 = (0x3EFF : Addr).toNat := by decide

/-- A swap at the top of its window set, and one that ends one page beyond it. -/
theorem witness_SwapBankMapsTheMaskedBank :
    wellFormedSwap .chr 1024 0x1C00 = true ∧ nromUp.chr[7]? = some ⟨7168, 0, 8192, 7⟩
    ∧ wellFormedSwap .chr 2048 0x1C00 = false := by decide

theorem witness_MaskedIndexNamesABankOfTheSource : 0 < 8192 ∧ 8192 ≤ 49152 ∧ 49152 / 8192 < 2 ^ 32 := by decide

theorem witness_BankSelectionIsPeriodic :
    0 < 8192 ∧ 32 ≤ 32 ∧ 16384 < 32768 ∧ (testCart .nrom 16384 0 0 .h).sourceSize .prg ≠ 0
    ∧ (testCart .nrom 16384 0 0 .h).sourceSize .prg < 32768 := by decide

theorem witness_GetBankReturnsTheRequest :
    wellFormedSwap .prg 16384 0x4000 = true ∧ (mmc1Up.pages .prg).length = span .prg / pageSize .prg
    ∧ (8192 ≠ 16384 ∧ wellFormedSwap .prg 8192 0x4000 = true)
    ∧ wellFormedSwap .chr 4096 0 = true ∧ (0 < 1024 ∧ 1024 < 0 + 4096 ∧ wellFormedSwap .chr 4096 1024 = true) := by
  decide

theorem witness_SwapBanksIsAllOrNothing :
    [0, 1, 0, 1] ≠ [] ∧ (∀ k < [0, 1, 0, 1].length, wellFormedSwap .nmt 1024 (0 + k * 1024) = true)
    ∧ ∃ k < [0, 1].length, wellFormedSwap .prg 16384 (0x4000 + k * 16384) = false := by decide

theorem witness_WindowWriteIsReadBack :
    axromUp.cart.sourceSize .chr ≠ 0 ∧ axromUp.cart.writable .chr = true ∧ (axromUp.ram .chr).wf
    ∧ nromUp.cart.sourceSize .chr ≠ 0 ∧ nromUp.cart.writable .chr = false ∧ WinId.nmt ≠ .chr := by decide

/-- A `Map` at its boundary addresses, and the four ways to be refused. -/
theorem witness_LaterMapReplacesEarlier :
    (∃ t, mapRange ⟨0x4020, 0xFFFF, some .openBusHigh, none⟩ nromUp = .ok t ∧ t.bus.readAt 0x401F = .system
      ∧ t.bus.readAt 0x4020 = .openBusHigh ∧ t.bus.readAt 0xFFFF = .openBusHigh)
    ∧ mapLegal ⟨0x9000, 0x8FFF, none, none⟩ = false ∧ mapLegal ⟨0x401F, 0x5000, none, none⟩ = false
    ∧ mapLegal ⟨0x7FFF, 0x8000, some .prgWin, none⟩ = false
    ∧ mapLegal ⟨0x6000, 0x8000, some .wrkWin, none⟩ = false
    ∧ mapLegal ⟨0x5FFF, 0x7FFF, none, some .wrkWin⟩ = false := ⟨⟨_, rfl, by decide⟩, by decide⟩

theorem witness_HardResetSetsTheBoard :
    mmc1Up.Wf ∧ modelled mmc1Up.cart.board = true ∧ menuUp.Wf ∧ modelled menuUp.cart.board = true :=
  ⟨ready_mmc1.wf, by decide, ready_menu.wf, by decide⟩

theorem witness_SoftResetKeepsTheBoard :
    (Board.mmc1 ∈ [Board.nrom, .mmc1, .uxrom, .cnrom, .axrom] ∧ mmc1Up.Ready .mmc1) ∧ nromUp.Ready .nrom
    ∧ uxromUp.Ready .uxrom ∧ cnromUp.Ready .cnrom ∧ axromUp.Ready .axrom :=
  ⟨⟨by decide, ready_mmc1⟩, ready_nrom, ready_uxrom, ready_cnrom, ready_axrom⟩

/-- The menu, and one of 256 images at its last. -/
theorem witness_MenuSoftResetShowsTheNextImage :
    (menuUp.Ready menu4 ∧ menuUp.board = .menu 0 ∧ menu4Params.legal ∧ menuUp.cart.board = .menu menu4Params)
    ∧ (∃ t, exec .resetHard menuUp = .next t ∧ t.result = .done)
    ∧ (∃ t, exec .resetSoft menuUp = .next t ∧ t.result = .done)
    ∧ MenuParams.legal ⟨256, 255, []⟩ :=
  ⟨⟨ready_menu, by decide, by decide, rfl⟩, ⟨_, rfl, by decide⟩, ⟨_, rfl, by decide⟩, by decide⟩

theorem witness_HardResetIsRepeatable :
    uxromUp.Wf ∧ modelled uxromUp.cart.board = true ∧ ∃ t, exec .resetHard uxromUp = .next t :=
  ⟨ready_uxrom.wf, by decide, _, rfl⟩

theorem witness_ResetKeepsRamAndLatch :
    Instr.resetSoft ∈ [Instr.resetHard, .resetSoft] ∧ ∃ t, exec .resetSoft uxromUp = .next t ∧ t.result = .done :=
  ⟨by decide, _, rfl, by decide⟩

/-- Each board's clause. -/
theorem witness_ResetVectorComesFromTheMappedBank :
    (nromUp.Wf ∧ 16384 ≤ nromUp.cart.prgSize ∧ nromUp.cart.board = .nrom)
    ∧ (cnromUp.Wf ∧ cnromUp.cart.board = .cnrom)
    ∧ (mmc1Up.Wf ∧ mmc1Up.cart.board = .mmc1 ∧ mmc1Up.cart.prgSize ≤ 262144)
    ∧ (uxromUp.Wf ∧ uxromUp.cart.board = .uxrom ∧ uxromUp.cart.prgSize / 16384 < 2 ^ 32)
    ∧ axromUp.Wf ∧ axromUp.cart.board = .axrom ∧ 32768 ≤ axromUp.cart.prgSize :=
  ⟨⟨ready_nrom.wf, by decide, by decide⟩, ⟨ready_cnrom.wf, by decide⟩, ⟨ready_mmc1.wf, by decide, by decide⟩,
   ⟨ready_uxrom.wf, by decide, by decide⟩, ready_axrom.wf, by decide, by decide⟩

/-- MMC1 with three bits shifted in, and with four. -/
def shifting (n : BitVec 3) : State := { mmc1Up with board := .mmc1 ⟨0x0C, 0, 0, 0, 6, n⟩ }

theorem ready_shifting3 : (shifting 3).Ready .mmc1 :=
  ⟨⟨by decide, by decide, by decide, by decide, by decide, by decide, by decide, ⟨by decide, by decide⟩⟩,
   fun _ => by decide +kernel, by decide, by decide⟩

theorem ready_shifting4 : (shifting 4).Ready .mmc1 :=
  ⟨⟨by decide, by decide, by decide, by decide, by decide, by decide, by decide, ⟨by decide, by decide⟩⟩,
   fun _ => by decide +kernel, by decide, by decide⟩

theorem witness_Mmc1SerialResetWrite :
    (shifting 3).Ready .mmc1 ∧ (shifting 3).board = .mmc1 ⟨0x0C, 0, 0, 0, 6, 3⟩
    ∧ 0x8000 ≤ (0x8000 : Addr).toNat ∧ 0x80 ≤ (0x80 : Byte).toNat :=
  ⟨ready_shifting3, rfl, by decide, by decide⟩

theorem witness_Mmc1EarlyWriteOnlyShifts :
    (shifting 3).Ready .mmc1 ∧ (shifting 3).board = .mmc1 ⟨0x0C, 0, 0, 0, 6, 3⟩
    ∧ 0x8000 ≤ (0x8000 : Addr).toNat ∧ (0x7F : Byte).toNat < 0x80 ∧ (3 : BitVec 3).toNat < 4 :=
  ⟨ready_shifting3, rfl, by decide, by decide, by decide⟩

theorem witness_Mmc1FifthWriteLoadsControl :
    (shifting 4).Ready .mmc1 ∧ (shifting 4).board = .mmc1 ⟨0x0C, 0, 0, 0, 6, 4⟩
    ∧ 0x8000 ≤ (0x8000 : Addr).toNat ∧ (0x9FFF : Addr).toNat < 0xA000 ∧ (0x7F : Byte).toNat < 0x80 :=
  ⟨ready_shifting4, rfl, by decide, by decide, by decide⟩

theorem witness_Mmc1FifthWriteLoadsAChrRegister :
    (shifting 4).Ready .mmc1 ∧ (shifting 4).board = .mmc1 ⟨0x0C, 0, 0, 0, 6, 4⟩
    ∧ 0xA000 ≤ (0xA000 : Addr).toNat ∧ (0xBFFF : Addr).toNat < 0xC000 ∧ 0xC000 ≤ (0xC000 : Addr).toNat
    ∧ (0xDFFF : Addr).toNat < 0xE000 :=
  ⟨ready_shifting4, rfl, by decide, by decide, by decide, by decide⟩

theorem witness_Mmc1FifthWriteLoadsPrg :
    (shifting 4).Ready .mmc1 ∧ (shifting 4).board = .mmc1 ⟨0x0C, 0, 0, 0, 6, 4⟩
    ∧ 0xE000 ≤ (0xE000 : Addr).toNat ∧ (0 : Byte).toNat < 0x80 := ⟨ready_shifting4, rfl, by decide, by decide⟩

theorem witness_FiveSerialWritesLoadTheRegister :
    mmc1Up.Ready .mmc1 ∧ mmc1Up.board = .mmc1 ⟨0x0C, 0, 0, 0, 0, 0⟩ ∧ 0x8000 ≤ (0x8000 : Addr).toNat :=
  ⟨ready_mmc1, by decide, by decide⟩

theorem witness_UxromWriteSelectsPrg : uxromUp.Ready .uxrom ∧ 0x8000 ≤ (0x8000 : Addr).toNat :=
  ⟨ready_uxrom, by decide⟩

theorem witness_CnromWriteSelectsChr : cnromUp.Ready .cnrom ∧ 0x8000 ≤ (0x8000 : Addr).toNat :=
  ⟨ready_cnrom, by decide⟩

theorem witness_AxromWriteSelectsPrgAndScreen : axromUp.Ready .axrom ∧ 0x8000 ≤ (0x8000 : Addr).toNat :=
  ⟨ready_axrom, by decide⟩

theorem witness_MirroringHelpersSelectTheirMode :
    nromUp.cart.params.helperOrder = HelperOrder.standard ∧ 1 % 4 < 2 ∧ 6 % 4 = 2 ∧ 3 % 4 = 3
    ∧ nromUp.nmt.length = 4 ∧ nromUp.cart.mirroring ≠ .four
    ∧ (testCart .nrom 16384 0 0 .four).mirroring = .four := by decide

theorem witness_EventsOfATransaction :
    (∃ t, exec (.axromSelect 0x8000 0x13) axromUp = .next t)
    ∧ (∃ t, exec .save menuUp = .next t) ∧ ∀ a d, Instr.save ∉ cpuWrites a d :=
  ⟨⟨_, rfl⟩, ⟨_, rfl⟩, by simp [cpuWrites]⟩

/-- A latch board of two sub-registers, its latch at the last of them and one beyond. -/
def latchUp (l : Byte) : State :=
  { up (testCart (.latch ⟨0x8000, 0x9FFF, 0xA000, 0xBFFF, 2, 7, [], 0, [0, 0], false⟩) 32768 8192 0 .h) with
    board := .latch l [0, 0] }

theorem witness_LatchWritesGoThroughTheLatch :
    LatchParams.legal ⟨0x8000, 0x9FFF, 0xA000, 0xBFFF, 2, 7, [], 0, [0, 0], false⟩
    ∧ LatchParams.legal ⟨0xFFFF, 0xFFFF, 0x4020, 0xFFFE, 1, 0, [], 0, [0], false⟩
    ∧ (latchUp 1).powered = true
    ∧ (latchUp 1).cart.board = .latch ⟨0x8000, 0x9FFF, 0xA000, 0xBFFF, 2, 7, [], 0, [0, 0], false⟩
    ∧ (latchUp 1).board = .latch 1 [0, 0] ∧ ([0, 0] : List Byte).length = 2
    ∧ (latchUp 1).bus.writeAt 0x9FFF = .boardWrite .latchSelect
    ∧ (latchUp 1).bus.writeAt 0xA000 = .boardWrite .latchData
    ∧ ((1 : Byte) &&& 7).toNat < 2 ∧ 2 ≤ ((2 : Byte) &&& 7).toNat := by decide

theorem witness_SaveWritesTheChunks : menuUp.powered = true := by decide

/-- A stream of MMC1 with the highest legal registers and a raw `WRK`; one of AxROM with an empty `WRK` and a raw
`CRM`; and the menu saved into itself after a soft reset. -/
theorem witness_LoadRestoresASave :
    (modelled .mmc1 = true ∧ mmc1Up.Ready .mmc1 ∧ regsMatch .mmc1 (.mmc1 ⟨0x1F, 0x1F, 0x1F, 0x1F, 15, 4⟩)
      ∧ (List.replicate 8192 (0 : Byte)).length = mmc1Up.cart.sourceSize .wrk
      ∧ (0 :: List.replicate 8192 (0 : Byte)).length < 2 ^ 32)
    ∧ (modelled .axrom = true ∧ axromUp.Ready .axrom ∧ regsMatch .axrom (.axrom 0xFF)
      ∧ ([] : List Byte).length = axromUp.cart.sourceSize .wrk
      ∧ (List.replicate 8192 (0 : Byte)).length = axromUp.cart.sourceSize .chr)
    ∧ modelled menu4 = true ∧ menuUp.Ready menu4 ∧ (after .resetSoft menuUp).Ready menu4
    ∧ (after .resetSoft menuUp).cart = menuUp.cart ∧ menuUp.cart.wrkSize + 1 < 2 ^ 32 :=
  ⟨⟨rfl, ready_mmc1, ⟨by decide, by decide⟩, List.length_replicate,
     by rw [List.length_cons, List.length_replicate]; decide⟩,
   ⟨rfl, ready_axrom, trivial, by decide, List.length_replicate⟩, by decide, ready_menu,
   ⟨⟨by decide, by decide, by decide, by decide, by decide, by decide, by decide, fun _ => by decide⟩,
    fun _ => by decide +kernel, by decide, by decide⟩, by decide, by decide⟩

theorem witness_UnknownChunkIsSkipped :
    0x005A5958 ∉ [0, tagReg, tagWrk, tagCrm] ∧ 0x005A5958 < 2 ^ 32 ∧ ([0xAA, 0xBB] : List Byte).length < 2 ^ 32
    ∧ ∃ t, exec .load { nromUp with stream := [] } = .next t := ⟨by decide, by decide, by decide, _, rfl⟩

/-- The limits of MMC1, and an id inside and outside a catalogue; 9999 is in none. -/
theorem witness_FactoryAnswersEveryId :
    (262144 ≤ 262144 ∧ 131072 ≤ 131072) ∧ 262144 < 262145 ∧ 131072 < 131073
    ∧ (4 ∉ [0, 1, 2, 3, 7] ∧ 4 ∈ ({ resetParams with catalogue := ⟨[0, 1, 2, 3, 4, 7], by decide⟩ } : Params).catalogue.val)
    ∧ 9999 ∉ [0, 1, 2, 3, 7] ∧ 9999 ∉ resetParams.catalogue.val := by decide

/-- The header of W5. -/
def w5Header : List Byte := [0x4E, 0x45, 0x53, 0x1A, 2, 1, 0, 0, 0, 0, 0, 0, 0, 0, 0, 0]

theorem witness_HeaderFieldsComeFromTheirBits : 16 ≤ w5Header.length := by decide

/-- The file of W5 with zeros for its contents: the counts fit exactly. -/
theorem witness_IdentificationChecksThenLooksUp :
    (w5Header ++ List.replicate 40960 (0 : Byte)).take 4 = [0x4E, 0x45, 0x53, 0x1A]
    ∧ (readHeader resetParams w5Header).prgSize = 32768 ∧ (readHeader resetParams w5Header).chrSize = 8192
    ∧ (readHeader resetParams w5Header).trainer = false
    ∧ (w5Header ++ List.replicate 40960 (0 : Byte)).length = 16 + 32768 + 8192
    ∧ w5Header.take 4 = [0x4E, 0x45, 0x53, 0x1A] ∧ w5Header.length < 16 + 32768 + 8192
    ∧ [(0 : Byte)].take 4 ≠ [0x4E, 0x45, 0x53, 0x1A] := by
  refine ⟨rfl, by decide, by decide, by decide, ?_, by decide, by decide, by decide⟩
  rw [List.length_append, List.length_replicate]
  rfl

/-- The entry of a database that hits a file of CRC `crc`: MMC1 with the attribute flag. -/
def hitEntry (crc : Word) : DbEntry :=
  ⟨crc, 1, 16384, 0, 0, .ntsc, .v, true, false, false, false, false, false, false, some true⟩

/-- A file of W5's shape that the database knows. -/
theorem witness_IdentificationChecksThenLooksUp_hit :
    ∃ e d, identify resetParams [e] nromFile = .ok d ∧ [e].find? (fun e => e.crc = d.crc) = some e
      ∧ d.boardId = 1 ∧ d.attrFlag = some true := by
  let crc := crc32 (crcPayload resetParams (readHeader resetParams nromFile) nromFile)
  have hit : dbLookup [hitEntry crc] crc = some (hitEntry crc) := by simp [dbLookup, hitEntry]
  refine ⟨hitEntry crc, _, identify_nromFile [hitEntry crc], ?_⟩
  rw [hit]
  exact ⟨hit, rfl, rfl⟩

/-- MMC1 with its first serial write waiting. -/
def stepping : State := mmc1Up.withFetchWord 32 0x20800001

theorem ready_stepping : stepping.Ready .mmc1 :=
  ⟨⟨by decide, by decide, by decide, by decide, by decide, by decide, by decide, ⟨by decide, by decide⟩⟩,
   fun _ => by decide +kernel, by decide, by decide⟩

/-- A step of MMC1, and one of an NROM whose table holds another board's write function. -/
theorem witness_StepKeepsStatesWellFormed :
    (stepping.Wf ∧ ∃ t, step stepping = .next t)
    ∧ State.Wf { nromUp with bus := [⟨0x8000, 0xFFFF, none, some (.boardWrite .uxrom)⟩] } :=
  ⟨⟨ready_stepping.wf, _, rfl⟩,
   ⟨by decide, by decide, by decide, by decide, by decide, by decide, by decide, trivial⟩⟩

theorem witness_StepKeepsWindowsFollowingRegisters :
    modelled stepping.cart.board = true ∧ stepping.Wf ∧ stepping.Settled ∧ ∃ t, step stepping = .next t :=
  ⟨by decide, ready_stepping.wf, ready_stepping.settled, _, rfl⟩

end Sys2Proof.Tests
end

section
/-! SUPPORT. What a step can do, and the refusal mark `S.refused` along a step (R44). -/

namespace Sys2Proof.Machine

/-- Everything a step that does not stop the run can do (R87, R113): it takes the first waiting transaction,
and either runs the row its word decodes to on the board built, or refuses a word that is reserved. -/
theorem step_cases {s t : State} (h : step s = .next t) :
    ∃ tr rest, s.pending = tr :: rest ∧
      ((∃ i, decode s.cart.board tr.word = .ok i
          ∧ exec i { s with pending := rest, stream := tr.stream } = .next t)
      ∨ (∃ e, decode s.cart.board tr.word = .error e
          ∧ t = { s with
              pending := rest, stream := tr.stream, refused := true, result := .refused .reservedEncoding,
              events := [] })) := by
  unfold step fetch at h
  cases hp : s.pending with
  | nil => simp [hp] at h
  | cons tr rest =>
    refine ⟨tr, rest, rfl, ?_⟩
    simp only [hp] at h
    cases hd : decode s.cart.board tr.word with
    | ok i => exact .inl ⟨i, rfl, by simpa only [hd] using h⟩
    | error e =>
      simp only [hd] at h
      cases h
      exact .inr ⟨e, rfl, rfl⟩

/-- How a transaction that took the state `s` to `t` treats the mark (R44): it is refused and the mark is set,
or it is not refused and the mark is as it was. -/
def MarksRefusal (s t : State) : Prop :=
  ((∃ r, t.result = .refused r) ∧ t.refused = true)
  ∨ ((∀ r, t.result ≠ .refused r) ∧ t.refused = s.refused)

theorem exec_marksRefusal {i : Instr} {s t : State} (h : exec i s = .next t) : MarksRefusal s t := by
  rcases exec_outcome h with ⟨r, rfl⟩ | ⟨-, c, rfl⟩ | hc
  · exact .inl ⟨⟨r, rfl⟩, rfl⟩
  · exact .inr ⟨nofun, rfl⟩
  · exact .inr ⟨hc.noRefusal, hc.refused⟩

theorem step_marksRefusal {s t : State} (h : step s = .next t) : MarksRefusal s t := by
  obtain ⟨tr, rest, -, ⟨i, -, hx⟩ | ⟨e, -, rfl⟩⟩ := step_cases h
  · -- `MarksRefusal` reads only the mark of the first state, and taking the transaction leaves the mark
    have hm := exec_marksRefusal hx
    exact hm
  · exact .inl ⟨⟨_, rfl⟩, rfl⟩

/-- Settles O10: a step either is refused and sets the mark, or is not refused and keeps it. -/
theorem refusalMarkIsSticky : Obligations.RefusalMarkIsSticky := by
  unfold Obligations.RefusalMarkIsSticky
  refine ⟨fun _ _ _ => rfl, fun s t h => ?_⟩
  rcases step_marksRefusal h with ⟨⟨r, hr⟩, hm⟩ | ⟨hn, hk⟩
  · exact ⟨fun _ => hm, fun _ => hm, fun hn => absurd hr (hn r)⟩
  · exact ⟨fun hs => hk.trans hs, fun ⟨r, hr⟩ => absurd hr (hn r), fun _ => hk⟩

end Sys2Proof.Machine
end

section
/-! SUPPORT. The transaction words the spec writes out in hexadecimal (R126), each as the packing of its
fields. -/

namespace Sys2Proof

/-- R111: class `0x8` with `h = 1` is the hard reset. -/
theorem decodeClass_resetHard : decodeClass (packWord 0x8 1 0 0) = .ok .resetHard := by
  simp only [decodeClass, packWord_cls (show 0x8 < 16 by decide) (show 1 < 2 by decide),
    packWord_h (show 0x8 < 16 by decide) (show 1 < 2 by decide), if_true]
  exact checkFields_packWord _ (by decide) (by decide) (by decide) (by decide) (by decide)

/-- Settles O1: each word is the packing of its fields, so the law of its class decodes it. -/
theorem workedWordsDecode : Obligations.WorkedWordsDecode := by
  unfold Obligations.WorkedWordsDecode
  have hWr : (0x20800005 : Word) = packWord 0x2 0 0x8000 0x05 := by decide
  have hReset : (0x81000000 : Word) = packWord 0x8 1 0 0 := by decide
  have hPpu : (0x30240000 : Word) = packWord 0x3 0 0x2400 0 := by decide
  have hCpu : (0x10FFFC00 : Word) = packWord 0x1 0 0xFFFC 0 := by decide
  have hc : 0x2 < 16 := by decide
  have hh : 0 < 2 := by decide
  rw [hWr, hReset, hPpu, hCpu]
  exact ⟨⟨decodeClass_cpuWr _ _, packWord_cls hc hh _ _, packWord_z hc hh _ _, packWord_h hc hh _ _,
      packWord_a hc hh _ _, packWord_d hc hh _ _⟩,
    decodeClass_resetHard, decodeClass_ppuRd (by decide), decodeClass_cpuRd _⟩

end Sys2Proof
end

section
/-! SUPPORT. `SwapBanks` as the single swaps done one after the other (R155, R156). -/

namespace Sys2Proof.Machine

/-- The note of a swap of the window set `w`: `PpuUpdate` for a set the PPU sees (R152, R230). -/
def noteSwap (w : WinId) (s : State) : State := if ppuSees w then notePpu s else s

theorem swapBank_eq_mapBank_noteSwap (w : WinId) (size base i : Nat) (s : State) :
    swapBank w size base i s = mapBank w size base i (noteSwap w s) := rfl

theorem noteSwap_noteSwap (w : WinId) (s : State) : noteSwap w (noteSwap w s) = noteSwap w s := by
  unfold noteSwap
  split
  · exact notePpu_notePpu s
  · rfl

theorem notePpu_mapBank (w : WinId) (size base i : Nat) (s : State) :
    notePpu (mapBank w size base i s) = mapBank w size base i (notePpu s) := by
  rw [notePpu_eq, notePpu_eq]
  cases w <;> rfl

theorem noteSwap_mapBank (w : WinId) (size base i : Nat) (s : State) :
    noteSwap w (mapBank w size base i s) = mapBank w size base i (noteSwap w s) := by
  unfold noteSwap
  split
  · exact notePpu_mapBank w size base i s
  · rfl

theorem swapBankChecked_of_wellFormed {w : WinId} {size base : Nat}
    (h : wellFormedSwap w size base = true) (i : Nat) (s : State) :
    swapBankChecked w size base i s = .ok (mapBank w size base i (noteSwap w s)) := by
  rw [swapBankChecked, if_pos h, swapBank_eq_mapBank_noteSwap]

theorem swapBanksChecked_of_wellFormed {w : WinId} {size base : Nat} {is : List Nat}
    (h : wellFormedSwaps w size base is = true) (s : State) :
    swapBanksChecked w size base is s = .ok (mapBanks w size base is (noteSwap w s)) := if_pos h

theorem swapBanksChecked_of_not_wellFormed {w : WinId} {size base : Nat} {is : List Nat}
    (h : ¬ wellFormedSwaps w size base is = true) (s : State) :
    swapBanksChecked w size base is s = .error (.refused .illFormedSwap) := if_neg h

/-- The place of swap `n + 1` of `SwapBanks` follows that of swap `n`. -/
theorem swapPlace_succ (size base n : Nat) : base + (n + 1) * size = base + n * size + size := by
  rw [Nat.succ_mul, Nat.add_assoc]

/-- The check of `SwapBanks` asks for each of its places (R155, R156). -/
theorem wellFormedSwaps_iff (w : WinId) (size base : Nat) (is : List Nat) :
    wellFormedSwaps w size base is = true
      ↔ ∀ k < is.length, wellFormedSwap w size (base + k * size) = true := by
  induction is generalizing base with
  | nil => simp [wellFormedSwaps]
  | cons i is ih =>
    have place (k : Nat) : base + size + k * size = base + (k + 1) * size := by
      rw [swapPlace_succ, Nat.add_right_comm]
    rw [wellFormedSwaps, Bool.and_eq_true, ih, List.length_cons, Nat.forall_lt_succ_left]
    simp only [place, Nat.zero_mul, Nat.add_zero]

/-- One checked swap after the other, from place `n` on. Every swap notes `PpuUpdate` and `SwapBanks` does once,
so the two agree from a state that has the note. -/
theorem foldlM_swapBankChecked {w : WinId} {size base n : Nat} {is : List Nat} {s : State}
    (hw : wellFormedSwaps w size (base + n * size) is = true) (hs : noteSwap w s = s) :
    (is.zipIdx n).foldlM (fun u ik => swapBankChecked w size (base + ik.2 * size) ik.1 u) s
      = .ok (mapBanks w size (base + n * size) is s) := by
  induction is generalizing n s with
  | nil => rfl
  | cons i is ih =>
    rw [wellFormedSwaps, Bool.and_eq_true, ← swapPlace_succ] at hw
    obtain ⟨hi, his⟩ := hw
    have hnoted : noteSwap w (mapBank w size (base + n * size) i s) = mapBank w size (base + n * size) i s := by
      rw [noteSwap_mapBank, hs]
    rw [List.zipIdx_cons, List.foldlM_cons, swapBankChecked_of_wellFormed hi, hs, mapBanks, ← swapPlace_succ]
    exact ih his hnoted

/-- With at least one index the first swap makes the note itself. -/
theorem foldlM_swapBankChecked_noteSwap {w : WinId} {size base : Nat} {is : List Nat}
    (hw : wellFormedSwaps w size base is = true) (hne : is ≠ []) (s : State) :
    is.zipIdx.foldlM (fun u ik => swapBankChecked w size (base + ik.2 * size) ik.1 u) s
      = is.zipIdx.foldlM (fun u ik => swapBankChecked w size (base + ik.2 * size) ik.1 u) (noteSwap w s) := by
  cases is with
  | nil => exact absurd rfl hne
  | cons i is =>
    have hi : wellFormedSwap w size (base + 0 * size) = true := (wellFormedSwaps_iff ..).1 hw 0 (by simp)
    rw [List.zipIdx_cons, List.foldlM_cons, List.foldlM_cons, swapBankChecked_of_wellFormed hi,
      swapBankChecked_of_wellFormed hi, noteSwap_noteSwap]

/-- Settles O31: the check is that of every place, and the pages and the note are those of the single swaps. -/
theorem swapBanksIsAllOrNothing : Obligations.SwapBanksIsAllOrNothing := by
  unfold Obligations.SwapBanksIsAllOrNothing
  refine fun w size base is s hne => ⟨fun hall => ?_, fun ⟨k, hk, hbad⟩ => ?_⟩
  · have hw := (wellFormedSwaps_iff w size base is).2 hall
    refine ⟨_, swapBanksChecked_of_wellFormed hw s, ?_⟩
    have hfold := foldlM_swapBankChecked (n := 0) (by simpa using hw) (noteSwap_noteSwap w s)
    rw [foldlM_swapBankChecked_noteSwap hw hne, hfold, Nat.zero_mul, Nat.add_zero]
  · refine swapBanksChecked_of_not_wellFormed (fun hw => ?_) s
    exact Bool.false_ne_true (hbad.symm.trans ((wellFormedSwaps_iff w size base is).1 hw k hk))

end Sys2Proof.Machine
end

section
/-! SUPPORT. What a reset that completes leaves unchanged (R454), and the dispatch table under every other
transaction of a powered block (R455). -/

namespace Sys2Proof.Machine

/-- Both reset rows run the one reset of R450, hard or soft. -/
theorem exec_reset {i : Instr} (hi : i ∈ [Instr.resetHard, .resetSoft]) (s : State) :
    ∃ hard, exec i s = .next (resetBlock hard s) := by
  simp only [List.mem_cons, List.not_mem_nil, or_false] at hi
  rcases hi with rfl | rfl
  · exact ⟨true, rfl⟩
  · exact ⟨false, rfl⟩

/-- All that a reset that completes changes (R450, R454): the table, the windows, the registers, the power mark,
the draws of a template, and its outputs. -/
theorem resetBlock_frame {hard : Bool} {s : State} (h : (resetBlock hard s).result = .done) :
    ∃ u p c n w b q d,
      resetBlock hard s = { s with
        bus := u, prg := p, chr := c, nmt := n, wrk := w, board := b, powered := q, draws := d,
        result := .done, events := [] } := by
  rcases resetBlock_cases hard s with ⟨t, -, ht, hr⟩ | ⟨r, hr⟩
  · obtain ⟨p, c, n, w, b, hb⟩ := resetBase_eq hard (clearOutput s)
    rw [hb] at ht
    obtain ⟨u, p, c, n, w, e, b, d, rfl⟩ := remapped_closed.subReset ht
    exact ⟨u, p, c, n, w, b, _, d, hr⟩
  · rw [hr] at h
    cases h

/-- Settles O38: none of these fields is in the frame of a reset, and the system region is no table entry. -/
theorem resetKeepsRamAndLatch : Obligations.ResetKeepsRamAndLatch := by
  unfold Obligations.ResetKeepsRamAndLatch
  intro i s t hi hx hdone
  obtain ⟨hard, hreset⟩ := exec_reset hi s
  rw [hreset] at hx
  cases hx
  have hsystem (a : Nat) (ha : a < 0x4020) :
      (resetBlock hard s).bus.readAt a = .system ∧ (resetBlock hard s).bus.writeAt a = .system :=
    ⟨Bus.readAt_system _ ha, Bus.writeAt_system _ ha⟩
  obtain ⟨u, p, c, n, w, b, q, d, hframe⟩ := resetBlock_frame hdone
  refine ⟨?_, ?_, ?_, ?_, ?_, hsystem⟩ <;> rw [hframe]

theorem Handled.bus {s t : State} (h : Handled s t) : t.bus = s.bus := by
  obtain ⟨_, _, _, _, _, _, _, _, rfl⟩ := h
  rfl

theorem Updated.bus {s t : State} (h : Updated s t) : t.bus = s.bus := by
  obtain ⟨_, _, _, _, _, _, rfl⟩ := h
  rfl

theorem writeBM_bus (w : WinId) (o : Nat) (v : Byte) (s : State) : (writeBM w o v s).bus = s.bus := by
  unfold writeBM
  split
  · rfl
  · exact State.setRam_bus ..

theorem cpuRead_bus {s : State} (a : Addr) (h : s.powered = true) : (cpuRead a s).bus = s.bus := by
  obtain ⟨v, d, hr⟩ := cpuRead_frame a h
  rw [hr]

theorem cpuWrite_bus {s : State} (a : Addr) (d : Byte) (h : s.powered = true) :
    (cpuWrite a d s).bus = s.bus := by
  rcases cpuWrite_cases a d h with ⟨t, hw, ht⟩ | ⟨r, ht⟩ <;> rw [ht]
  exact (handled_closed.writeBound hw).bus

theorem ppuRead_bus {s : State} (p : Addr) (h : s.powered = true) : (ppuRead p s).bus = s.bus := by
  rw [ppuRead_on p h]
  split <;> rfl

theorem ppuWrite_bus {s : State} (p : Addr) (d : Byte) (h : s.powered = true) :
    (ppuWrite p d s).bus = s.bus := by
  rw [ppuWrite_on p d h]
  split
  · rfl
  · exact writeBM_bus ..

theorem saveBlock_bus {s : State} (h : s.powered = true) : (saveBlock s).bus = s.bus := by
  rw [saveBlock_on h]

theorem loadBlock_bus {s : State} (h : s.powered = true) : (loadBlock s).bus = s.bus := by
  rcases loadBlock_cases h with ⟨c, -, hl⟩ | ⟨got, t, -, hu, hl⟩ | ⟨got, r, -, -, hl⟩ <;> rw [hl]
  obtain ⟨b, c, w, ha⟩ := applyLoad_eq got (clearOutput s)
  rw [ha] at hu
  exact (updated_closed.update hu).bus

/-- Settles O15: without power the row is refused, and with power each transaction that is no reset keeps the
table. -/
theorem tableIsConstantBetweenResets : Obligations.TableIsConstantBetweenResets := by
  unfold Obligations.TableIsConstantBetweenResets
  intro i s t hx hhard hsoft
  have answer {u : State} (hrow : exec i s = .next u) (hu : u.bus = s.bus) : t.bus = s.bus := by
    rw [hrow] at hx
    cases hx
    exact hu
  cases hp : s.powered with
  | false => exact answer (exec_off hp hhard) rfl
  | true =>
    rcases exec_cases i s with ⟨a, -, hrow⟩ | ⟨a, d, -, hrow⟩ | ⟨a, -, hrow⟩ | ⟨a, d, -, hrow⟩ | ⟨hi, -⟩ |
      ⟨hi, -⟩ | ⟨-, hrow⟩ | ⟨-, hrow⟩
    · exact answer hrow (cpuRead_bus a hp)
    · exact answer hrow (cpuWrite_bus a d hp)
    · exact answer hrow (ppuRead_bus a hp)
    · exact answer hrow (ppuWrite_bus a d hp)
    · exact absurd hi hhard
    · exact absurd hi hsoft
    · exact answer hrow (saveBlock_bus hp)
    · exact answer hrow (loadBlock_bus hp)

end Sys2Proof.Machine
end

section
/-! SUPPORT. Rows and transactions: every row is a sub-case of one transaction of R111, whose word it has, and
the board built refines that transaction to the row. -/

namespace Sys2Proof

open Machine (Board ReservedWord)

/-- R111: class `0x8` with `h = 0` is the soft reset. -/
theorem decodeClass_resetSoft : decodeClass (packWord 0x8 0 0 0) = .ok .resetSoft := by
  simp only [decodeClass, packWord_cls (show 0x8 < 16 by decide) (show 0 < 2 by decide),
    packWord_h (show 0x8 < 16 by decide) (show 0 < 2 by decide), if_neg Nat.zero_ne_one]
  exact checkFields_packWord _ (by decide) (by decide) (by decide) (by decide) (by decide)

theorem decodeClass_save : decodeClass (packWord 0x9 0 0 0) = .ok .save := by
  simp only [decodeClass, packWord_cls (show 0x9 < 16 by decide) (show 0 < 2 by decide)]
  exact checkFields_packWord _ (by decide) (by decide) (by decide) (by decide) (by decide)

theorem decodeClass_load : decodeClass (packWord 0xA 0 0 0) = .ok .load := by
  simp only [decodeClass, packWord_cls (show 0xA < 16 by decide) (show 0 < 2 by decide)]
  exact checkFields_packWord _ (by decide) (by decide) (by decide) (by decide) (by decide)

theorem inRange_iff {lo hi : Nat} {a : Addr} : inRange lo hi a = true ↔ lo ≤ a.toNat ∧ a.toNat < hi :=
  decide_eq_true_iff

/-- R110 to R113: the word of a transaction decodes to it. -/
theorem decodeClass_encode {i : Instr} (hc : i.isClass = true) (hw : i.wf = true) :
    decodeClass (encode i) = .ok i := by
  cases i with
  | cpuRd a => exact decodeClass_cpuRd a
  | cpuWr a d => exact decodeClass_cpuWr a d
  | ppuRd a => exact decodeClass_ppuRd (inRange_iff.1 hw).2
  | ppuWr a d => exact decodeClass_ppuWr d (inRange_iff.1 hw).2
  | resetHard => exact decodeClass_resetHard
  | resetSoft => exact decodeClass_resetSoft
  | save => exact decodeClass_save
  | load => exact decodeClass_load
  | _ => cases hc

/-- Settles O2: the law of each class decodes its word. -/
theorem transactionDecodesFromItsWord : Obligations.TransactionDecodesFromItsWord := by
  unfold Obligations.TransactionDecodesFromItsWord
  exact fun i hc hw => decodeClass_encode hc hw

/-! ### The transaction of a row -/

/-- The transaction of R111 that a row is a sub-case of (R115, R116). -/
def Instr.transaction : Instr → Instr
  | .cpuRd a | .prgRd a | .wrkRd a => .cpuRd a
  | .cpuWr a d | .wrkWr a d | .nromWrIgnored a d | .mmc1SerialReset a d | .mmc1ShiftControl a d
  | .mmc1ShiftChr0 a d | .mmc1ShiftChr1 a d | .mmc1ShiftPrg a d | .uxromPrgSelect a d | .cnromChrSelect a d
  | .axromSelect a d => .cpuWr a d
  | .ppuRd a | .chrRd a | .nmtRd a | .ppuPaletteRd a => .ppuRd a
  | .ppuWr a d | .chrWr a d | .nmtWr a d | .ppuPaletteWr a d => .ppuWr a d
  | .resetHard => .resetHard
  | .resetSoft => .resetSoft
  | .save => .save
  | .load => .load

theorem Instr.transaction_isClass (i : Instr) : i.transaction.isClass = true := by cases i <;> rfl

theorem encode_transaction (i : Instr) : encode i.transaction = encode i := by cases i <;> rfl

/-- The ranges of a row lie inside those of its transaction. -/
theorem Instr.transaction_wf {i : Instr} (h : i.wf = true) : i.transaction.wf = true := by
  cases i with
  | chrRd a | nmtRd a | ppuPaletteRd a | chrWr a d | nmtWr a d | ppuPaletteWr a d =>
    obtain ⟨hlo, hhi⟩ := inRange_iff.1 h
    exact inRange_iff.2 ⟨by omega, by omega⟩
  | ppuRd a | ppuWr a d => exact h
  | _ => rfl

theorem Instr.rowFor_wf {b : Board} {i : Instr} (h : i.rowFor b = true) : i.wf = true :=
  (Bool.and_eq_true_iff.1 h).1

/-! ### The row of a transaction, by its address -/

theorem refine_cpuRd_low (b : Board) {a : Addr} (h : a.toNat < 0x6000) : refine b (.cpuRd a) = .cpuRd a := by
  rw [refine, if_neg (by omega), if_neg (by omega)]

theorem refine_cpuRd_wrk (b : Board) {a : Addr} (h : 0x6000 ≤ a.toNat) (h' : a.toNat < 0x8000) :
    refine b (.cpuRd a) = .wrkRd a := by
  rw [refine, if_neg (by omega), if_pos h]

theorem refine_cpuRd_prg (b : Board) {a : Addr} (h : 0x8000 ≤ a.toNat) : refine b (.cpuRd a) = .prgRd a :=
  if_pos h

theorem refine_cpuWr_low (b : Board) {a : Addr} (d : Byte) (h : a.toNat < 0x6000) :
    refine b (.cpuWr a d) = .cpuWr a d := by
  rw [refine, if_neg (by omega), if_neg (by omega)]

theorem refine_cpuWr_wrk (b : Board) {a : Addr} (d : Byte) (h : 0x6000 ≤ a.toNat) (h' : a.toNat < 0x8000) :
    refine b (.cpuWr a d) = .wrkWr a d := by
  rw [refine, if_neg (by omega), if_pos h]

theorem refine_cpuWr_prg (b : Board) {a : Addr} (d : Byte) (h : 0x8000 ≤ a.toNat) :
    refine b (.cpuWr a d) = refinePrgWrite b a d := if_pos h

theorem refine_ppuRd_chr (b : Board) {a : Addr} (h : a.toNat < 0x2000) : refine b (.ppuRd a) = .chrRd a := by
  rw [refine, refinePpuRd, if_neg (by omega), if_pos h]

theorem refine_ppuRd_nmt (b : Board) {a : Addr} (h : 0x2000 ≤ a.toNat) (h' : a.toNat < 0x3F00) :
    refine b (.ppuRd a) = .nmtRd a := by
  rw [refine, refinePpuRd, if_neg (by omega), if_neg (by omega)]

theorem refine_ppuRd_palette (b : Board) {a : Addr} (h : 0x3F00 ≤ a.toNat) :
    refine b (.ppuRd a) = .ppuPaletteRd a := if_pos h

theorem refine_ppuWr_chr (b : Board) {a : Addr} (d : Byte) (h : a.toNat < 0x2000) :
    refine b (.ppuWr a d) = .chrWr a d := by
  rw [refine, refinePpuWr, if_neg (by omega), if_pos h]

theorem refine_ppuWr_nmt (b : Board) {a : Addr} (d : Byte) (h : 0x2000 ≤ a.toNat) (h' : a.toNat < 0x3F00) :
    refine b (.ppuWr a d) = .nmtWr a d := by
  rw [refine, refinePpuWr, if_neg (by omega), if_neg (by omega)]

theorem refine_ppuWr_palette (b : Board) {a : Addr} (d : Byte) (h : 0x3F00 ≤ a.toNat) :
    refine b (.ppuWr a d) = .ppuPaletteWr a d := if_pos h

/-! ### The row of an MMC1 register write (R115) -/

theorem refineMmc1_reset (a : Addr) {d : Byte} (h : 0x80 ≤ d.toNat) : refineMmc1 a d = .mmc1SerialReset a d :=
  if_pos h

theorem refineMmc1_control {a : Addr} {d : Byte} (h : d.toNat < 0x80) (ha : a.toNat < 0xA000) :
    refineMmc1 a d = .mmc1ShiftControl a d := by
  rw [refineMmc1, if_neg (by omega), if_pos ha]

theorem refineMmc1_chr0 {a : Addr} {d : Byte} (h : d.toNat < 0x80) (ha : 0xA000 ≤ a.toNat)
    (ha' : a.toNat < 0xC000) : refineMmc1 a d = .mmc1ShiftChr0 a d := by
  rw [refineMmc1, if_neg (by omega), if_neg (by omega), if_pos ha']

theorem refineMmc1_chr1 {a : Addr} {d : Byte} (h : d.toNat < 0x80) (ha : 0xC000 ≤ a.toNat)
    (ha' : a.toNat < 0xE000) : refineMmc1 a d = .mmc1ShiftChr1 a d := by
  rw [refineMmc1, if_neg (by omega), if_neg (by omega), if_neg (by omega), if_pos ha']

theorem refineMmc1_prg {a : Addr} {d : Byte} (h : d.toNat < 0x80) (ha : 0xE000 ≤ a.toNat) :
    refineMmc1 a d = .mmc1ShiftPrg a d := by
  rw [refineMmc1, if_neg (by omega), if_neg (by omega), if_neg (by omega), if_neg (by omega)]

/-- A board with no row of its own leaves a `CPU_WR` as it is (R117). -/
theorem refinePrgWrite_of_noRow {b : Board} (h : boardHasNoRow b = true) (a : Addr) (d : Byte) :
    refinePrgWrite b a d = .cpuWr a d := by
  cases b with
  | nrom | mmc1 | uxrom | cnrom | axrom => cases h
  | menu | latch | pattern => rfl

/-! ### The most specific row -/

/-- The row of an MMC1 register write is the most specific one of its word. -/
theorem refineMmc1_rowFor {a : Addr} (d : Byte) (h : 0x8000 ≤ a.toNat) :
    (refineMmc1 a d).rowFor .mmc1 = true := by
  have := a.isLt
  unfold refineMmc1
  split
  · simp [Instr.rowFor, Instr.wf, inRange]; omega
  split
  · simp [Instr.rowFor, Instr.wf, inRange]; omega
  split
  · simp [Instr.rowFor, Instr.wf, inRange]; omega
  split
  · simp [Instr.rowFor, Instr.wf, inRange]; omega
  · simp [Instr.rowFor, Instr.wf, inRange]; omega

/-- The row of a write to `$8000..$FFFF` is the most specific one of its word on the board built. -/
theorem refinePrgWrite_rowFor (b : Board) {a : Addr} (d : Byte) (h : 0x8000 ≤ a.toNat) :
    (refinePrgWrite b a d).rowFor b = true := by
  have ha := a.isLt
  cases b with
  | mmc1 => exact refineMmc1_rowFor d h
  | nrom | uxrom | cnrom | axrom => simp [refinePrgWrite, Instr.rowFor, Instr.wf, inRange]; omega
  | menu p | latch p | pattern p =>
    simp [refinePrgWrite, Instr.rowFor, Instr.wf, boardHasNoRow, h]

/-- What a transaction is refined to is the most specific row of its word (R115, R116). -/
theorem refine_rowFor (b : Board) {i : Instr} (hc : i.isClass = true) (hw : i.wf = true) :
    (refine b i).rowFor b = true := by
  cases i with
  | cpuRd a =>
    have := a.isLt
    rcases Nat.lt_or_ge a.toNat 0x6000 with h | h
    · simp [refine_cpuRd_low b h, Instr.rowFor, Instr.wf, h]
    rcases Nat.lt_or_ge a.toNat 0x8000 with h' | h'
    · simp [refine_cpuRd_wrk b h h', Instr.rowFor, Instr.wf, inRange, h, h']
    · simp [refine_cpuRd_prg b h', Instr.rowFor, Instr.wf, inRange, h', this]
  | cpuWr a d =>
    rcases Nat.lt_or_ge a.toNat 0x6000 with h | h
    · simp [refine_cpuWr_low b d h, Instr.rowFor, Instr.wf, h]
    rcases Nat.lt_or_ge a.toNat 0x8000 with h' | h'
    · simp [refine_cpuWr_wrk b d h h', Instr.rowFor, Instr.wf, inRange, h, h']
    · rw [refine_cpuWr_prg b d h']
      exact refinePrgWrite_rowFor b d h'
  | ppuRd a =>
    obtain ⟨-, ha⟩ := inRange_iff.1 hw
    rcases Nat.lt_or_ge a.toNat 0x2000 with h | h
    · simp [refine_ppuRd_chr b h, Instr.rowFor, Instr.wf, inRange, h]
    rcases Nat.lt_or_ge a.toNat 0x3F00 with h' | h'
    · simp [refine_ppuRd_nmt b h h', Instr.rowFor, Instr.wf, inRange, h, h']
    · simp [refine_ppuRd_palette b h', Instr.rowFor, Instr.wf, inRange, h', ha]
  | ppuWr a d =>
    obtain ⟨-, ha⟩ := inRange_iff.1 hw
    rcases Nat.lt_or_ge a.toNat 0x2000 with h | h
    · simp [refine_ppuWr_chr b d h, Instr.rowFor, Instr.wf, inRange, h]
    rcases Nat.lt_or_ge a.toNat 0x3F00 with h' | h'
    · simp [refine_ppuWr_nmt b d h h', Instr.rowFor, Instr.wf, inRange, h, h']
    · simp [refine_ppuWr_palette b d h', Instr.rowFor, Instr.wf, inRange, h', ha]
  | resetHard | resetSoft | save | load => rfl
  | _ => cases hc

/-- The transaction of a board's row of a write to `$8000..$FFFF` is refined to that row (R115). -/
theorem refine_prgWrite {b : Board} {a : Addr} {d : Byte} {i : Instr} (h : 0x8000 ≤ a.toNat)
    (hi : refinePrgWrite b a d = i) : refine b (.cpuWr a d) = i := by
  rw [refine_cpuWr_prg b d h, hi]

/-- The board built refines the transaction of its most specific row to that row (R115, R116). -/
theorem refine_transaction {b : Board} {i : Instr} (h : i.rowFor b = true) : refine b i.transaction = i := by
  cases i <;> simp only [Instr.rowFor, Instr.wf, inRange, Bool.and_eq_true, Bool.or_eq_true, decide_eq_true_eq,
    true_and, Bool.false_eq_true, and_false, and_true] at h
  case cpuRd a => exact refine_cpuRd_low b h
  case cpuWr a d =>
    rcases h with h | ⟨h, hb⟩
    · exact refine_cpuWr_low b d h
    · exact refine_prgWrite h (refinePrgWrite_of_noRow hb a d)
  case prgRd a => exact refine_cpuRd_prg b h.1
  case wrkRd a => exact refine_cpuRd_wrk b h.1 h.2
  case wrkWr a d => exact refine_cpuWr_wrk b d h.1 h.2
  case chrRd a => exact refine_ppuRd_chr b h.2
  case nmtRd a => exact refine_ppuRd_nmt b h.1 h.2
  case ppuPaletteRd a => exact refine_ppuRd_palette b h.1
  case chrWr a d => exact refine_ppuWr_chr b d h.2
  case nmtWr a d => exact refine_ppuWr_nmt b d h.1 h.2
  case ppuPaletteWr a d => exact refine_ppuWr_palette b d h.1
  case nromWrIgnored a d | uxromPrgSelect a d | cnromChrSelect a d | axromSelect a d =>
    obtain ⟨⟨ha, -⟩, rfl⟩ := h
    exact refine_prgWrite ha rfl
  case mmc1SerialReset a d =>
    obtain ⟨⟨⟨ha, -⟩, hd⟩, rfl⟩ := h
    exact refine_prgWrite ha (refineMmc1_reset a hd)
  case mmc1ShiftControl a d =>
    obtain ⟨⟨⟨ha, ha'⟩, hd⟩, rfl⟩ := h
    exact refine_prgWrite ha (refineMmc1_control hd ha')
  case mmc1ShiftChr0 a d =>
    obtain ⟨⟨⟨ha, ha'⟩, hd⟩, rfl⟩ := h
    exact refine_prgWrite (by omega) (refineMmc1_chr0 hd ha ha')
  case mmc1ShiftChr1 a d =>
    obtain ⟨⟨⟨ha, ha'⟩, hd⟩, rfl⟩ := h
    exact refine_prgWrite (by omega) (refineMmc1_chr1 hd ha ha')
  case mmc1ShiftPrg a d =>
    obtain ⟨⟨⟨ha, -⟩, hd⟩, rfl⟩ := h
    exact refine_prgWrite (by omega) (refineMmc1_prg hd ha)
  all_goals rfl

theorem decode_of_decodeClass (b : Board) {w : Word} {i : Instr} (h : decodeClass w = .ok i) :
    decode b w = .ok (refine b i) := by
  rw [decode, h]

/-- Everything a word that decodes stands for: a transaction, refined by the board built. -/
theorem decode_cases {b : Board} {w : Word} {i : Instr} (h : decode b w = .ok i) :
    ∃ j, decodeClass w = .ok j ∧ i = refine b j := by
  unfold decode at h
  split at h
  · cases h
    exact ⟨_, ‹_›, rfl⟩
  · cases h

/-- Settles O3: the row's word is that of its transaction, which decodes and is refined to the row. -/
theorem rowDecodesFromItsWord : Obligations.RowDecodesFromItsWord := by
  unfold Obligations.RowDecodesFromItsWord
  intro b i h
  have hclass := decodeClass_encode i.transaction_isClass (Instr.transaction_wf (Instr.rowFor_wf h))
  rw [← encode_transaction, decode_of_decodeClass b hclass, refine_transaction h]

/-- Settles O4: a decoded word is its transaction's encoding, and refining keeps the encoding. -/
theorem decodedWordIsTheEncoding : Obligations.DecodedWordIsTheEncoding := by
  unfold Obligations.DecodedWordIsTheEncoding
  intro b w i h
  obtain ⟨j, hj, rfl⟩ := decode_cases h
  obtain ⟨henc, hclass, hwf⟩ := decodeClass_cases hj
  exact ⟨(encode_refine b j).trans henc, refine_rowFor b hclass hwf⟩

/-! ### Reserved words (R113) -/

/-- R113's reserved words are the ones the decoder rejects. -/
theorem decodeClass_ok_iff (w : Word) : (∃ i, decodeClass w = .ok i) ↔ ¬ ReservedWord w := by
  have hh := field_lt w 24 24
  have ha := field_lt w 23 8
  have hd := field_lt w 7 0
  unfold decodeClass ReservedWord
  simp only []
  split <;> simp [checkFields_ok, *]
  case h_8 => exact fun h _ _ _ _ => absurd (h ‹_› ‹_› ‹_› ‹_› ‹_› ‹_›) ‹_›
  all_goals omega

theorem decodeClass_of_reserved {w : Word} (h : ReservedWord w) : ∃ e, decodeClass w = .error e := by
  cases hd : decodeClass w with
  | ok i => exact absurd h ((decodeClass_ok_iff w).1 ⟨i, hd⟩)
  | error e => exact ⟨e, rfl⟩

theorem decode_of_reserved (b : Board) {w : Word} (h : ReservedWord w) : ∃ e, decode b w = .error e := by
  obtain ⟨e, he⟩ := decodeClass_of_reserved h
  exact ⟨e, by rw [decode, he]⟩

theorem decode_of_not_reserved (b : Board) {w : Word} (h : ¬ ReservedWord w) : ∃ i, decode b w = .ok i := by
  obtain ⟨i, hi⟩ := (decodeClass_ok_iff w).2 h
  exact ⟨_, decode_of_decodeClass b hi⟩

end Sys2Proof

namespace Sys2Proof.Machine

/-! ### A step, by the next waiting word -/

theorem step_of_decode {s : State} {tr : Transaction} {rest : List Transaction} {i : Instr}
    (hp : s.pending = tr :: rest) (hd : decode s.cart.board tr.word = .ok i) :
    step s = exec i { s with pending := rest, stream := tr.stream } := by
  simp only [step, fetch, hp, hd]

theorem step_of_error {s : State} {tr : Transaction} {rest : List Transaction} {e : DecodeError}
    (hp : s.pending = tr :: rest) (hd : decode s.cart.board tr.word = .error e) :
    step s = .next { s with
      pending := rest, stream := tr.stream, refused := true, result := .refused .reservedEncoding,
      events := [] } := by
  simp only [step, fetch, hp, hd]
  rfl

theorem step_of_none {s : State} (hp : s.pending = []) : step s = .fault .noTransaction := by
  simp only [step, fetch, hp]

/-- Settles O7: the three answers of a step, by the word that waits. -/
theorem stepRunsTheNextTransaction : Obligations.StepRunsTheNextTransaction := by
  unfold Obligations.StepRunsTheNextTransaction
  exact ⟨fun _ _ _ _ hp hd => step_of_decode hp hd, fun _ hp => step_of_none hp⟩

/-! ### Rows and their transaction -/

theorem refine_mem_cpuReads (b : Board) (a : Addr) : refine b (.cpuRd a) ∈ cpuReads a := by
  rw [refine, cpuReads]
  split
  · simp
  · split <;> simp

theorem refineMmc1_mem_cpuWrites (a : Addr) (d : Byte) : refineMmc1 a d ∈ cpuWrites a d := by
  unfold refineMmc1 cpuWrites
  repeat' split
  all_goals simp

theorem refinePrgWrite_mem_cpuWrites (b : Board) (a : Addr) (d : Byte) :
    refinePrgWrite b a d ∈ cpuWrites a d := by
  cases b with
  | mmc1 => exact refineMmc1_mem_cpuWrites a d
  | _ => simp [refinePrgWrite, cpuWrites]

theorem refine_mem_cpuWrites (b : Board) (a : Addr) (d : Byte) : refine b (.cpuWr a d) ∈ cpuWrites a d := by
  rw [refine]
  split
  · exact refinePrgWrite_mem_cpuWrites b a d
  · unfold cpuWrites
    split <;> simp

theorem refine_mem_ppuReads (b : Board) (a : Addr) : refine b (.ppuRd a) ∈ ppuReads a := by
  rw [refine, refinePpuRd, ppuReads]
  split
  · simp
  · split <;> simp

theorem refine_mem_ppuWrites (b : Board) (a : Addr) (d : Byte) : refine b (.ppuWr a d) ∈ ppuWrites a d := by
  rw [refine, refinePpuWr, ppuWrites]
  split
  · simp
  · split <;> simp

/-- Settles O6: a row of a transaction runs as the transaction does. -/
theorem rowsMeanTheirTransaction : Obligations.RowsMeanTheirTransaction := by
  unfold Obligations.RowsMeanTheirTransaction
  intro b i s
  cases i with
  | cpuRd a => exact exec_cpuReads (refine_mem_cpuReads b a) s
  | cpuWr a d => exact exec_cpuWrites (refine_mem_cpuWrites b a d) s
  | ppuRd a => exact exec_ppuReads (refine_mem_ppuReads b a) s
  | ppuWr a d => exact exec_ppuWrites (refine_mem_ppuWrites b a d) s
  | _ => rfl

/-! ### The palette (R75) -/

theorem ppuRoute_palette {p : Addr} (h : 0x3F00 ≤ p.toNat) : ppuRoute p = none := if_pos h

theorem ppuRoute_chr {p : Addr} (h : p.toNat < 0x2000) : ppuRoute p = some (.chr, p.toNat) := by
  rw [ppuRoute, if_neg (by omega), if_pos h]

theorem ppuRoute_nmt {p : Addr} (h : 0x2000 ≤ p.toNat) (h' : p.toNat < 0x3F00) :
    ppuRoute p = some (.nmt, (p.toNat - 0x2000) % 0x1000) := by
  rw [ppuRoute, if_neg (by omega), if_neg (by omega)]

theorem ppuRead_palette {p : Addr} {s : State} (h : 0x3F00 ≤ p.toNat) (hp : s.powered = true) :
    ppuRead p s = { s with refused := true, result := .refused .ppuPalette, events := [] } := by
  rw [ppuRead_on p hp, ppuRoute_palette h]

theorem ppuWrite_palette {p : Addr} (d : Byte) {s : State} (h : 0x3F00 ≤ p.toNat) (hp : s.powered = true) :
    ppuWrite p d s = { s with refused := true, result := .refused .ppuPalette, events := [] } := by
  rw [ppuWrite_on p d hp, ppuRoute_palette h]

/-- Settles O25: no row of a PPU transaction leads anywhere at a palette address. -/
theorem paletteIsRefused : Obligations.PaletteIsRefused := by
  unfold Obligations.PaletteIsRefused
  intro a d i s hi hp ha
  rcases List.mem_append.1 hi with hi | hi
  · rw [exec_ppuReads hi, ppuRead_palette ha hp]
  · rw [exec_ppuWrites hi, ppuWrite_palette d ha hp]

/-- Settles O5: the reserved words are those the decoder rejects, before the row is asked for; a palette word
is not among them. -/
theorem reservedWordsAreRefused : Obligations.ReservedWordsAreRefused := by
  unfold Obligations.ReservedWordsAreRefused
  refine ⟨fun s tr rest hp hw => ?_, fun b w hw => decode_of_not_reserved b hw,
    fun b a d s hlo hhi hp => ⟨?_, ?_, fun i hi => ?_⟩⟩
  · obtain ⟨e, he⟩ := decode_of_reserved s.cart.board hw
    exact step_of_error hp he
  · rw [encode, decode_of_decodeClass b (decodeClass_ppuRd hhi), refine_ppuRd_palette b hlo]
  · rw [encode, decode_of_decodeClass b (decodeClass_ppuWr d hhi), refine_ppuWr_palette b d hlo]
  · refine paletteIsRefused a d i s (List.mem_append.2 ?_) hp hlo
    simp only [List.mem_cons, List.not_mem_nil, or_false] at hi
    rcases hi with rfl | rfl
    · exact .inl (by simp [ppuReads])
    · exact .inr (by simp [ppuWrites])

end Sys2Proof.Machine
end

section
/-! SUPPORT. A CPU write of a ready board (44_boards.md): the binding it reaches, MMC1's serial port row by row,
and the registers and windows each board's write leaves. -/

namespace Sys2Proof.Machine

/-! ### What a CPU write does when its handler completes -/

/-- The state in which a write handler runs: the outputs empty, the latch with the CPU's byte (R191). -/
def latched (d : Byte) (s : State) : State := { clearOutput s with latch := d }

theorem cpuWrite_of_ok {s t : State} {a : Addr} {d : Byte} (hp : s.powered = true)
    (h : writeBound (s.bus.writeAt a.toNat) a d (busValue a d (latched d s)) (latched d s) = .ok t) :
    cpuWrite a d s = t := by
  unfold latched at h
  rw [cpuWrite_on a d hp, h]

theorem cpuWrite_of_refused {s : State} {a : Addr} {d : Byte} {r : RefuseReason} (hp : s.powered = true)
    (h : writeBound (s.bus.writeAt a.toNat) a d (busValue a d (latched d s)) (latched d s)
      = .error (.refused r)) :
    cpuWrite a d s = { s with refused := true, result := .refused r, events := [] } := by
  unfold latched at h
  rw [cpuWrite_on a d hp, h]
  rfl

/-- Running a row of a CPU write is the write. -/
theorem exec_of_cpuWrite {i : Instr} (a : Addr) (d : Byte) {s t : State} (hi : i ∈ cpuWrites a d)
    (h : cpuWrite a d s = t) : exec i s = .next t := by
  rw [exec_cpuWrites hi, h]

/-- Without a bus conflict the bus value is the CPU's byte (R192). -/
theorem busValue_of_noConflict {s : State} (a : Addr) (d : Byte) (h : boardConflicts s.cart.board = false) :
    busValue a d s = d := by
  simp [busValue, h]

theorem State.Ready.table {s : State} {b : Board} (h : s.Ready b) : s.bus = boardTable s.cart :=
  (h.settled h.powered).1

theorem State.Ready.windows {s : State} {b : Board} (h : s.Ready b) :
    s.windows = boardWindows s.cart s.board := (h.settled h.powered).2

/-- A write to `$8000..$FFFF` of a ready board without bus conflicts reaches the board's handler with the CPU's
byte. -/
theorem cpuWrite_prg {s t : State} {b : Board} {a : Addr} {d : Byte} (hR : s.Ready b)
    (ha : 0x8000 ≤ a.toNat) (hc : boardConflicts b = false)
    (h : writeBound (prgWriteBinding b) a d d (latched d s) = .ok t) : cpuWrite a d s = t := by
  refine cpuWrite_of_ok hR.powered ?_
  rw [hR.writePrg ha, busValue_of_noConflict a d (by show boardConflicts s.cart.board = false; rw [hR.board, hc]), h]

/-- A ready NROM ignores the write (R283). -/
theorem cpuWrite_nrom {s : State} {a : Addr} (d : Byte) (hR : s.Ready .nrom) (ha : 0x8000 ≤ a.toNat) :
    cpuWrite a d s = latched d s := cpuWrite_prg hR ha rfl rfl

/-- Settles O19. -/
theorem nromWriteIsIgnored : Obligations.NromWriteIsIgnored := by
  unfold Obligations.NromWriteIsIgnored
  intro a d s hR ha
  exact exec_of_cpuWrite a d (by simp [cpuWrites]) (cpuWrite_nrom d hR ha)

/-! ### MMC1: the serial step and the row of a write -/

theorem field_toNat {n : Nat} (v : BitVec n) (hi lo : Nat) :
    field v hi lo = v.toNat / 2 ^ lo % 2 ^ (hi + 1 - lo) := rfl

theorem field_bit7_iff (d : Byte) : field d 7 7 = 1 ↔ 0x80 ≤ d.toNat := by
  have := d.isLt
  rw [field_toNat]
  omega

/-- The bit a serial write puts in, at the place the count gives (R293). -/
theorem serialBit_eq (e : Byte) (n : Nat) :
    BitVec.ofNat 5 (field e 0 0 <<< n) = BitVec.ofNat 5 (e.toNat % 2) <<< n := by
  apply BitVec.eq_of_toNat_eq
  simp [field, Nat.shiftLeft_eq]

theorem mmc1Shift_early (e : Byte) {r : Mmc1Regs} (h : r.count.toNat < 4) :
    mmc1Shift e r =
      ({ r with
          shift := r.shift ||| (BitVec.ofNat 5 (e.toNat % 2) <<< r.count.toNat), count := r.count + 1 }, none) := by
  rw [mmc1Shift, if_pos h, serialBit_eq]

theorem mmc1Shift_fifth (e : Byte) {r : Mmc1Regs} (h : r.count = 4) :
    mmc1Shift e r =
      ({ r with shift := 0, count := 0 }, some (r.shift ||| (BitVec.ofNat 5 (e.toNat % 2) <<< 4))) := by
  rw [mmc1Shift, if_neg (by rw [h]; decide), serialBit_eq, h]
  rfl

/-- A ready MMC1 runs the row of the write (R291, R115). -/
theorem cpuWrite_mmc1 {s : State} {r : Mmc1Regs} {a : Addr} (d : Byte) (hR : s.Ready .mmc1)
    (hr : s.board = .mmc1 r) (ha : 0x8000 ≤ a.toNat) : cpuWrite a d s = mmc1Row a d r (latched d s) := by
  refine cpuWrite_prg hR ha rfl ?_
  simp only [prgWriteBinding, writeBound, boardWrite, mmc1Write, latched, clearOutput, hr]

theorem mmc1Row_reset (a : Addr) {e : Byte} (r : Mmc1Regs) (s : State) (h : 0x80 ≤ e.toNat) :
    mmc1Row a e r s = mmc1SerialReset r s := if_pos ((field_bit7_iff e).2 h)

theorem mmc1Row_control {a : Addr} {e : Byte} (r : Mmc1Regs) (s : State) (h : e.toNat < 0x80)
    (ha : a.toNat < 0xA000) : mmc1Row a e r s = mmc1ShiftControl e r s := by
  rw [mmc1Row, if_neg (by rw [field_bit7_iff]; omega), if_pos ha]

theorem mmc1Row_chr0 {a : Addr} {e : Byte} (r : Mmc1Regs) (s : State) (h : e.toNat < 0x80)
    (ha : 0xA000 ≤ a.toNat) (ha' : a.toNat < 0xC000) : mmc1Row a e r s = mmc1ShiftChr0 e r s := by
  rw [mmc1Row, if_neg (by rw [field_bit7_iff]; omega), if_neg (by omega), if_pos ha']

theorem mmc1Row_chr1 {a : Addr} {e : Byte} (r : Mmc1Regs) (s : State) (h : e.toNat < 0x80)
    (ha : 0xC000 ≤ a.toNat) (ha' : a.toNat < 0xE000) : mmc1Row a e r s = mmc1ShiftChr1 e r s := by
  rw [mmc1Row, if_neg (by rw [field_bit7_iff]; omega), if_neg (by omega), if_neg (by omega), if_pos ha']

theorem mmc1Row_prg {a : Addr} {e : Byte} (r : Mmc1Regs) (s : State) (h : e.toNat < 0x80)
    (ha : 0xE000 ≤ a.toNat) : mmc1Row a e r s = mmc1ShiftPrg e r s := by
  rw [mmc1Row, if_neg (by rw [field_bit7_iff]; omega), if_neg (by omega), if_neg (by omega), if_neg (by omega)]

/-- The first four serial writes only shift, whatever row the address selects (R293 to R296). -/
theorem mmc1Row_early (a : Addr) {e : Byte} {r : Mmc1Regs} (s : State) (h : e.toNat < 0x80)
    (hc : r.count.toNat < 4) :
    mmc1Row a e r s = { s with board := .mmc1 { r with
      shift := r.shift ||| (BitVec.ofNat 5 (e.toNat % 2) <<< r.count.toNat), count := r.count + 1 } } := by
  have hs := mmc1Shift_early e hc
  rw [mmc1Row, if_neg (by rw [field_bit7_iff]; omega)]
  split
  · simp only [mmc1ShiftControl, hs]
  split
  · simp only [mmc1ShiftChr0, hs]
  split
  · simp only [mmc1ShiftChr1, hs]
  · simp only [mmc1ShiftPrg, hs]

/-! ### MMC1: what a committed write leaves -/

theorem mmc1SerialReset_eq (r : Mmc1Regs) {s : State} (h : s.prg.length = 4) :
    mmc1SerialReset r s = { s with
      board := .mmc1 { r with shift := 0, count := 0, ctrl := r.ctrl ||| 0x0C }
      prg := mmc1PrgPages s.cart { r with shift := 0, count := 0, ctrl := r.ctrl ||| 0x0C } } :=
  mmc1UpdatePrg_eq _ h

/-- The value a fifth serial write commits (R293). -/
def fifthValue (e : Byte) (r : Mmc1Regs) : BitVec 5 := r.shift ||| (BitVec.ofNat 5 (e.toNat % 2) <<< 4)

theorem mmc1ShiftControl_fifth (e : Byte) {r : Mmc1Regs} {s : State} (hc : r.count = 4) (h : PageCounts s)
    (hn : NmtHome s) :
    mmc1ShiftControl e r s =
      let r' : Mmc1Regs := { r with ctrl := fifthValue e r, shift := 0, count := 0 }
      { s with
        board := .mmc1 r', prg := mmc1PrgPages s.cart r', chr := mmc1ChrPages s.cart r'
        nmt := nmtOfMode s.cart (mmc1Mirroring r')
        events := noted s.events ++ mirrorCall s.cart (mmc1Mirroring r') } := by
  simp only [mmc1ShiftControl, mmc1Shift_fifth e hc]
  exact mmc1Update_eq _ (s := { s with board := _ }) ⟨h.prg, h.chr, h.nmt, h.wrk⟩ hn

theorem mmc1ShiftChr0_fifth (e : Byte) {r : Mmc1Regs} {s : State} (hc : r.count = 4) (h : s.chr.length = 8) :
    mmc1ShiftChr0 e r s =
      let r' : Mmc1Regs := { r with chr0 := fifthValue e r, shift := 0, count := 0 }
      { s with board := .mmc1 r', chr := mmc1ChrPages s.cart r', events := noted s.events } := by
  simp only [mmc1ShiftChr0, mmc1Shift_fifth e hc]
  exact mmc1UpdateChr_eq _ h

theorem mmc1ShiftChr1_fifth (e : Byte) {r : Mmc1Regs} {s : State} (hc : r.count = 4) (h : s.chr.length = 8) :
    mmc1ShiftChr1 e r s =
      let r' : Mmc1Regs := { r with chr1 := fifthValue e r, shift := 0, count := 0 }
      { s with board := .mmc1 r', chr := mmc1ChrPages s.cart r', events := noted s.events } := by
  simp only [mmc1ShiftChr1, mmc1Shift_fifth e hc]
  exact mmc1UpdateChr_eq _ h

theorem mmc1ShiftPrg_fifth (e : Byte) {r : Mmc1Regs} {s : State} (hc : r.count = 4) (h : s.prg.length = 4) :
    mmc1ShiftPrg e r s =
      let r' : Mmc1Regs := { r with prg := fifthValue e r, shift := 0, count := 0 }
      { s with board := .mmc1 r', prg := mmc1PrgPages s.cart r' } := by
  simp only [mmc1ShiftPrg, mmc1Shift_fifth e hc]
  exact mmc1UpdatePrg_eq _ h

/-- `ctrl OR $0C` selects PRG mode 3 (R292, R297). -/
theorem mmc1PrgPages_mode3 (c : Cartridge) (r : Mmc1Regs) (x : BitVec 5) :
    mmc1PrgPages c { r with shift := 0, count := 0, ctrl := x ||| 0x0C } = prg16 c (r.prg.toNat % 16) 15 := by
  have hmode : ∀ v : BitVec 5, field (v ||| 0x0C) 3 2 = 3 := by decide
  rw [mmc1PrgPages, if_pos (hmode x), field_toNat]
  simp

/-- The windows of a ready state leave what an update needs: the page counts and the nametables' home. -/
theorem State.Ready.nmtHome {s : State} {b : Board} (h : s.Ready b) : NmtHome s :=
  (untouched_of_windows h.wf.regs h.windows).nmtHome

theorem latched_counts {s : State} (d : Byte) (h : PageCounts s) : PageCounts (latched d s) :=
  ⟨h.prg, h.chr, h.nmt, h.wrk⟩

/-- Settles O40: the row clears the serial registers, and mode 3 has the bank of `prg` and the last one. -/
theorem mmc1SerialResetWrite : Obligations.Mmc1SerialResetWrite := by
  unfold Obligations.Mmc1SerialResetWrite
  intro a d s r hR hr ha hd
  refine exec_of_cpuWrite a d (by simp [cpuWrites]) ?_
  rw [cpuWrite_mmc1 d hR hr ha, mmc1Row_reset a r _ hd,
    mmc1SerialReset_eq r (latched_counts d hR.wf.counts).prg, mmc1PrgPages_mode3]
  rfl

/-- Settles O41. -/
theorem mmc1EarlyWriteOnlyShifts : Obligations.Mmc1EarlyWriteOnlyShifts := by
  unfold Obligations.Mmc1EarlyWriteOnlyShifts
  intro a d i s r hR hr ha hd hc hi
  have hmem : i ∈ cpuWrites a d := by
    simp only [List.mem_cons, List.not_mem_nil, or_false] at hi
    rcases hi with rfl | rfl | rfl | rfl <;> simp [cpuWrites]
  rw [exec_cpuWrites hmem, cpuWrite_mmc1 d hR hr ha, mmc1Row_early a _ hd hc]
  rfl

/-- Settles O42. -/
theorem mmc1FifthWriteLoadsControl : Obligations.Mmc1FifthWriteLoadsControl := by
  unfold Obligations.Mmc1FifthWriteLoadsControl
  intro a d s r hR hr ha ha' hd hc
  refine exec_of_cpuWrite a d (by simp [cpuWrites]) ?_
  rw [cpuWrite_mmc1 d hR hr ha, mmc1Row_control r _ hd ha',
    mmc1ShiftControl_fifth d hc (latched_counts d hR.wf.counts) hR.nmtHome]
  rfl

/-- Settles O43. -/
theorem mmc1FifthWriteLoadsAChrRegister : Obligations.Mmc1FifthWriteLoadsAChrRegister := by
  unfold Obligations.Mmc1FifthWriteLoadsAChrRegister
  intro a d s r hR hr hd hc
  have hlen := (latched_counts d hR.wf.counts).chr
  refine ⟨fun ha ha' => exec_of_cpuWrite a d (by simp [cpuWrites]) ?_,
    fun ha ha' => exec_of_cpuWrite a d (by simp [cpuWrites]) ?_⟩
  · rw [cpuWrite_mmc1 d hR hr (by omega), mmc1Row_chr0 r _ hd ha ha', mmc1ShiftChr0_fifth d hc hlen]
    rfl
  · rw [cpuWrite_mmc1 d hR hr (by omega), mmc1Row_chr1 r _ hd ha ha', mmc1ShiftChr1_fifth d hc hlen]
    rfl

/-- Settles O44. -/
theorem mmc1FifthWriteLoadsPrg : Obligations.Mmc1FifthWriteLoadsPrg := by
  unfold Obligations.Mmc1FifthWriteLoadsPrg
  intro a d s r hR hr ha hd hc
  refine exec_of_cpuWrite a d (by simp [cpuWrites]) ?_
  rw [cpuWrite_mmc1 d hR hr (by omega), mmc1Row_prg r _ hd ha,
    mmc1ShiftPrg_fifth d hc (latched_counts d hR.wf.counts).prg]
  rfl

/-! ### UxROM, CNROM, AxROM -/

/-- A ready board with one register, its handler run on the bus value. -/
theorem cpuWrite_prgBus {s t : State} {b : Board} {a : Addr} {d : Byte} (hR : s.Ready b)
    (ha : 0x8000 ≤ a.toNat)
    (h : writeBound (prgWriteBinding b) a d (busValue a d (latched d s)) (latched d s) = .ok t) :
    cpuWrite a d s = t := by
  refine cpuWrite_of_ok hR.powered ?_
  rw [hR.writePrg ha, h]

theorem State.Ready.uxromPrg {s : State} {v : Byte} (h : s.Ready .uxrom) (hv : s.board = .uxrom v) :
    s.prg = prg16 s.cart v.toNat 0xFFFFFFFF := by
  have hw := congrArg Windows.prg h.windows
  rw [hv] at hw
  simpa only [State.windows, boardWindows, h.board] using hw

theorem cpuWrite_uxrom {s : State} {a : Addr} (d : Byte) (hR : s.Ready .uxrom) (ha : 0x8000 ≤ a.toNat) :
    cpuWrite a d s =
      let e := busValue a d (latched d s)
      { latched d s with board := .uxrom e, prg := prg16 s.cart e.toNat 0xFFFFFFFF } := by
  obtain ⟨v, hv⟩ := (board_of_regsMatch hR.wf.regs).1 hR.board
  refine cpuWrite_prgBus hR ha ?_
  rw [prgWriteBinding, writeBound, boardWrite, uxromWrite_of _ (by exact hv), swapBank_prg,
    mapBank_prgLow _ _ _ (by exact hR.uxromPrg hv)]
  rfl

theorem cpuWrite_cnrom {s : State} {a : Addr} (d : Byte) (hR : s.Ready .cnrom) (ha : 0x8000 ≤ a.toNat) :
    cpuWrite a d s =
      let e := busValue a d (latched d s)
      { latched d s with board := .cnrom e, chr := chr8 s.cart e.toNat, events := [.ppuUpdate] } := by
  obtain ⟨v, hv⟩ := (board_of_regsMatch hR.wf.regs).2.1 hR.board
  refine cpuWrite_prgBus hR ha ?_
  rw [prgWriteBinding, writeBound, boardWrite, cnromWrite_of _ (by exact hv),
    cnromUpdate_eq _ (by exact hR.wf.counts.chr)]
  rfl

theorem cpuWrite_axrom {s : State} {a : Addr} (d : Byte) (hR : s.Ready .axrom) (ha : 0x8000 ≤ a.toNat) :
    cpuWrite a d s =
      { latched d s with
        board := .axrom d, prg := prg32 s.cart (field d 3 0), nmt := nmtOfMode s.cart (axromMirroring d)
        events := mirrorEvents s.cart (axromMirroring d) } := by
  obtain ⟨v, hv⟩ := (board_of_regsMatch hR.wf.regs).2.2 hR.board
  refine cpuWrite_prg hR ha rfl ?_
  have hcounts := hR.wf.counts
  rw [prgWriteBinding, writeBound, boardWrite, axromWrite_of _ (by exact hv),
    axromUpdate_eq _ (s := { latched d s with board := .axrom d })
      ⟨hcounts.prg, hcounts.chr, hcounts.nmt, hcounts.wrk⟩ hR.nmtHome]
  by_cases hf : s.cart.mirroring = .four
  · simp [latched, mirrorEvents, hf]
  · simp [latched, mirrorEvents, mirrorCall, hf]

/-- Settles O46. -/
theorem uxromWriteSelectsPrg : Obligations.UxromWriteSelectsPrg := by
  unfold Obligations.UxromWriteSelectsPrg
  exact fun a d s hR ha => exec_of_cpuWrite a d (by simp [cpuWrites]) (cpuWrite_uxrom d hR ha)

/-- Settles O47. -/
theorem cnromWriteSelectsChr : Obligations.CnromWriteSelectsChr := by
  unfold Obligations.CnromWriteSelectsChr
  exact fun a d s hR ha => exec_of_cpuWrite a d (by simp [cpuWrites]) (cpuWrite_cnrom d hR ha)

/-- Settles O48. -/
theorem axromWriteSelectsPrgAndScreen : Obligations.AxromWriteSelectsPrgAndScreen := by
  unfold Obligations.AxromWriteSelectsPrgAndScreen
  intro a d s hR ha
  have hbank : field d 3 0 = d.toNat % 16 := by simp [field_toNat]
  have hscreen : axromMirroring d = if d.toNat / 16 % 2 = 1 then .s1 else .s0 := rfl
  refine exec_of_cpuWrite a d (by simp [cpuWrites]) ?_
  rw [cpuWrite_axrom d hR ha, hbank, hscreen]
  rfl

end Sys2Proof.Machine
end

section
/-! SUPPORT. Well-formed states stay well-formed: pages, RAM and registers under each transaction, on every board
(R36, R38, R41). -/

namespace Sys2Proof.Machine

/-! ### Well-formedness by its three parts -/

theorem State.Wf.allPages {s : State} (h : s.Wf) : AllPagesWf s := fun w => by
  cases w with
  | prg => exact h.prgPages
  | chr => exact h.chrPages
  | nmt => exact h.nmtPages
  | wrk => exact h.wrkPages

theorem State.Wf.rams {s : State} (h : s.Wf) : RamsWf s := fun w => by
  cases w with
  | prg => exact ⟨⟨List.Pairwise.nil, nofun⟩, nofun⟩
  | chr => exact h.chrRam
  | nmt => exact h.nmtRam
  | wrk => exact h.wrkRam

theorem State.Wf.of_parts {s : State} (hp : AllPagesWf s) (hr : RamsWf s)
    (hb : regsMatch s.cart.board s.board) : s.Wf :=
  ⟨hr .chr, hr .nmt, hr .wrk, hp .prg, hp .chr, hp .nmt, hp .wrk, hb⟩

/-- A change that keeps pages and RAM well-formed and leaves registers of the board. -/
theorem State.Wf.keep {s t : State} (h : s.Wf) (hp : KeepsPages s t) (hr : KeepsRams s t)
    (hb : regsMatch t.cart.board t.board) : t.Wf := .of_parts (hp.2 h.allPages) (hr.2 h.rams) hb

/-- A change of the fields that well-formedness does not speak of. -/
theorem State.Wf.congr {s t : State} (h : s.Wf) (hc : t.cart = s.cart) (hp : ∀ w, t.pages w = s.pages w)
    (hr : ∀ w, t.ram w = s.ram w) (hb : t.board = s.board) : t.Wf :=
  h.keep (.of_pages hc hp) (.of_ram hc hr) (by rw [hc, hb]; exact h.regs)

/-- A well-formed state with another latch, marks, outputs, draws and waiting transactions. -/
theorem State.Wf.with_frame {s : State} (h : s.Wf) (l : Byte) (m : Bool) (ts : List Transaction) (bs : List Byte)
    (r : Result) (es : List Event) (n : Nat) :
    State.Wf { s with
      latch := l, refused := m, pending := ts, stream := bs, result := r, events := es, draws := n } :=
  h.congr rfl (fun w => by cases w <;> rfl) (fun w => by cases w <;> rfl) rfl

theorem State.Wf.clearOutput {s : State} (h : s.Wf) : (clearOutput s).Wf :=
  h.with_frame s.latch s.refused s.pending s.stream .done [] s.draws

theorem State.Wf.latched {s : State} (h : s.Wf) (d : Byte) : (latched d s).Wf :=
  h.with_frame d s.refused s.pending s.stream .done [] s.draws

theorem State.Wf.dropEvents {s : State} (h : s.Wf) : State.Wf { s with events := [] } :=
  h.with_frame s.latch s.refused s.pending s.stream s.result [] s.draws

theorem State.Wf.refused {s : State} (h : s.Wf) (r : RefuseReason) :
    State.Wf { s with refused := true, result := .refused r, events := [] } :=
  h.with_frame s.latch true s.pending s.stream (.refused r) [] s.draws

theorem writeBM_keepsPages (w : WinId) (o : Nat) (v : Byte) (s : State) : KeepsPages s (writeBM w o v s) := by
  unfold writeBM
  split
  · exact ⟨rfl, id⟩
  · exact .of_pages (State.setRam_cart ..) fun u => State.setRam_pages ..

theorem writeBM_board (w : WinId) (o : Nat) (v : Byte) (s : State) : (writeBM w o v s).board = s.board := by
  unfold writeBM
  split
  · rfl
  · exact State.setRam_board ..

theorem State.Wf.writeBM {s : State} (h : s.Wf) (w : WinId) (o : Nat) (v : Byte) : (writeBM w o v s).Wf := by
  refine h.keep (writeBM_keepsPages ..) (writeBM_keepsRams ..) ?_
  rw [writeBM_board, (writeBM_keepsRams w o v s).1]
  exact h.regs

/-! ### CPU writes -/

theorem swapBankChecked_onlyWindows {w : WinId} {size base i : Nat} {s t : State}
    (h : swapBankChecked w size base i s = .ok t) : OnlyWindows s t := by
  unfold swapBankChecked at h
  split at h
  · cases h
    exact swapBank_onlyWindows ..
  · cases h

theorem OnlyWindows.regs {s t : State} (h : OnlyWindows s t) (hr : regsMatch s.cart.board s.board) :
    regsMatch t.cart.board t.board := by
  rw [h.cart, h.board]
  exact hr

/-- A write binding leaves registers of the board (R41; assumption 25 for another board's handler). -/
theorem writeBound_regs {w : WriteBinding} {a : Addr} {d e : Byte} {s t : State}
    (hr : regsMatch s.cart.board s.board) (h : writeBound w a d e s = .ok t) :
    regsMatch t.cart.board t.board := by
  cases w with
  | system => cases h; exact hr
  | ignore => cases h; exact hr
  | wrkWin =>
    cases h
    rw [writeBM_board, (writeBM_keepsRams ..).1]
    exact hr
  | prgSwap size base => exact (swapBankChecked_onlyWindows h).regs hr
  | chrSwap size base => exact (swapBankChecked_onlyWindows h).regs hr
  | mirrorSwap k =>
    cases h
    exact (runHelper_onlyWindows ..).regs hr
  | boardWrite f => exact boardWrite_regs hr h

theorem cpuRead_wf {s : State} (a : Addr) (h : s.Wf) (hp : s.powered = true) : (cpuRead a s).Wf := by
  obtain ⟨v, n, hr⟩ := cpuRead_frame a hp
  rw [hr]
  exact h.with_frame v s.refused s.pending s.stream (.byte v) [] n

theorem cpuWrite_wf {s : State} (a : Addr) (d : Byte) (h : s.Wf) (hp : s.powered = true) :
    (cpuWrite a d s).Wf := by
  rcases cpuWrite_cases a d hp with ⟨t, hw, ht⟩ | ⟨r, ht⟩ <;> rw [ht]
  · exact (h.latched d).keep (keepsPages_write.writeBound hw) (keepsRams_write.writeBound hw)
      (writeBound_regs (h.latched d).regs hw)
  · exact h.refused r

/-! ### PPU transactions -/

theorem ppuRead_wf {s : State} (p : Addr) (h : s.Wf) (hp : s.powered = true) : (ppuRead p s).Wf := by
  rw [ppuRead_on p hp]
  split
  · exact h.refused _
  · exact h.with_frame s.latch s.refused s.pending s.stream _ [] s.draws

theorem ppuWrite_wf {s : State} (p : Addr) (d : Byte) (h : s.Wf) (hp : s.powered = true) :
    (ppuWrite p d s).Wf := by
  rw [ppuWrite_on p d hp]
  split
  · exact h.refused _
  · exact h.clearOutput.writeBM ..

/-! ### Resets -/

theorem defaultWindows_keepsPages (s : State) : KeepsPages s (defaultWindows s) :=
  (mapBank_keepsPages (by decide)).trans ((mapBank_keepsPages (by decide)).trans
    ((mapBank_keepsPages (by decide)).trans (setNmt_keepsPages ..)))

theorem State.Wf.defaultWindows {s : State} (h : s.Wf) : (defaultWindows s).Wf :=
  h.keep (defaultWindows_keepsPages s) (defaultWindows_onlyWindows s).keepsRams
    ((defaultWindows_onlyWindows s).regs h.regs)

/-- The state before `SubReset` is well-formed (R450, R451). -/
theorem State.Wf.resetBase {s : State} (h : s.Wf) (hard : Bool) : (resetBase hard s).Wf := by
  cases hard with
  | false => exact h.congr rfl (fun w => by cases w <;> rfl) (fun w => by cases w <;> rfl) rfl
  | true =>
    refine State.Wf.defaultWindows (.of_parts (fun w => ?_) (fun w => ?_) (hardDefaults_match _))
    · have hw := h.allPages w
      cases w <;> exact hw
    · have hw := h.rams w
      cases w <;> exact hw

theorem resetBlock_wf {s : State} (hard : Bool) (h : s.Wf) : (resetBlock hard s).Wf := by
  rcases resetBlock_cases hard s with ⟨t, -, ht, hr⟩ | ⟨r, hr⟩ <;> rw [hr]
  · have hb := h.clearOutput.resetBase hard
    exact (hb.keep (keepsPages_reset.subReset ht) (keepsRams_reset.subReset ht)
      (subReset_regs hb.regs ht)).dropEvents
  · exact h.refused r

/-! ### Saves and loads -/

theorem saveBlock_wf {s : State} (h : s.Wf) (hp : s.powered = true) : (saveBlock s).Wf := by
  rw [saveBlock_on hp]
  exact h.with_frame s.latch s.refused s.pending s.stream _ [] s.draws

/-- Loaded bytes of the Source's size keep the state well-formed (R394, R401). -/
theorem State.Wf.loadRam {s : State} (h : s.Wf) (w : WinId) {data : Option (List Byte)}
    (hd : ∀ bs, data = some bs → bs.length = s.cart.sourceSize w) : (loadRam w data s).Wf := by
  unfold Machine.loadRam
  split
  · exact h
  · rename_i bs
    split
    · rename_i hw
      refine h.keep (.of_pages (State.setRam_cart ..) fun u => State.setRam_pages ..)
        (setRam_keepsRams hw fun _ => ⟨Memory.ofBytes_wf _ _, Memory.ofBytes_within ?_⟩) ?_
      · rw [hd bs rfl, ramSize_of_writable hw]
      · rw [State.setRam_cart, State.setRam_board]
        exact h.regs
    · exact h

theorem loadRam_cart (w : WinId) (data : Option (List Byte)) (s : State) : (loadRam w data s).cart = s.cart := by
  unfold loadRam
  split
  · rfl
  · split
    · exact State.setRam_cart ..
    · rfl

theorem State.Wf.loadRegs {s : State} (h : s.Wf) {reg : Option BoardRegs}
    (hr : ∀ r, reg = some r → regsMatch s.cart.board r) : (loadRegs reg s).Wf := by
  cases reg with
  | none => exact h
  | some r =>
    exact h.keep (.of_pages rfl fun w => by cases w <;> rfl) (.of_ram rfl fun w => by cases w <;> rfl) (hr r rfl)

/-- A stream that fits the cartridge leaves a well-formed state (R405). -/
theorem State.Wf.applyLoad {s : State} (h : s.Wf) {got : Collected} (hg : got.Fits s.cart) :
    (applyLoad got s).Wf := by
  have hc : (Machine.loadRegs got.reg s).cart = s.cart := by cases got.reg <;> rfl
  refine ((h.loadRegs hg.reg).loadRam .wrk ?_).loadRam .chr ?_
  · rw [hc]; exact hg.wrk
  · rw [loadRam_cart, hc]; exact hg.crm

theorem loadBlock_wf {s : State} (h : s.Wf) (hp : s.powered = true) : (loadBlock s).Wf := by
  rcases loadBlock_cases hp with ⟨c, -, hl⟩ | ⟨got, t, hg, hu, hl⟩ | ⟨_, r, -, -, hl⟩ <;> rw [hl]
  · exact h.with_frame s.latch s.refused s.pending s.stream _ [] s.draws
  · have ha : (Machine.applyLoad got (Machine.clearOutput s)).Wf := h.clearOutput.applyLoad (parseStream_fits hg)
    have hupd := updated_closed.update hu
    refine (ha.keep (keepsPages_window.update hu) (keepsRams_window.update hu) ?_).dropEvents
    rw [hupd.cart, hupd.board]
    exact ha.regs
  · exact h.refused r

/-! ### Every step -/

/-- To show something of the state after any transaction, show it of a refusal and of each of the transactions
of R111, all but the hard reset in a powered block (R43). -/
theorem exec_forall {Q : State → Prop} {i : Instr} {s t : State} (hx : exec i s = .next t)
    (refused : ∀ r, Q { s with refused := true, result := .refused r, events := [] })
    (hard : Q (resetBlock true s))
    (soft : s.powered = true → Q (resetBlock false s))
    (cpuRd : s.powered = true → ∀ a, Q (cpuRead a s))
    (cpuWr : s.powered = true → ∀ a d, Q (cpuWrite a d s))
    (ppuRd : s.powered = true → ∀ a, Q (ppuRead a s))
    (ppuWr : s.powered = true → ∀ a d, Q (ppuWrite a d s))
    (save : s.powered = true → Q (saveBlock s))
    (load : s.powered = true → Q (loadBlock s)) : Q t := by
  have answer {u : State} (hrow : exec i s = .next u) (hu : Q u) : Q t := by
    rw [hrow] at hx
    cases hx
    exact hu
  by_cases hi : i = .resetHard
  · subst hi
    exact answer rfl hard
  cases hp : s.powered with
  | false => exact answer (exec_off hp hi) (refused _)
  | true =>
    rcases exec_cases i s with ⟨a, -, hrow⟩ | ⟨a, d, -, hrow⟩ | ⟨a, -, hrow⟩ | ⟨a, d, -, hrow⟩ | ⟨-, hrow⟩ |
      ⟨-, hrow⟩ | ⟨-, hrow⟩ | ⟨-, hrow⟩
    · exact answer hrow (cpuRd hp a)
    · exact answer hrow (cpuWr hp a d)
    · exact answer hrow (ppuRd hp a)
    · exact answer hrow (ppuWr hp a d)
    · exact answer hrow hard
    · exact answer hrow (soft hp)
    · exact answer hrow (save hp)
    · exact answer hrow (load hp)

/-- Every transaction keeps the state well-formed. -/
theorem exec_wf {i : Instr} {s t : State} (h : s.Wf) (hx : exec i s = .next t) : t.Wf :=
  exec_forall hx h.refused (resetBlock_wf true h) (fun _ => resetBlock_wf false h)
    (fun hp a => cpuRead_wf a h hp) (fun hp a d => cpuWrite_wf a d h hp) (fun hp a => ppuRead_wf a h hp)
    (fun hp a d => ppuWrite_wf a d h hp) (saveBlock_wf h) (loadBlock_wf h)

/-- Settles O58: taking the transaction touches no field well-formedness speaks of, and the row it runs keeps the
state well-formed. -/
theorem stepKeepsStatesWellFormed : Obligations.StepKeepsStatesWellFormed := by
  unfold Obligations.StepKeepsStatesWellFormed
  intro s t h hstep
  obtain ⟨tr, rest, -, ⟨i, -, hx⟩ | ⟨e, -, rfl⟩⟩ := step_cases hstep
  · exact exec_wf (h.with_frame s.latch s.refused rest tr.stream s.result s.events s.draws) hx
  · exact h.with_frame s.latch true rest tr.stream _ [] s.draws

/-! ### The write bindings below `$8000` -/

/-- Below `$8000` the base bindings write to the collaborators, to WRK, or nowhere (R185). -/
theorem baseBus_writeLow (c : Cartridge) {a : Nat} (h : a < 0x8000) :
    Bus.writeAt (baseBus c) a ∈ [.system, .ignore, .wrkWin] := by
  by_cases hs : a < 0x4020
  · simp [Bus.writeAt_system _ hs]
  have hrom : Bus.writeAt [⟨0x8000, 0xFFFF, some .prgWin, some .ignore⟩] a = .ignore := by
    rw [Bus.writeAt_cons _ _ (by omega), if_neg (by simp only []; omega), Bus.writeAt, if_neg hs]
    rfl
  unfold baseBus
  split
  · rw [Bus.writeAt_cons _ _ (by omega), hrom]
    split <;> simp
  · simp [hrom]

/-- Below `$8000` a modelled board adds at most MMC1's gated WRK write (R298). -/
theorem boardTable_writeLow (c : Cartridge) {a : Nat} (h : a < 0x8000) :
    Bus.writeAt (boardTable c) a ∈ [.system, .ignore, .wrkWin, .boardWrite .mmc1Wrk] := by
  have hb : Bus.writeAt (baseBus c) a ∈ [.system, .ignore, .wrkWin, .boardWrite .mmc1Wrk] := by
    have := baseBus_writeLow c h
    simp only [List.mem_cons, List.not_mem_nil, or_false] at this ⊢
    tauto
  by_cases hs : a < 0x4020
  · simp [Bus.writeAt_system _ hs]
  have hprg (f : WriteFn) (rest : Bus) :
      Bus.writeAt (⟨0x8000, 0xFFFF, none, some (.boardWrite f)⟩ :: rest) a = Bus.writeAt rest a := by
    rw [Bus.writeAt_cons _ _ (by omega), if_neg (by simp only []; omega)]
  unfold boardTable
  split
  · split
    · rw [List.singleton_append, Bus.writeAt_cons _ _ (by omega), hprg]
      split
      · simp
      · exact hb
    · rw [List.nil_append, hprg]
      exact hb
  · rw [hprg]; exact hb
  · rw [hprg]; exact hb
  · rw [hprg]; exact hb
  all_goals exact hb

/-- A state with the windows, registers, table and power of another. -/
def SameBoard (s t : State) : Prop :=
  t.cart = s.cart ∧ t.bus = s.bus ∧ t.windows = s.windows ∧ t.board = s.board ∧ t.powered = s.powered

theorem SameBoard.settled {s t : State} (h : SameBoard s t) (hs : s.Settled) : t.Settled := by
  obtain ⟨hc, hb, hw, hr, hp⟩ := h
  intro ht
  rw [hc, hb, hw, hr]
  exact hs (hp.symm.trans ht)

theorem writeBM_sameBoard (w : WinId) (o : Nat) (v : Byte) (s : State) : SameBoard s (writeBM w o v s) := by
  unfold writeBM
  split
  · exact ⟨rfl, rfl, rfl, rfl, rfl⟩
  · refine ⟨by simp, by simp, by simp [State.windows], by simp, by simp⟩

theorem mmc1WrkWrite_sameBoard (a : Addr) (e : Byte) (s : State) : SameBoard s (mmc1WrkWrite a e s) := by
  unfold mmc1WrkWrite
  split
  · exact ⟨rfl, rfl, rfl, rfl, rfl⟩
  · exact writeBM_sameBoard ..

/-- The bindings below `$8000` touch no window and no register. -/
theorem writeBound_low {w : WriteBinding} (hw : w ∈ [.system, .ignore, .wrkWin, .boardWrite .mmc1Wrk]) (a : Addr)
    (d e : Byte) (s : State) : ∃ t, writeBound w a d e s = .ok t ∧ SameBoard s t := by
  simp only [List.mem_cons, List.not_mem_nil, or_false] at hw
  rcases hw with rfl | rfl | rfl | rfl
  · exact ⟨s, rfl, rfl, rfl, rfl, rfl, rfl⟩
  · exact ⟨s, rfl, rfl, rfl, rfl, rfl, rfl⟩
  · exact ⟨_, rfl, writeBM_sameBoard ..⟩
  · exact ⟨_, rfl, mmc1WrkWrite_sameBoard ..⟩

/-! ### Writes to `$8000..$FFFF` -/

theorem boardWindows_mmc1 {c : Cartridge} (r : Mmc1Regs) (h : c.board = .mmc1) :
    boardWindows c (.mmc1 r) =
      ⟨mmc1PrgPages c r, mmc1ChrPages c r, nmtOfMode c (mmc1Mirroring r), swapPages c .wrk 8192 0 1⟩ := by
  simp only [boardWindows, h]

theorem boardWindows_uxrom {c : Cartridge} (v : Byte) (h : c.board = .uxrom) :
    boardWindows c (.uxrom v) =
      ⟨prg16 c v.toNat 0xFFFFFFFF, chr8 c 0, nmtOf c (mirrorTable c.mirroring), swapPages c .wrk 8192 0 1⟩ := by
  simp only [boardWindows, h]

theorem boardWindows_cnrom {c : Cartridge} (v : Byte) (h : c.board = .cnrom) :
    boardWindows c (.cnrom v) =
      ⟨prg32 c 0, chr8 c v.toNat, nmtOf c (mirrorTable c.mirroring), swapPages c .wrk 8192 0 1⟩ := by
  simp only [boardWindows, h]

theorem boardWindows_axrom {c : Cartridge} (v : Byte) (h : c.board = .axrom) :
    boardWindows c (.axrom v) =
      ⟨prg32 c (field v 3 0), chr8 c 0, nmtOfMode c (axromMirroring v), swapPages c .wrk 8192 0 1⟩ := by
  simp only [boardWindows, h]

/-- The windows of an MMC1 by their sets. -/
theorem windows_mmc1 {c : Cartridge} {t : State} {r : Mmc1Regs} (h : c.board = .mmc1) (hr : t.board = .mmc1 r)
    (hp : t.prg = mmc1PrgPages c r) (hc : t.chr = mmc1ChrPages c r) (hn : t.nmt = nmtOfMode c (mmc1Mirroring r))
    (hk : t.wrk = swapPages c .wrk 8192 0 1) : t.windows = boardWindows c t.board := by
  rw [hr, boardWindows_mmc1 r h, State.windows, hp, hc, hn, hk]

theorem mmc1_count_cases {r : Mmc1Regs} (h : r.legal) : r.count.toNat < 4 ∨ r.count = 4 := by
  obtain ⟨hc, -⟩ := h
  rcases Nat.lt_or_ge r.count.toNat 4 with h4 | h4
  · exact .inl h4
  · exact .inr (BitVec.eq_of_toNat_eq (by simp; omega))

/-- `ctrl OR $0C` keeps the Chr mode and the mirroring of `ctrl` (R290, R292). -/
theorem mmc1_ctrl_or_mode3 (v : BitVec 5) :
    field (v ||| 0x0C) 4 4 = field v 4 4 ∧ field (v ||| 0x0C) 1 0 = field v 1 0 := by
  revert v
  decide

/-- Every row of MMC1's serial port leaves the windows of its registers (R292 to R297). -/
theorem mmc1Row_windows {s : State} {r : Mmc1Regs} (a : Addr) (e : Byte) (hc : s.cart.board = .mmc1)
    (hl : r.legal) (hw : s.windows = boardWindows s.cart (.mmc1 r)) :
    (mmc1Row a e r s).windows = boardWindows s.cart (mmc1Row a e r s).board := by
  have hu := untouched_of_windows (s := s) (regs := .mmc1 r) (by rw [hc]; exact hl) hw
  rw [boardWindows_mmc1 r hc, State.windows, Windows.mk.injEq] at hw
  obtain ⟨hp, hchr, hn, hk⟩ := hw
  rcases Nat.lt_or_ge e.toNat 0x80 with hd | hd
  · rcases mmc1_count_cases hl with h4 | h4
    · rw [mmc1Row_early a s hd h4]
      exact windows_mmc1 hc rfl hp hchr hn hk
    rcases Nat.lt_or_ge a.toNat 0xA000 with h1 | h1
    · rw [mmc1Row_control r s hd h1, mmc1ShiftControl_fifth e h4 hu.counts hu.nmtHome]
      exact windows_mmc1 hc rfl rfl rfl rfl hk
    rcases Nat.lt_or_ge a.toNat 0xC000 with h2 | h2
    · rw [mmc1Row_chr0 r s hd h1 h2, mmc1ShiftChr0_fifth e h4 hu.counts.chr]
      exact windows_mmc1 hc rfl hp rfl hn hk
    rcases Nat.lt_or_ge a.toNat 0xE000 with h3 | h3
    · rw [mmc1Row_chr1 r s hd h2 h3, mmc1ShiftChr1_fifth e h4 hu.counts.chr]
      exact windows_mmc1 hc rfl hp rfl hn hk
    · rw [mmc1Row_prg r s hd h3, mmc1ShiftPrg_fifth e h4 hu.counts.prg]
      exact windows_mmc1 hc rfl rfl hchr hn hk
  · obtain ⟨hmode, hscreen⟩ := mmc1_ctrl_or_mode3 r.ctrl
    rw [mmc1Row_reset a r s hd, mmc1SerialReset_eq r hu.counts.prg]
    refine windows_mmc1 hc rfl rfl ?_ ?_ hk
    · simpa only [mmc1ChrPages, hmode] using hchr
    · simpa only [mmc1Mirroring, hscreen] using hn

/-- A write to `$8000..$FFFF` of a ready modelled board leaves the windows of its registers, and the table. -/
theorem cpuWrite_prg_windows {s : State} {b : Board} {a : Addr} (d : Byte) (hm : modelled b = true)
    (hR : s.Ready b) (ha : 0x8000 ≤ a.toNat) :
    (cpuWrite a d s).windows = boardWindows s.cart (cpuWrite a d s).board := by
  have hb := hR.board
  have hw := hR.windows
  cases b with
  | nrom =>
    rw [cpuWrite_nrom d hR ha]
    exact hw
  | mmc1 =>
    have hregs := hR.wf.regs
    rw [hb] at hregs
    obtain ⟨r, hr⟩ : ∃ r, s.board = .mmc1 r := by
      cases hg : s.board with
      | mmc1 r => exact ⟨r, rfl⟩
      | _ => rw [hg] at hregs; exact hregs.elim
    rw [hr] at hregs hw
    rw [cpuWrite_mmc1 d hR hr ha]
    exact mmc1Row_windows (s := latched d s) a d hb hregs hw
  | uxrom =>
    obtain ⟨v, hv⟩ := (board_of_regsMatch hR.wf.regs).1 hb
    rw [hv, boardWindows_uxrom v hb, State.windows, Windows.mk.injEq] at hw
    obtain ⟨-, hchr, hn, hk⟩ := hw
    rw [cpuWrite_uxrom d hR ha, boardWindows_uxrom _ hb, ← hchr, ← hn, ← hk]
    rfl
  | cnrom =>
    obtain ⟨v, hv⟩ := (board_of_regsMatch hR.wf.regs).2.1 hb
    rw [hv, boardWindows_cnrom v hb, State.windows, Windows.mk.injEq] at hw
    obtain ⟨hp, -, hn, hk⟩ := hw
    rw [cpuWrite_cnrom d hR ha, boardWindows_cnrom _ hb, ← hp, ← hn, ← hk]
    rfl
  | axrom =>
    obtain ⟨v, hv⟩ := (board_of_regsMatch hR.wf.regs).2.2 hb
    rw [hv, boardWindows_axrom v hb, State.windows, Windows.mk.injEq] at hw
    obtain ⟨-, hchr, -, hk⟩ := hw
    rw [cpuWrite_axrom d hR ha, boardWindows_axrom _ hb, ← hchr, ← hk]
    rfl
  | menu p =>
    rw [cpuWrite_prg (d := d) (t := latched d s) hR ha rfl rfl]
    exact hw
  | latch p => cases hm
  | pattern p => cases hm

/-! ### Settled states stay settled -/

section
variable {s : State} (hm : modelled s.cart.board = true) (hw : s.Wf) (hs : s.Settled)

include hw hs in
theorem State.Settled.ready (hp : s.powered = true) : s.Ready s.cart.board := ⟨hw, hs, hp, rfl⟩

include hs in
theorem refused_settled (r : RefuseReason) :
    State.Settled { s with refused := true, result := .refused r, events := [] } := hs

include hs in
theorem cpuRead_settled (hp : s.powered = true) (a : Addr) : (cpuRead a s).Settled := by
  obtain ⟨v, n, hr⟩ := cpuRead_frame a hp
  rw [hr]
  exact hs

include hm hw hs in
theorem cpuWrite_settled (hp : s.powered = true) (a : Addr) (d : Byte) : (cpuWrite a d s).Settled := by
  have hR := hs.ready hw hp
  rcases Nat.lt_or_ge a.toNat 0x8000 with ha | ha
  · have hlow := boardTable_writeLow s.cart ha
    rw [← hR.table] at hlow
    obtain ⟨t, ht, hsame⟩ := writeBound_low hlow a d (busValue a d (latched d s)) (latched d s)
    rw [cpuWrite_of_ok hp ht]
    exact hsame.settled hs
  · intro _
    have hc : (cpuWrite a d s).cart = s.cart := (exec_keepsRun (i := .cpuWr a d) rfl).1
    rw [cpuWrite_bus a d hp, hc]
    exact ⟨hR.table, cpuWrite_prg_windows d hm hR ha⟩

include hs in
theorem ppuRead_settled (hp : s.powered = true) (p : Addr) : (ppuRead p s).Settled := by
  rw [ppuRead_on p hp]
  split <;> exact hs

include hs in
theorem ppuWrite_settled (hp : s.powered = true) (p : Addr) (d : Byte) : (ppuWrite p d s).Settled := by
  rw [ppuWrite_on p d hp]
  split
  · exact hs
  · exact (writeBM_sameBoard ..).settled hs

include hs in
theorem saveBlock_settled (hp : s.powered = true) : (saveBlock s).Settled := by
  rw [saveBlock_on hp]
  exact hs

/-- The windows a board's rules give are settled over its table. -/
theorem withBoardWindows_settled {t : State} (es : List Event) (h : t.bus = boardTable t.cart) :
    (t.withBoardWindows es).Settled := fun _ => ⟨h, rfl⟩

include hm hw in
theorem resetBlock_hard_settled : (resetBlock true s).Settled := by
  rw [resetBlock_hard hw.counts hm]
  exact withBoardWindows_settled _ rfl

include hm hw hs in
theorem resetBlock_soft_settled (hp : s.powered = true) : (resetBlock false s).Settled := by
  rw [resetBlock_soft hp hm hw.regs (hs hp).2]
  exact withBoardWindows_settled _ rfl

include hm hw hs in
theorem loadBlock_settled (hp : s.powered = true) : (loadBlock s).Settled := by
  rcases loadBlock_cases hp with ⟨c, -, hl⟩ | ⟨got, t, hg, -, -⟩ | ⟨_, r, -, -, hl⟩
  · rw [hl]
    exact hs
  · have hr : regsMatch s.cart.board (got.reg.getD s.board) := by
      cases h : got.reg with
      | none => exact hw.regs
      | some r => exact (parseStream_fits hg).reg r h
    rw [loadBlock_ready hm (hs.ready hw hp) hg hr rfl]
    exact withBoardWindows_settled _ (hs hp).1
  · rw [hl]
    exact hs

end

/-- Every transaction of a modelled board keeps the table and windows those of the registers. -/
theorem exec_settled {i : Instr} {s t : State} (hm : modelled s.cart.board = true) (hw : s.Wf) (hs : s.Settled)
    (hx : exec i s = .next t) : t.Settled :=
  exec_forall hx (refused_settled hs) (resetBlock_hard_settled hm hw) (resetBlock_soft_settled hm hw hs)
    (cpuRead_settled hs) (cpuWrite_settled hm hw hs) (ppuRead_settled hs) (ppuWrite_settled hs)
    (saveBlock_settled hs) (loadBlock_settled hm hw hs)

/-- Settles O59: taking the transaction changes neither table, windows nor registers, and the row it runs keeps
them settled. -/
theorem stepKeepsWindowsFollowingRegisters : Obligations.StepKeepsWindowsFollowingRegisters := by
  unfold Obligations.StepKeepsWindowsFollowingRegisters
  intro s t hm hw hs hstep
  obtain ⟨tr, rest, -, ⟨i, -, hx⟩ | ⟨e, -, rfl⟩⟩ := step_cases hstep
  · exact exec_settled (s := { s with pending := rest, stream := tr.stream }) hm
      (hw.with_frame s.latch s.refused rest tr.stream s.result s.events s.draws) hs hx
  · exact hs

/-- A transaction of a ready modelled board that leaves the power on leaves it ready. -/
theorem exec_ready {i : Instr} {s t : State} {b : Board} (hm : modelled b = true) (hR : s.Ready b)
    (hx : exec i s = .next t) (hp : t.powered = true) : t.Ready b :=
  ⟨exec_wf hR.wf hx, exec_settled (by rw [hR.board]; exact hm) hR.wf hR.settled hx, hp,
    (congrArg Cartridge.board (exec_keepsRun hx).1).trans hR.board⟩

end Sys2Proof.Machine
end

section
/-! SUPPORT. How steps and runs end: every waiting transaction is answered (R87), refusals and errors (R421 to
R423), power (R43) and the end of a boot (R456), and the events of a transaction (R230). -/

namespace Sys2Proof.Machine

/-! ### Steps and runs -/

/-- With a transaction waiting a step answers it, and takes it off the list (R87). -/
theorem step_next {s : State} (h : s.pending ≠ []) :
    ∃ t, step s = .next t ∧ t.pending = s.pending.tail ∧ t.cart = s.cart := by
  obtain ⟨tr, rest, hp⟩ := List.exists_cons_of_ne_nil h
  rw [hp, List.tail_cons]
  cases hd : decode s.cart.board tr.word with
  | ok i =>
    obtain ⟨t, ht⟩ := exec_next i { s with pending := rest, stream := tr.stream }
    obtain ⟨hcart, hpending, -⟩ := exec_keepsRun ht
    exact ⟨t, (step_of_decode hp hd).trans ht, hpending, hcart⟩
  | error e => exact ⟨_, step_of_error hp hd, rfl, rfl⟩

/-- Settles O14: a step that answers had a transaction waiting. -/
theorem configurationIsFixed : Obligations.ConfigurationIsFixed := by
  unfold Obligations.ConfigurationIsFixed
  intro s t h
  have hp : s.pending ≠ [] := fun hnil => by rw [step_of_none hnil] at h; cases h
  obtain ⟨u, hu, -, hcart⟩ := step_next hp
  rw [hu] at h
  cases h
  exact hcart

/-- A run whose first step gives a state is a run from that state. -/
theorem core_run_succ (M : Host.Core) {s t : M.State} (h : M.step s = .next t) (k : Nat) :
    M.run (k + 1) s = M.run k t := by
  simp only [Host.Core.run, h]

/-- Settles O8, by induction on the number of steps. -/
theorem runAnswersEveryWaitingTransaction : Obligations.RunAnswersEveryWaitingTransaction := by
  unfold Obligations.RunAnswersEveryWaitingTransaction
  intro k
  induction k with
  | zero => exact fun s _ => ⟨s, rfl, rfl, rfl⟩
  | succ k ih =>
    intro s hk
    obtain ⟨u, hstep, hpending, hcart⟩ := step_next (s := s) (by rintro h; simp [h] at hk)
    obtain ⟨t, hrun, htp, htc⟩ := ih u (by rw [hpending, List.length_tail]; omega)
    refine ⟨t, ?_, ?_, htc.trans hcart⟩
    · exact (core_run_succ core hstep k).trans hrun
    · rw [htp, hpending, List.drop_tail]

/-! ### Refusals and errors -/

/-- Settles O11: of the ways a transaction ends, only a refusal returns one. -/
theorem refusalLeavesTheState : Obligations.RefusalLeavesTheState := by
  unfold Obligations.RefusalLeavesTheState
  intro i s t r hx hr
  rcases exec_outcome hx with ⟨r', rfl⟩ | ⟨-, c, rfl⟩ | hc
  · cases hr
    rfl
  · cases hr
  · exact absurd hr (hc.noRefusal r)

/-- Settles O12: of the ways a transaction ends, only a corrupt load returns an error. -/
theorem onlyLoadReturnsAnError : Obligations.OnlyLoadReturnsAnError := by
  unfold Obligations.OnlyLoadReturnsAnError
  intro i s hi
  obtain ⟨t, ht⟩ := exec_next i s
  refine ⟨t, ht, ?_⟩
  rcases exec_outcome ht with ⟨r, rfl⟩ | ⟨hload, -⟩ | hc
  · exact nofun
  · exact absurd hload hi
  · exact hc.noError

/-! ### Power -/

/-- No transaction clears the power mark (R43). -/
theorem exec_powered {i : Instr} {s t : State} (hx : exec i s = .next t) (hp : s.powered = true) :
    t.powered = true := by
  rcases exec_outcome hx with ⟨r, rfl⟩ | ⟨-, c, rfl⟩ | hc
  · exact hp
  · exact hp
  · exact hc.powered

/-- `Update(menu)` of `MENU4` makes two well-formed swaps (R259), so it never stops. -/
theorem menu4Update_ok (s : State) : ∃ t, menuUpdate menu4Params s = .ok t := by
  unfold menuUpdate
  split
  · have hp : wellFormedSwap .prg 32768 0 = true := by decide
    have hc : wellFormedSwap .chr 8192 0 = true := by decide
    simp only [menu4Params, runActions, runAction, evalIndex, swapBankChecked_of_wellFormed hp,
      swapBankChecked_of_wellFormed hc]
    exact ⟨_, rfl⟩
  · exact ⟨s, rfl⟩

/-- The update of a modelled board never stops, whatever the state (R424). -/
theorem boardUpdate_ok {s : State} (hm : modelled s.cart.board = true) : ∃ t, boardUpdate s = .ok t := by
  unfold boardUpdate
  split
  · exact ⟨_, rfl⟩
  · exact ⟨_, rfl⟩
  · exact ⟨_, rfl⟩
  · exact ⟨_, rfl⟩
  · rename_i p hb
    rw [hb] at hm
    rw [of_decide_eq_true hm]
    exact menu4Update_ok s
  · rename_i p hb
    rw [hb] at hm
    cases hm
  · exact ⟨s, rfl⟩

theorem mmc1Install_cart (s : State) : (mmc1Install s).cart = s.cart := by
  unfold mmc1Install
  simp only []
  split <;> rfl

/-- The `SubReset` of a modelled board never stops (R424). -/
theorem subReset_ok (hard : Bool) {s : State} (hm : modelled s.cart.board = true) :
    ∃ t, subReset hard s = .ok t := by
  unfold subReset
  split
  · exact ⟨s, rfl⟩
  · exact boardUpdate_ok (by rw [mmc1Install_cart]; exact hm)
  · exact boardUpdate_ok hm
  · exact boardUpdate_ok hm
  · exact boardUpdate_ok hm
  · rename_i p hb
    rw [hb] at hm
    rw [of_decide_eq_true hm]
    unfold menuSubReset
    split
    · exact menu4Update_ok _
    · exact ⟨s, rfl⟩
  · rename_i p hb
    rw [hb] at hm
    cases hm
  · rename_i p hb
    rw [hb] at hm
    cases hm

/-- A hard reset whose `SubReset` completes, completes (R450). -/
theorem resetBlock_hard_of_ok {s t : State} (h : subReset true (resetBase true (clearOutput s)) = .ok t) :
    resetBlock true s = { t with events := [] } := by
  unfold resetBlock transact
  beta_reduce
  rw [if_neg (by simp), h]
  rfl

/-- A hard reset of a modelled board completes from every state: it sets the power mark and refuses nothing. -/
theorem resetBlock_hard_completes {s : State} (hm : modelled s.cart.board = true) :
    (resetBlock true s).powered = true ∧ (resetBlock true s).refused = s.refused
      ∧ (resetBlock true s).pending = s.pending := by
  obtain ⟨p, c, n, w, b, hb⟩ := resetBase_eq true (clearOutput s)
  obtain ⟨t, ht⟩ := subReset_ok true (s := resetBase true (clearOutput s)) (by rw [hb]; exact hm)
  have hreset := resetBlock_hard_of_ok ht
  rw [hb] at ht
  obtain ⟨_, _, _, _, _, _, _, _, rfl⟩ := remapped_closed.subReset ht
  rw [hreset]
  exact ⟨rfl, rfl, rfl⟩

/-! ### Boot -/

theorem modelledBoard_modelled {n : Nat} {b : Board} (h : modelledBoard n = some b) : modelled b = true := by
  unfold modelledBoard at h
  split at h <;> cases h <;> rfl

/-- The boards the factory builds are modelled ones (R350). -/
theorem create_modelled {p : Params} {id : BoardId} {prg chr : Nat} {b : Board}
    (h : create p id prg chr = .next b) : modelled b = true := by
  unfold create at h
  split at h
  · cases h
    decide
  · split at h
    · rename_i n b' hb
      split at h
      · cases h
        exact modelledBoard_modelled hb
      · cases h
    · split at h <;> cases h

/-- A boot that gives a state gives the power-on state of a modelled board, with the hard reset issued first
(R456). -/
theorem boot_next {h : BootInput} {s : State} (hb : boot h = .next s) :
    modelled s.cart.board = true ∧ s.powered = false ∧ s.refused = false
      ∧ s.pending = bootReset :: h.pending := by
  unfold boot at hb
  split at hb
  · cases hb
  · split at hb
    · cases hb
    · split at hb
      · cases hb
      · cases hb
      · rename_i b hc
        cases hb
        have hm := create_modelled hc
        cases h.battery <;> exact ⟨hm, rfl, rfl, rfl⟩

theorem decode_bootReset (b : Board) : decode b bootReset.word = .ok .resetHard :=
  decode_of_decodeClass b decodeClass_resetHard

/-- Settles O9. -/
theorem unpoweredTransactionsAreRefused : Obligations.UnpoweredTransactionsAreRefused := by
  unfold Obligations.UnpoweredTransactionsAreRefused
  refine ⟨fun _ _ _ => rfl, fun i s hp hi => exec_off hp hi, fun s t hm hx => ?_, fun i s t => exec_powered,
    fun h s hb => ?_⟩
  · cases hx
    exact (resetBlock_hard_completes hm).1
  · obtain ⟨hm, hp, hr, hpending⟩ := boot_next hb
    refine ⟨hp, hr, ?_⟩
    obtain ⟨hpow, hmark, hrest⟩ :=
      resetBlock_hard_completes (s := { s with pending := h.pending, stream := bootReset.stream }) hm
    exact ⟨_, step_of_decode hpending (decode_bootReset _), hpow, hmark.trans hr, hrest⟩

/-! ### Events -/

theorem cpuRead_events {s : State} (a : Addr) (h : s.powered = true) : (cpuRead a s).events = [] := by
  obtain ⟨v, n, hr⟩ := cpuRead_frame a h
  rw [hr]

/-- The events of a CPU write are its handler's (R230, R231). -/
theorem cpuWrite_events {s : State} (a : Addr) (d : Byte) (h : s.powered = true) :
    EventShape (cpuWrite a d s).events := by
  rcases cpuWrite_cases a d h with ⟨t, hw, ht⟩ | ⟨r, ht⟩ <;> rw [ht]
  · exact eventShape_write.writeBound hw (.inl rfl)
  · exact .inl rfl

theorem ppuRead_events {s : State} (p : Addr) (h : s.powered = true) : (ppuRead p s).events = [] := by
  rw [ppuRead_on p h]
  split <;> rfl

theorem writeBM_events (w : WinId) (o : Nat) (v : Byte) (s : State) : (writeBM w o v s).events = s.events := by
  unfold writeBM
  split
  · rfl
  · exact State.setRam_events ..

theorem ppuWrite_events {s : State} (p : Addr) (d : Byte) (h : s.powered = true) :
    (ppuWrite p d s).events = [] := by
  rw [ppuWrite_on p d h]
  split
  · rfl
  · exact writeBM_events ..

theorem resetBlock_events (hard : Bool) (s : State) : (resetBlock hard s).events = [] := by
  rcases resetBlock_cases hard s with ⟨t, -, -, hr⟩ | ⟨r, hr⟩ <;> rw [hr]

theorem loadBlock_events {s : State} (h : s.powered = true) : (loadBlock s).events = [] := by
  rcases loadBlock_cases h with ⟨c, -, hl⟩ | ⟨got, t, -, -, hl⟩ | ⟨got, r, -, -, hl⟩ <;> rw [hl]

/-- A transaction is a CPU write, whose events its handler gives, or has no event. -/
theorem exec_events {i : Instr} {s t : State} (hx : exec i s = .next t) :
    (∃ a d, i ∈ cpuWrites a d ∧ EventShape t.events) ∨ t.events = [] := by
  have answer {u : State} (hrow : exec i s = .next u) (hu : u.events = []) : t.events = [] := by
    rw [hrow] at hx
    cases hx
    exact hu
  by_cases hi : i = .resetHard
  · subst hi
    exact .inr (answer rfl (resetBlock_events true s))
  cases hp : s.powered with
  | false => exact .inr (answer (exec_off hp hi) rfl)
  | true =>
    rcases exec_cases i s with ⟨a, -, hrow⟩ | ⟨a, d, hmem, hrow⟩ | ⟨a, -, hrow⟩ | ⟨a, d, -, hrow⟩ | ⟨-, hrow⟩ |
      ⟨-, hrow⟩ | ⟨-, hrow⟩ | ⟨-, hrow⟩
    · exact .inr (answer hrow (cpuRead_events a hp))
    · rw [hrow] at hx
      cases hx
      exact .inl ⟨a, d, hmem, cpuWrite_events a d hp⟩
    · exact .inr (answer hrow (ppuRead_events a hp))
    · exact .inr (answer hrow (ppuWrite_events a d hp))
    · exact .inr (answer hrow (resetBlock_events true s))
    · exact .inr (answer hrow (resetBlock_events false s))
    · exact .inr (answer hrow (by rw [saveBlock_on hp]))
    · exact .inr (answer hrow (loadBlock_events hp))

/-- Settles O50. -/
theorem eventsOfATransaction : Obligations.EventsOfATransaction := by
  unfold Obligations.EventsOfATransaction
  intro i s t hx
  rcases exec_events hx with ⟨a, d, hmem, hshape⟩ | hnone
  · exact ⟨hshape, fun hno => absurd hmem (hno a d)⟩
  · exact ⟨.inl hnone, fun _ => hnone⟩

end Sys2Proof.Machine
end

section
/-! SUPPORT. The CPU and PPU ports (41_bus.md sections 3 and 4): the byte a read binding drives, and the byte a
write through a window stores. -/

namespace Sys2Proof.Machine

/-! ### CPU reads -/

/-- `prg[4]` as the gate of MMC1's WRK (R290, R298). -/
theorem mmc1WrkDisabled_of_mmc1 {s : State} {r : Mmc1Regs} (h : s.board = .mmc1 r) :
    mmc1WrkDisabled s = r.prg.getLsbD 4 := by
  have hbit : ∀ v : BitVec 5, (field v 4 4 == 1) = v.getLsbD 4 := by decide
  rw [mmc1WrkDisabled, h]
  exact hbit r.prg

theorem mmc1WrkRead_shut {s : State} {r : Mmc1Regs} (a : Addr) (h : s.board = .mmc1 r)
    (hg : r.prg.getLsbD 4 = true) : mmc1WrkRead a s = s.latch := by
  rw [mmc1WrkRead, mmc1WrkDisabled_of_mmc1 h, if_pos hg]

theorem mmc1WrkRead_open {s : State} {r : Mmc1Regs} (a : Addr) (h : s.board = .mmc1 r)
    (hg : ¬ r.prg.getLsbD 4 = true) : mmc1WrkRead a s = readBM .wrk (wrkOffset a) s := by
  rw [mmc1WrkRead, mmc1WrkDisabled_of_mmc1 h, if_neg hg]

/-- Where the registers are another board's the gate is open (assumption 25). -/
theorem mmc1WrkRead_other {s : State} (a : Addr) (h : ∀ r, s.board ≠ .mmc1 r) :
    mmc1WrkRead a s = readBM .wrk (wrkOffset a) s := by
  unfold mmc1WrkRead mmc1WrkDisabled
  split
  · exact absurd ‹_› (h _)
  · rfl

theorem mmc1WrkWrite_shut {s : State} {r : Mmc1Regs} (a : Addr) (e : Byte) (h : s.board = .mmc1 r)
    (hg : r.prg.getLsbD 4 = true) : mmc1WrkWrite a e s = s := by
  rw [mmc1WrkWrite, mmc1WrkDisabled_of_mmc1 h, if_pos hg]

theorem mmc1WrkWrite_open {s : State} {r : Mmc1Regs} (a : Addr) (e : Byte) (h : s.board = .mmc1 r)
    (hg : ¬ r.prg.getLsbD 4 = true) : mmc1WrkWrite a e s = writeBM .wrk (wrkOffset a) e s := by
  rw [mmc1WrkWrite, mmc1WrkDisabled_of_mmc1 h, if_neg hg]

/-- All that a CPU read does (R190): the latch and the result take the byte the binding drives. -/
theorem cpuRead_drives {s : State} {b : ReadBinding} {a : Addr} (hp : s.powered = true)
    (hb : s.bus.readAt a.toNat = b) :
    cpuRead a s = { s with
      latch := (readBound b a s).1, result := .byte (readBound b a s).1, events := [],
      draws := if b = .system then s.draws + 1 else s.draws } := by
  have hbyte : (readBound b a (clearOutput s)).1 = (readBound b a s).1 := by cases b <;> rfl
  rw [cpuRead_on a hp, readBound_frame, hb, hbyte]
  rfl

/-- Running a row of a CPU read is the read. -/
theorem exec_of_cpuRead {i : Instr} (a : Addr) {s t : State} (hi : i ∈ cpuReads a) (h : cpuRead a s = t) :
    exec i s = .next t := by
  rw [exec_cpuReads hi, h]

/-- Settles O16: the byte of each binding. -/
theorem cpuReadDrivesTheBoundByte : Obligations.CpuReadDrivesTheBoundByte := by
  unfold Obligations.CpuReadDrivesTheBoundByte
  intro a i s hi hp
  rw [exec_cpuReads hi]
  cases hb : s.bus.readAt a.toNat with
  | boardRead f =>
    cases f
    rw [cpuRead_drives hp hb]
    cases hr : s.board with
    | mmc1 r =>
      by_cases hg : r.prg.getLsbD 4 = true
      · simp only [readBound, boardRead, mmc1WrkRead_shut a hr hg, if_pos hg]
      · simp only [readBound, boardRead, mmc1WrkRead_open a hr hg, if_neg hg]
        rfl
    | _ =>
      simp only [readBound, boardRead, mmc1WrkRead_other a (by simp [hr] : ∀ r, s.board ≠ .mmc1 r)]
      rfl
  | _ =>
    rw [cpuRead_drives hp hb]
    rfl

/-- A read through the Prg windows (R160, R180). -/
theorem cpuRead_prgWin {s : State} {a : Addr} (hp : s.powered = true) (hb : s.bus.readAt a.toNat = .prgWin) :
    cpuRead a s = { s with
      latch := readBM .prg (prgOffset a) s, result := .byte (readBM .prg (prgOffset a) s), events := [] } :=
  cpuRead_drives hp hb

/-- A read through the Wrk windows (R160, R180). -/
theorem cpuRead_wrkWin {s : State} {a : Addr} (hp : s.powered = true) (hb : s.bus.readAt a.toNat = .wrkWin) :
    cpuRead a s = { s with
      latch := readBM .wrk (wrkOffset a) s, result := .byte (readBM .wrk (wrkOffset a) s), events := [] } :=
  cpuRead_drives hp hb

theorem wrkOffset_eq (a : Addr) : wrkOffset a = a.toNat - 0x6000 := rfl

/-- A Wrk window read on a known page, of a present WRK or of an absent one (R160, R162). -/
theorem readBM_wrk {s : State} {o : Nat} {p : Page} (h : s.wrk[o / 8192]? = some p) :
    readBM .wrk o s =
      if s.cart.wrkSize = 0 then s.latch else s.ramWrk.read ((p.off + o % 8192) % s.cart.wrkSize) := by
  split
  · exact if_pos ‹_›
  · exact readBM_page (w := .wrk) (by assumption) h

/-- Settles O17. -/
theorem windowReadsGiveTheMappedByte : Obligations.WindowReadsGiveTheMappedByte := by
  unfold Obligations.WindowReadsGiveTheMappedByte
  refine ⟨fun a i s p hi hp hb hz hpage => ?_, fun a i s p hi hp hb hpage => ?_⟩
  · have hmem : i ∈ cpuReads a := by
      simp only [List.mem_cons, List.not_mem_nil, or_false] at hi
      rcases hi with rfl | rfl <;> simp [cpuReads]
    rw [exec_cpuReads hmem, cpuRead_prgWin hp hb, readBM_page (w := .prg) (o := prgOffset a) hz hpage]
    rfl
  · have hmem : i ∈ cpuReads a := by
      simp only [List.mem_cons, List.not_mem_nil, or_false] at hi
      rcases hi with rfl | rfl <;> simp [cpuReads]
    rw [exec_cpuReads hmem, cpuRead_wrkWin hp hb, readBM_wrk (o := wrkOffset a) hpage]
    rfl

/-! ### CPU writes that store nothing -/

/-- Settles O18. -/
theorem ignoredWriteChangesOnlyTheLatch : Obligations.IgnoredWriteChangesOnlyTheLatch := by
  unfold Obligations.IgnoredWriteChangesOnlyTheLatch
  intro a d i s hi hp hb
  refine exec_of_cpuWrite a d hi (cpuWrite_of_ok hp ?_)
  rcases hb with hb | hb <;> rw [hb] <;> rfl

/-! ### Writes through the Wrk windows -/

/-- A byte stored in WRK at its Source offset, and nothing over an absent WRK (R161, R162). -/
theorem writeBM_wrk {s : State} {o : Nat} {p : Page} (v : Byte) (hm : s.ramWrk.wf)
    (h : s.wrk[o / 8192]? = some p) :
    ∃ m, writeBM .wrk o v s = { s with ramWrk := m }
      ∧ (s.cart.wrkSize = 0 → m = s.ramWrk)
      ∧ (s.cart.wrkSize ≠ 0 → m.read ((p.off + o % 8192) % s.cart.wrkSize) = v
          ∧ ∀ k, k ≠ (p.off + o % 8192) % s.cart.wrkSize → m.read k = s.ramWrk.read k) := by
  by_cases hz : s.cart.wrkSize = 0
  · exact ⟨s.ramWrk, writeBM_ignored (.inl hz), fun _ => rfl, fun hne => absurd hz hne⟩
  · refine ⟨_, ?_, fun h0 => absurd h0 hz, fun _ => ⟨Memory.read_write_eq hm _ v,
      fun k hk => Memory.read_write_ne s.ramWrk v hk⟩⟩
    rw [writeBM_store (w := .wrk) hz rfl, sourceOffset_page (w := .wrk) h]
    rfl

/-- A CPU write to an address whose handler writes through the Wrk windows (R161, R191). -/
theorem cpuWrite_wrk {s : State} {a : Addr} {d : Byte} {p : Page} (hp : s.powered = true) (hm : s.ramWrk.wf)
    (hpage : s.wrk[(a.toNat - 0x6000) / 8192]? = some p)
    (hb : writeBound (s.bus.writeAt a.toNat) a d (busValue a d (latched d s)) (latched d s)
      = .ok (writeBM .wrk (wrkOffset a) d (latched d s))) :
    ∃ m, cpuWrite a d s = { s with latch := d, ramWrk := m, result := .done, events := [] }
      ∧ (s.cart.wrkSize = 0 → m = s.ramWrk)
      ∧ (s.cart.wrkSize ≠ 0 → m.read ((p.off + (a.toNat - 0x6000) % 8192) % s.cart.wrkSize) = d
          ∧ ∀ k, k ≠ (p.off + (a.toNat - 0x6000) % 8192) % s.cart.wrkSize → m.read k = s.ramWrk.read k) := by
  obtain ⟨m, hw, hzero, hstore⟩ := writeBM_wrk (s := latched d s) (o := wrkOffset a) d hm hpage
  refine ⟨m, ?_, hzero, hstore⟩
  rw [cpuWrite_of_ok hp hb, hw]
  rfl

/-- The Wrk page of a ready state starts at the first byte of WRK (R213). -/
theorem State.Ready.wrkPage {s : State} {b : Board} (h : s.Ready b) {o : Nat} (ho : o < 8192) :
    ∃ p, s.wrk[o / 8192]? = some p ∧ p.off = 0 := by
  refine ⟨swappedPage s.cart .wrk 8192 0 0, ?_, ?_⟩
  · rw [(untouched_of_windows h.wf.regs h.windows).wrk, Nat.div_eq_of_lt ho]
    rfl
  · simp [swappedPage, maskIndex, u32]

/-- The WRK range of an MMC1's table: the gated functions under `MMC1_WRAM_GATE`, else the window (R185,
R298). -/
theorem boardTable_wrk_mmc1 {c : Cartridge} (hb : c.board = .mmc1) (hw : c.wrkSize ≠ 0) {a : Nat}
    (h : 0x6000 ≤ a) (h' : a < 0x8000) :
    (Bus.readAt (boardTable c) a =
        if c.params.mmc1WramGate = true then .boardRead .mmc1Wrk else .wrkWin)
      ∧ Bus.writeAt (boardTable c) a =
        if c.params.mmc1WramGate = true then .boardWrite .mmc1Wrk else .wrkWin := by
  have hasWrk : c.hasWrk = true := by simp [Cartridge.hasWrk, hw]
  have hin : 0x6000 ≤ a ∧ a ≤ 0x7FFF := by omega
  have hout : ¬ (0x8000 ≤ a ∧ a ≤ 0xFFFF) := by omega
  have ha : 0x4020 ≤ a := by omega
  simp only [boardTable, hb, hasWrk, Bool.and_true, baseBus, if_true]
  by_cases hg : c.params.mmc1WramGate = true
  · simp only [hg, if_true, List.singleton_append, Bus.readAt_cons _ _ ha, Bus.writeAt_cons _ _ ha, if_pos hin,
      Option.getD_some, and_self]
  · simp only [hg, if_false, List.nil_append, Bus.readAt_cons _ _ ha, Bus.writeAt_cons _ _ ha, if_pos hin,
      if_neg hout, Option.getD_some, and_self, Bool.false_eq_true]

/-- The offset of an access to WRK in a ready state: the first page is the whole window set. -/
theorem wrkPage_offset {p : Page} (h : p.off = 0) {x size : Nat} (hx : x < 8192) :
    (p.off + x % 8192) % size = x % size := by
  rw [h, Nat.zero_add, Nat.mod_eq_of_lt hx]

/-- A ready MMC1's WRK accesses reach the window while the gate is not shut (R298). -/
theorem mmc1Wrk_open {s : State} {r : Mmc1Regs} {a : Addr} (d : Byte) (hR : s.Ready .mmc1) (hr : s.board = .mmc1 r)
    (hz : s.cart.wrkSize ≠ 0) (hlo : 0x6000 ≤ a.toNat) (hhi : a.toNat < 0x8000)
    (h : ¬ (s.cart.params.mmc1WramGate = true ∧ r.prg.getLsbD 4 = true)) :
    (readBound (s.bus.readAt a.toNat) a s).1 = readBM .wrk (wrkOffset a) s
      ∧ s.bus.readAt a.toNat ≠ .system
      ∧ writeBound (s.bus.writeAt a.toNat) a d d (latched d s)
        = .ok (writeBM .wrk (wrkOffset a) d (latched d s)) := by
  obtain ⟨hread, hwrite⟩ := boardTable_wrk_mmc1 hR.board hz hlo hhi
  rw [hR.table, hread, hwrite]
  by_cases hg : s.cart.params.mmc1WramGate = true
  · have hopen : ¬ r.prg.getLsbD 4 = true := fun hp => h ⟨hg, hp⟩
    rw [if_pos hg, if_pos hg]
    exact ⟨mmc1WrkRead_open a hr hopen, nofun, congrArg _ (mmc1WrkWrite_open a d (s := latched d s) hr hopen)⟩
  · rw [if_neg hg, if_neg hg]
    exact ⟨rfl, nofun, rfl⟩

/-- A ready MMC1 with its gate shut (R298): a read drives the latch, a write stores nothing. -/
theorem mmc1Wrk_shut {s : State} {r : Mmc1Regs} {a : Addr} (d : Byte) (hR : s.Ready .mmc1) (hr : s.board = .mmc1 r)
    (hz : s.cart.wrkSize ≠ 0) (hlo : 0x6000 ≤ a.toNat) (hhi : a.toNat < 0x8000)
    (hg : s.cart.params.mmc1WramGate = true) (hp : r.prg.getLsbD 4 = true) :
    cpuWrite a d s = latched d s ∧ cpuRead a s = { s with result := .byte s.latch, events := [] } := by
  obtain ⟨hread, hwrite⟩ := boardTable_wrk_mmc1 hR.board hz hlo hhi
  rw [← hR.table, if_pos hg] at hread hwrite
  refine ⟨cpuWrite_of_ok hR.powered ?_, ?_⟩
  · rw [hwrite]
    exact congrArg _ (mmc1WrkWrite_shut a _ (s := latched d s) hr hp)
  · rw [cpuRead_drives hR.powered hread, readBound, boardRead, mmc1WrkRead_shut a hr hp]
    rfl

/-- Settles O20. -/
theorem wrkWriteStoresOneByte : Obligations.WrkWriteStoresOneByte := by
  unfold Obligations.WrkWriteStoresOneByte
  refine ⟨fun a d i s p hi hp hm hb hpage => ?_, fun a d s r hR hr hz hlo hhi =>
    ⟨fun ⟨hg, hbit⟩ => ?_, fun hopen => ?_⟩⟩
  · have hmem : i ∈ cpuWrites a d := by
      simp only [List.mem_cons, List.not_mem_nil, or_false] at hi
      rcases hi with rfl | rfl <;> simp [cpuWrites]
    obtain ⟨m, hw, hzero, hstore⟩ := cpuWrite_wrk hp hm hpage (by rw [hb]; rfl)
    exact ⟨m, exec_of_cpuWrite a d hmem hw, hzero, hstore⟩
  · obtain ⟨hwrite, hread⟩ := mmc1Wrk_shut d hR hr hz hlo hhi hg hbit
    exact ⟨exec_of_cpuWrite a d (by simp [cpuWrites]) hwrite, exec_of_cpuRead a (by simp [cpuReads]) hread⟩
  · have hlt : a.toNat - 0x6000 < 8192 := by omega
    obtain ⟨p, hpage, hoff⟩ := hR.wrkPage hlt
    obtain ⟨hread, hsys, hwrite⟩ := mmc1Wrk_open d hR hr hz hlo hhi hopen
    refine ⟨exec_of_cpuRead a (by simp [cpuReads]) ?_, ?_⟩
    · have hv : readBM .wrk (wrkOffset a) s = s.ramWrk.read ((a.toNat - 0x6000) % s.cart.wrkSize) := by
        rw [wrkOffset_eq, readBM_wrk hpage, if_neg hz, wrkPage_offset hoff hlt]
      rw [cpuRead_drives hR.powered rfl, hread, if_neg hsys, hv]
    · have hbus : busValue a d (latched d s) = d :=
        busValue_of_noConflict a d (by show boardConflicts s.cart.board = false; rw [hR.board]; rfl)
      obtain ⟨m, hw, -, hstore⟩ := cpuWrite_wrk hR.powered hR.wf.wrkRam.1 hpage (by rw [hbus]; exact hwrite)
      rw [wrkPage_offset hoff hlt] at hstore
      exact ⟨m, exec_of_cpuWrite a d (by simp [cpuWrites]) hw, hstore hz⟩

/-! ### Linear registers and bus conflicts -/

theorem swapBankChecked_of_illFormed {w : WinId} {size base : Nat} (h : wellFormedSwap w size base = false)
    (i : Nat) (s : State) : swapBankChecked w size base i s = .error (.refused .illFormedSwap) := by
  rw [swapBankChecked, if_neg (by simp [h])]

/-- Settles O21: the binding's swap or mirroring call, on the bus value. -/
theorem linearWriteSwapsTheBank : Obligations.LinearWriteSwapsTheBank := by
  unfold Obligations.LinearWriteSwapsTheBank
  intro a d s size base hp
  refine ⟨fun hb hw => ?_, fun hb hw => ?_, fun h hb hn => ?_, fun hb hw => ?_⟩
  · refine exec_of_cpuWrite a d (by simp [cpuWrites]) (cpuWrite_of_ok hp ?_)
    rw [hb, writeBound, swapBankChecked_of_wellFormed hw]
    rfl
  · refine exec_of_cpuWrite a d (by simp [cpuWrites]) (cpuWrite_of_ok hp ?_)
    rw [hb, writeBound, swapBankChecked_of_wellFormed hw]
    rfl
  · refine exec_of_cpuWrite a d (by simp [cpuWrites]) (cpuWrite_of_ok hp ?_)
    rw [hb, writeBound, runHelper, setMode_eq _ (by exact hn)]
    by_cases hf : s.cart.mirroring = .four
    · simp [latched, clearOutput, mirrorEvents, hf]
    · simp [latched, clearOutput, mirrorEvents, hf]
  · refine exec_of_cpuWrite a d (by simp [cpuWrites]) (cpuWrite_of_refused hp ?_)
    rw [hb, writeBound, swapBankChecked_of_illFormed hw]

/-- The byte a read of the Prg range of a ready board returns (R185, R190). -/
theorem exec_prgRd_byte {s u : State} {b : Board} {a : Addr} {v : Byte} (hR : s.Ready b) (ha : 0x8000 ≤ a.toNat)
    (hx : exec (.prgRd a) s = .next u) (hv : u.result = .byte v) : readBM .prg (prgOffset a) s = v := by
  rw [exec_cpuReads (a := a) (by simp [cpuReads]), cpuRead_prgWin hR.powered (hR.readPrg ha)] at hx
  cases hx
  injection hv

/-- The bus value under `BUS_CONFLICTS` (R192): the AND with the byte a read of the address returns. -/
theorem busValue_of_read {s : State} {a : Addr} {d v : Byte} (ha : 0x8000 ≤ a.toNat) (hz : s.cart.prgSize ≠ 0)
    (hc : boardConflicts s.cart.board = true) (hv : readBM .prg (prgOffset a) s = v) :
    busValue a d (latched d s) = if s.cart.params.busConflicts then d &&& v else d := by
  have hread : readBM .prg (prgOffset a) (latched d s) = v :=
    (readBM_congr (w := .prg) (s := s) (t := latched d s) rfl rfl rfl hz).trans hv
  have hc' : boardConflicts (latched d s).cart.board = true := hc
  simp only [busValue, hread, hc', ha, and_true]
  rfl

/-- Settles O22. -/
theorem busConflictMasksTheRegisterByte : Obligations.BusConflictMasksTheRegisterByte := by
  unfold Obligations.BusConflictMasksTheRegisterByte
  intro a d v s u ha hz hx hv
  refine ⟨fun hR => ?_, fun hR => ?_, fun hR => ?_⟩
  · have hbus := busValue_of_read (d := d) ha hz (by rw [hR.board]; rfl) (exec_prgRd_byte hR ha hx hv)
    have hw := cpuWrite_uxrom d hR ha
    rw [hbus] at hw
    exact ⟨_, exec_of_cpuWrite a d (by simp [cpuWrites]) hw, rfl, rfl⟩
  · have hbus := busValue_of_read (d := d) ha hz (by rw [hR.board]; rfl) (exec_prgRd_byte hR ha hx hv)
    have hw := cpuWrite_cnrom d hR ha
    rw [hbus] at hw
    exact ⟨_, exec_of_cpuWrite a d (by simp [cpuWrites]) hw, rfl, rfl⟩
  · exact ⟨_, exec_of_cpuWrite a d (by simp [cpuWrites]) (cpuWrite_axrom d hR ha), rfl, rfl⟩

/-! ### PPU transactions -/

theorem exec_of_ppuRead {i : Instr} (a : Addr) {s t : State} (hi : i ∈ ppuReads a) (h : ppuRead a s = t) :
    exec i s = .next t := by
  rw [exec_ppuReads hi, h]

theorem exec_of_ppuWrite {i : Instr} (a : Addr) (d : Byte) {s t : State} (hi : i ∈ ppuWrites a d)
    (h : ppuWrite a d s = t) : exec i s = .next t := by
  rw [exec_ppuWrites hi, h]

theorem ppuRead_of_route {s : State} {p : Addr} {w : WinId} {o : Nat} (hp : s.powered = true)
    (h : ppuRoute p = some (w, o)) : ppuRead p s = { s with result := .byte (readBM w o s), events := [] } := by
  rw [ppuRead_on p hp, h]

theorem ppuWrite_of_route {s : State} {p : Addr} {w : WinId} {o : Nat} (d : Byte) (hp : s.powered = true)
    (h : ppuRoute p = some (w, o)) : ppuWrite p d s = writeBM w o d (clearOutput s) := by
  rw [ppuWrite_on p d hp, h]

/-- The Chr Source: 8 KiB of RAM without CHR ROM, else the ROM (R31). -/
theorem sourceSize_chr_ram {c : Cartridge} (h : c.chrSize = 0) : c.sourceSize .chr = 8192 := by
  simp [Cartridge.sourceSize, Cartridge.chrIsRam, h]

theorem sourceSize_chr_rom {c : Cartridge} (h : c.chrSize ≠ 0) : c.sourceSize .chr = c.chrSize := by
  simp [Cartridge.sourceSize, Cartridge.chrIsRam, h]

/-- A Chr window read on a known page (R160). -/
theorem readBM_chr {s : State} {o : Nat} {p : Page} (h : s.chr[o / 1024]? = some p) :
    readBM .chr o s =
      if s.cart.chrSize = 0 then s.ramChr.read ((p.off + o % 1024) % 8192)
      else s.cart.chrBytes.read ((p.off + o % 1024) % s.cart.chrSize) := by
  by_cases hz : s.cart.chrSize = 0
  · rw [if_pos hz, readBM_page (w := .chr) (by rw [sourceSize_chr_ram hz]; decide) h, sourceSize_chr_ram hz]
    simp [State.sourceBytes, Cartridge.chrIsRam, hz, pageSize]
  · rw [if_neg hz, readBM_page (w := .chr) (by rw [sourceSize_chr_rom hz]; exact hz) h, sourceSize_chr_rom hz]
    simp [State.sourceBytes, Cartridge.chrIsRam, hz, pageSize]

theorem sourceSize_nmt_ne_zero (c : Cartridge) : c.sourceSize .nmt ≠ 0 := by
  show (if c.mirroring = .four then 4096 else 2048) ≠ 0
  split <;> decide

/-- A position in a nametable page, from the PPU address (R75). -/
theorem nmtPosition {a : Nat} (h : 0x2000 ≤ a) : (a - 0x2000) % 0x1000 % 1024 = a % 1024 := by omega

/-- Settles O23. -/
theorem ppuReadGivesTheMappedByte : Obligations.PpuReadGivesTheMappedByte := by
  unfold Obligations.PpuReadGivesTheMappedByte
  refine ⟨fun a i s p hi hp ha hpage => ?_, fun a i s p hi hp hlo hhi hpage => ?_⟩
  · have hmem : i ∈ ppuReads a := by
      simp only [List.mem_cons, List.not_mem_nil, or_false] at hi
      rcases hi with rfl | rfl <;> simp [ppuReads]
    refine exec_of_ppuRead a hmem ?_
    rw [ppuRead_of_route hp (ppuRoute_chr ha), readBM_chr hpage]
  · have hmem : i ∈ ppuReads a := by
      simp only [List.mem_cons, List.not_mem_nil, or_false] at hi
      rcases hi with rfl | rfl <;> simp [ppuReads]
    refine exec_of_ppuRead a hmem ?_
    rw [ppuRead_of_route hp (ppuRoute_nmt hlo hhi),
      readBM_page (w := .nmt) (sourceSize_nmt_ne_zero _) (by exact hpage), pageSize, nmtPosition hlo]
    rfl

/-- Settles O24. -/
theorem ppuWriteStoresOneByte : Obligations.PpuWriteStoresOneByte := by
  unfold Obligations.PpuWriteStoresOneByte
  refine ⟨fun a d i s p hi hp hm ha hpage => ?_, fun a d i s p hi hp hm hlo hhi hpage => ?_⟩
  · have hmem : i ∈ ppuWrites a d := by
      simp only [List.mem_cons, List.not_mem_nil, or_false] at hi
      rcases hi with rfl | rfl <;> simp [ppuWrites]
    have hw := ppuWrite_of_route d hp (ppuRoute_chr ha)
    by_cases hz : s.cart.chrSize = 0
    · have hram : s.cart.chrIsRam = true := by simp [Cartridge.chrIsRam, hz]
      refine ⟨_, exec_of_ppuWrite a d hmem (hw.trans ?_), fun h => absurd hz h,
        fun _ => ⟨Memory.read_write_eq hm _ d, fun k hk => Memory.read_write_ne s.ramChr d hk⟩⟩
      rw [writeBM_store (w := .chr) (s := clearOutput s) (by rw [clearOutput_cart, sourceSize_chr_ram hz]; decide) hram,
        sourceOffset_page (w := .chr) (s := clearOutput s) hpage, clearOutput_cart, sourceSize_chr_ram hz]
      rfl
    · have hrom : s.cart.chrIsRam = false := by simp [Cartridge.chrIsRam, hz]
      exact ⟨s.ramChr, exec_of_ppuWrite a d hmem (hw.trans (writeBM_ignored (.inr hrom))), fun _ => rfl,
        fun h => absurd h hz⟩
  · have hmem : i ∈ ppuWrites a d := by
      simp only [List.mem_cons, List.not_mem_nil, or_false] at hi
      rcases hi with rfl | rfl <;> simp [ppuWrites]
    refine ⟨_, exec_of_ppuWrite a d hmem ((ppuWrite_of_route d hp (ppuRoute_nmt hlo hhi)).trans ?_),
      Memory.read_write_eq hm _ d, fun k hk => Memory.read_write_ne s.ramNmt d hk⟩
    rw [writeBM_store (w := .nmt) (sourceSize_nmt_ne_zero _) rfl,
      sourceOffset_page (w := .nmt) (s := clearOutput s) hpage, pageSize, nmtPosition hlo]
    rfl

/-- `$3000..$3EFF` leads where the address `$1000` below it does (R75). -/
theorem ppuRoute_mirror {a b : Addr} (hlo : 0x3000 ≤ a.toNat) (hhi : a.toNat < 0x3F00)
    (h : b.toNat + 0x1000 = a.toNat) : ppuRoute a = ppuRoute b := by
  rw [ppuRoute_nmt (by omega) hhi, ppuRoute_nmt (by omega) (by omega)]
  have hsame : (a.toNat - 0x2000) % 0x1000 = (b.toNat - 0x2000) % 0x1000 := by omega
  rw [hsame]

/-- Settles O26: the two transactions read their address only through the route. -/
theorem nametableMirrorAgrees : Obligations.NametableMirrorAgrees := by
  unfold Obligations.NametableMirrorAgrees
  intro a b d s hlo hhi h
  have hroute := ppuRoute_mirror hlo hhi h
  refine ⟨exec_of_ppuRead a (by simp [ppuReads]) ?_, exec_of_ppuWrite a d (by simp [ppuWrites]) ?_⟩
  · unfold ppuRead
    rw [hroute]
  · unfold ppuWrite
    rw [hroute]

end Sys2Proof.Machine
end

section
/-! SUPPORT. Windowing and the dispatch table (40_bankedmemory.md, 41_bus.md section 2): the pages after a swap,
the masking law, `GetBank`, reading back a window write, `Map`. -/

namespace Sys2Proof.Machine

/-! ### The pages after a swap -/

/-- What the check of R153 asks of a swap, with its first page and page count. -/
theorem wellFormedSwap_place {w : WinId} {size base : Nat} (h : wellFormedSwap w size base = true) :
    0 < size ∧ pageSize w ∣ size ∧ pageSize w ∣ base ∧ base + size ≤ span w := by
  simp only [wellFormedSwap, Bool.and_eq_true, beq_iff_eq, decide_eq_true_eq, List.contains_iff_mem] at h
  obtain ⟨⟨⟨hmem, hsize⟩, hbase⟩, hspan⟩ := h
  refine ⟨?_, Nat.dvd_of_mod_eq_zero hsize, Nat.dvd_of_mod_eq_zero hbase, hspan⟩
  rcases Nat.eq_zero_or_pos size with rfl | hpos
  · exact absurd hmem (by decide)
  · exact hpos

theorem pageSize_pos (w : WinId) : 0 < pageSize w := by cases w <;> decide

/-- The page at each position after a swap (R152). -/
theorem mapBank_getElem? (w : WinId) (size base i j : Nat) (s : State) :
    ((mapBank w size base i s).pages w)[j]? = (s.pages w)[j]?.map fun p =>
      if base / pageSize w ≤ j ∧ j < base / pageSize w + size / pageSize w then
        swappedPage s.cart w size i (j - base / pageSize w)
      else p := by
  rw [mapBank_pages, replacePages_getElem?]
  simp only [Nat.zero_add]

theorem noteSwap_pages (w v : WinId) (s : State) : (noteSwap w s).pages v = s.pages v := by
  unfold noteSwap
  split
  · exact notePpu_pages s v
  · rfl

theorem noteSwap_cart (w : WinId) (s : State) : (noteSwap w s).cart = s.cart := by
  unfold noteSwap
  split
  · exact notePpu_cart s
  · rfl

/-- The same for a swap with its note. -/
theorem swapBank_getElem? (w : WinId) (size base i j : Nat) (s : State) :
    ((swapBank w size base i s).pages w)[j]? = (s.pages w)[j]?.map fun p =>
      if base / pageSize w ≤ j ∧ j < base / pageSize w + size / pageSize w then
        swappedPage s.cart w size i (j - base / pageSize w)
      else p := by
  rw [swapBank_eq_mapBank_noteSwap, mapBank_getElem?, noteSwap_pages, noteSwap_cart]

/-- All that a swap changes besides pages: the note (R152, R230). -/
theorem swapBank_frame (w : WinId) (size base i : Nat) (s : State) :
    swapBank w size base i s =
      { s.setPages w ((swapBank w size base i s).pages w) with
        events := if w = .chr ∨ w = .nmt then noted s.events else s.events } := by
  cases w
  · rfl
  · simp only [swapBank, ppuSees, if_true, notePpu_eq]
    rfl
  · simp only [swapBank, ppuSees, if_true, notePpu_eq]
    rfl
  · rfl

/-- Settles O27. -/
theorem swapBankMapsTheMaskedBank : Obligations.SwapBankMapsTheMaskedBank := by
  unfold Obligations.SwapBankMapsTheMaskedBank
  refine fun w size base i s => ⟨fun h => ?_, fun h => swapBankChecked_of_illFormed h i s⟩
  obtain ⟨-, hsize, hbase, -⟩ := wellFormedSwap_place h
  have hframe := swapBank_frame w size base i s
  have hevents : (swapBank w size base i s).events = if w = .chr ∨ w = .nmt then noted s.events else s.events :=
    congrArg State.events hframe
  refine ⟨swapBank w size base i s, if_pos h, fun j p hp => ?_, ?_, ?_, ?_⟩
  · rw [swapBank_getElem?, hp, Nat.add_div_of_dvd_left hsize]
    rfl
  · rw [swapBank_eq_mapBank_noteSwap, mapBank_pages, replacePages_length, noteSwap_pages]
  · rw [hevents]
    exact hframe
  · rw [hevents, noted]
    by_cases hs : s.events = []
    · simp [hs]
    · simp [hs]

/-! ### The masking law (R150, R151) -/

theorem bankCount_eq_pow {srcSize size : Nat} (h : size ≤ srcSize) :
    bankCount srcSize size = 2 ^ (srcSize / size).log2 := if_neg (by omega)

/-- Twice the banks counted are more than the Source holds: the count is the largest power of two (C1). -/
theorem lt_two_mul_bankCount {srcSize size : Nat} (hs : 0 < size) (h : size ≤ srcSize) :
    srcSize < 2 * (bankCount srcSize size * size) := by
  have hq : srcSize / size < 2 * bankCount srcSize size := by
    rw [bankCount_eq_pow h, ← Nat.pow_succ']
    exact Nat.lt_log2_self
  calc srcSize < (srcSize / size + 1) * size := by
        rw [Nat.mul_comm]; exact Nat.lt_mul_div_succ _ hs
    _ ≤ 2 * bankCount srcSize size * size := Nat.mul_le_mul_right _ hq
    _ = 2 * (bankCount srcSize size * size) := Nat.mul_assoc ..

/-- All ones are all ones below a power of two. -/
theorem u32_ones_mod {k : Nat} (h : k ≤ 32) : u32 0xFFFFFFFF % 2 ^ k = 2 ^ k - 1 := by
  interval_cases k <;> rfl

/-- Below `2^32` banks the index of all ones names the last bank (R163). -/
theorem maskIndex_ones {srcSize size : Nat} (hs : 0 < size) (h : size ≤ srcSize) (hb : srcSize / size < 2 ^ 32) :
    maskIndex 0xFFFFFFFF srcSize size = bankCount srcSize size - 1 := by
  have hlog : (srcSize / size).log2 ≤ 32 :=
    Nat.le_of_lt ((Nat.log2_lt (Nat.div_pos h hs).ne').2 hb)
  rw [maskIndex_eq_mod, bankCount_eq_pow h, u32_ones_mod hlog]

/-- Settles O28. -/
theorem maskedIndexNamesABankOfTheSource : Obligations.MaskedIndexNamesABankOfTheSource := by
  unfold Obligations.MaskedIndexNamesABankOfTheSource
  exact fun i srcSize size hs h => ⟨maskIndex_lt i srcSize size, bankCount_mul_le h hs, bankCount_pow srcSize size,
    lt_two_mul_bankCount hs h, maskIndex_ones hs h⟩

/-- A swap larger than the Source has one bank (R154). -/
theorem maskIndex_undersized (i : Nat) {srcSize size : Nat} (h : srcSize < size) : maskIndex i srcSize size = 0 := by
  rw [maskIndex_eq_mod, bankCount, if_pos h, Nat.mod_one]

theorem bankCount_two_pow (k : Nat) {size : Nat} (hs : 0 < size) : bankCount (2 ^ k * size) size = 2 ^ k := by
  rw [bankCount_eq_pow (Nat.le_mul_of_pos_left size (Nat.two_pow_pos k)), Nat.mul_div_cancel _ hs, Nat.log2_two_pow]

/-- Settles O29. -/
theorem bankSelectionIsPeriodic : Obligations.BankSelectionIsPeriodic := by
  unfold Obligations.BankSelectionIsPeriodic
  refine ⟨fun i k size hs hk => ?_, fun i srcSize size h => maskIndex_undersized i h, fun c w size i k hz h => ?_⟩
  · rw [maskIndex_eq_mod, bankCount_two_pow k hs, u32, Nat.mod_mod_of_dvd _ (Nat.pow_dvd_pow 2 hk)]
  · simp only [swappedPage, if_neg hz, maskIndex_undersized i h, Nat.zero_mul, Nat.zero_add]

/-! ### `GetBank` (R157, R158) -/

theorem getBank_of_page {w : WinId} {size base : Nat} {s : State} {p : Page}
    (h : wellFormedSwap w size base = true) (hp : (s.pages w)[base / pageSize w]? = some p) :
    getBank w size base s =
      if p.size = size ∧ p.sub = 0 then .ok p.req.toNat else .error (.refused .getBankGranularity) := by
  rw [getBank, if_pos h, hp]

/-- The page at a place of a swap's range, after the swap. -/
theorem swapBank_page {w : WinId} {size base i j : Nat} {s : State} (hlen : (s.pages w).length = span w / pageSize w)
    (h : wellFormedSwap w size base = true) (hlo : base / pageSize w ≤ j)
    (hhi : j < base / pageSize w + size / pageSize w) :
    ((swapBank w size base i s).pages w)[j]? = some (swappedPage s.cart w size i (j - base / pageSize w)) := by
  obtain ⟨-, hsize, -, hspan⟩ := wellFormedSwap_place h
  have hj : j < (s.pages w).length := by
    rw [hlen]
    rw [← Nat.add_div_of_dvd_left hsize] at hhi
    exact Nat.lt_of_lt_of_le hhi (Nat.div_le_div_right hspan)
  rw [swapBank_getElem?, List.getElem?_eq_getElem hj, Option.map_some, if_pos ⟨hlo, hhi⟩]

/-- Settles O30. -/
theorem getBankReturnsTheRequest : Obligations.GetBankReturnsTheRequest := by
  unfold Obligations.GetBankReturnsTheRequest
  intro w size base i s h hlen
  obtain ⟨hpos, hsize, hbase, -⟩ := wellFormedSwap_place h
  have hcount : 0 < size / pageSize w := Nat.div_pos (Nat.le_of_dvd hpos hsize) (pageSize_pos w)
  have hfirst := swapBank_page (i := i) hlen h (Nat.le_refl _) (Nat.lt_add_of_pos_right hcount)
  rw [Nat.sub_self] at hfirst
  refine ⟨?_, fun size' hne h' => ?_, fun base' hlo hhi h' => ?_⟩
  · rw [getBank_of_page h hfirst, if_pos ⟨rfl, rfl⟩]
    exact congrArg _ (BitVec.toNat_ofNat ..)
  · rw [getBank_of_page h' hfirst, if_neg (fun hp => hne hp.1.symm)]
  · obtain ⟨-, -, hbase', -⟩ := wellFormedSwap_place h'
    have hlt : base / pageSize w < base' / pageSize w := Nat.div_lt_div_of_lt_of_dvd hbase' hlo
    have hlt' : base' / pageSize w < base / pageSize w + size / pageSize w := by
      rw [← Nat.add_div_of_dvd_left hsize]
      exact Nat.div_lt_div_of_lt_of_dvd (Nat.dvd_add hbase hsize) hhi
    rw [getBank_of_page h' (swapBank_page hlen h hlt.le hlt'), if_neg]
    rintro ⟨-, hsub⟩
    exact absurd hsub (Nat.sub_ne_zero_of_lt hlt)

/-! ### Reading back a window write (R160, R161) -/

theorem sourceOffset_setRam (w v : WinId) (o : Nat) (m : Memory) (s : State) :
    sourceOffset w o (s.setRam v m) = sourceOffset w o s := by
  simp only [sourceOffset, State.setRam_pages, State.setRam_cart]

/-- The bytes a window set reads are its RAM where it is writable (R31). -/
theorem sourceBytes_of_writable {s : State} {w : WinId} (h : s.cart.writable w = true) :
    s.sourceBytes w = s.ram w := by
  cases w with
  | prg => cases h
  | chr => exact if_pos h
  | nmt => rfl
  | wrk => rfl

theorem sourceBytes_setRam_ne (s : State) {u w : WinId} (m : Memory) (h : u ≠ w) :
    (s.setRam w m).sourceBytes u = s.sourceBytes u := by
  cases w with
  | prg => rfl
  | chr =>
    cases u with
    | chr => exact absurd rfl h
    | prg | nmt | wrk => rfl
  | nmt =>
    cases u with
    | nmt => exact absurd rfl h
    | prg | chr | wrk => rfl
  | wrk =>
    cases u with
    | wrk => exact absurd rfl h
    | prg | chr | nmt => rfl

theorem readBM_setRam {s : State} {w : WinId} (k : Nat) (m : Memory) (hz : s.cart.sourceSize w ≠ 0)
    (hw : s.cart.writable w = true) : readBM w k (s.setRam w m) = m.read (sourceOffset w k s) := by
  have hprg : w ≠ .prg := by rintro rfl; cases hw
  rw [readBM, State.setRam_cart, if_neg hz, sourceBytes_of_writable (by rw [State.setRam_cart]; exact hw),
    State.setRam_ram s m hprg, sourceOffset_setRam]

/-- Another window set reads as before, an absent Source among them. -/
theorem readBM_setRam_ne (s : State) {u w : WinId} (k : Nat) (m : Memory) (h : u ≠ w) :
    readBM u k (s.setRam w m) = readBM u k s := by
  simp only [readBM, State.setRam_cart, State.setRam_latch, sourceBytes_setRam_ne s m h, sourceOffset_setRam]

/-- Settles O32. -/
theorem windowWriteIsReadBack : Obligations.WindowWriteIsReadBack := by
  unfold Obligations.WindowWriteIsReadBack
  refine fun w o k v s hz => ⟨fun hw hm => ?_, fun hw => writeBM_ignored (.inr hw), fun u hu => ?_⟩
  · rw [writeBM_store hz hw, readBM_setRam k _ hz hw]
    split
    · rename_i hsame
      rw [hsame, Memory.read_write_eq hm]
    · rename_i hother
      rw [Memory.read_write_ne _ _ hother, readBM, if_neg hz, sourceBytes_of_writable hw]
  · unfold writeBM
    split
    · rfl
    · exact readBM_setRam_ne s k _ hu

/-! ### `Map` (R181 to R183) -/

theorem mapRange_ok {m : Mapping} {s t : State} (h : mapRange m s = .ok t) : t = install m s := by
  unfold mapRange at h
  split at h
  · cases h
    rfl
  · cases h

/-- What the check of R182 asks of a `Map`. -/
theorem mapLegal_iff (m : Mapping) : mapLegal m = true ↔
    m.first ≤ m.last ∧ 0x4020 ≤ m.first ∧ m.last ≤ 0xFFFF
      ∧ (m.read = some .prgWin → 0x8000 ≤ m.first)
      ∧ ((m.read = some .wrkWin ∨ m.write = some .wrkWin) → 0x6000 ≤ m.first ∧ m.last ≤ 0x7FFF) := by
  simp only [mapLegal, Bool.and_eq_true, Bool.or_eq_true, decide_eq_true_eq, bne_iff_ne]
  tauto

/-- Settles O33. -/
theorem laterMapReplacesEarlier : Obligations.LaterMapReplacesEarlier := by
  unfold Obligations.LaterMapReplacesEarlier
  refine fun m s => ⟨fun t a h ha => ?_, fun hbad => if_neg fun hlegal => ?_⟩
  · rw [mapRange_ok h]
    rcases Nat.lt_or_ge a 0x4020 with hsys | hsys
    · rw [if_pos hsys, if_pos hsys]
      exact ⟨Bus.readAt_system _ hsys, Bus.writeAt_system _ hsys, rfl⟩
    · have hns : ¬ a < 0x4020 := by omega
      rw [if_neg hns, if_neg hns]
      exact ⟨Bus.readAt_cons m s.bus hsys, Bus.writeAt_cons m s.bus hsys, rfl⟩
  · obtain ⟨hrange, hsys, -, hprg, hwrk⟩ := (mapLegal_iff m).1 hlegal
    rcases hbad with hbad | hbad | ⟨hr, hbad⟩ | ⟨hr, hbad⟩
    · omega
    · omega
    · have := hprg hr
      omega
    · obtain ⟨h1, h2⟩ := hwrk hr
      omega

/-! ### Mirroring (R225 to R229) -/

/-- The nametable offsets of a mirroring table over the 2 KiB Source. -/
theorem nmtOf_offs {c : Cartridge} (h : c.mirroring ≠ .four) (t : Table) :
    (nmtOf c t).map Page.off = [t.t0 % 2 * 1024, t.t1 % 2 * 1024, t.t2 % 2 * 1024, t.t3 % 2 * 1024] := by
  have hsize : c.sourceSize .nmt = 2048 := if_neg h
  have hcount : bankCount 2048 1024 = 2 := by decide
  have hoff (n : Nat) : (swappedPage c .nmt 1024 n 0).off = n % 2 * 1024 := by
    simp only [swappedPage, hsize, maskIndex_eq_mod, hcount, u32, Nat.zero_mul, Nat.add_zero]
    rw [if_neg (by decide)]
    omega
  simp only [nmtOf, List.map_cons, List.map_nil, hoff]

theorem setMode_offs {s : State} (m : Mirroring) (hn : s.nmt.length = 4) (h : s.cart.mirroring ≠ .four) :
    (setMode m s).nmt.map Page.off =
      [(mirrorTable m).t0 % 2 * 1024, (mirrorTable m).t1 % 2 * 1024, (mirrorTable m).t2 % 2 * 1024,
        (mirrorTable m).t3 % 2 * 1024] := by
  rw [setMode_eq m hn, if_neg h]
  exact nmtOf_offs h _

/-- Settles O49. -/
theorem mirroringHelpersSelectTheirMode : Obligations.MirroringHelpersSelectTheirMode := by
  unfold Obligations.MirroringHelpersSelectTheirMode
  intro d s ho
  refine ⟨?_, ?_, fun hd => ?_, fun hd => ?_, fun hd => ?_, fun hn hf => ?_, fun m hf => if_pos hf⟩
  · simp only [runHelper, helperMode, ho, HelperOrder.standard, pick2]
  · simp only [runHelper, helperMode, ho, HelperOrder.standard, pick2]
  · have hcases : d % 4 = 0 ∧ d % 2 = 0 ∨ d % 4 = 1 ∧ d % 2 = 1 := by omega
    rcases hcases with ⟨h4, h2⟩ | ⟨h4, h2⟩
    · simp [runHelper, helperMode, ho, HelperOrder.standard, pick2, pick4, h4, h2]
    · simp [runHelper, helperMode, ho, HelperOrder.standard, pick2, pick4, h4, h2]
  · simp [runHelper, helperMode, ho, HelperOrder.standard, pick4, hd]
  · simp [runHelper, helperMode, ho, HelperOrder.standard, pick4, hd]
  · exact ⟨setMode_offs .h hn hf, setMode_offs .v hn hf, setMode_offs .s0 hn hf, setMode_offs .s1 hn hf⟩

end Sys2Proof.Machine
end

section
/-! SUPPORT. Resets board by board (70_reset_and_hazards.md section 1), the reset vector, MMC1's five serial
writes, and the command latch. -/

namespace Sys2Proof.Machine

/-! ### Resets of the modelled boards -/

/-- Windows that follow the registers are the ones the board's rules give. -/
theorem withBoardWindows_of_follow {s : State} (es : List Event) (h : s.windows = boardWindows s.cart s.board) :
    s.withBoardWindows es = { s with events := es } := by
  unfold State.withBoardWindows
  rw [← h]
  rfl

/-- Settles O34. -/
theorem hardResetSetsTheBoard : Obligations.HardResetSetsTheBoard := by
  unfold Obligations.HardResetSetsTheBoard
  exact ⟨fun s hw hm => congrArg Host.Outcome.next (resetBlock_hard hw.counts hm), rfl, rfl, rfl, rfl, rfl, rfl⟩

/-- A board that is no menu keeps its registers in a reset (R215). -/
theorem resetRegs_of_not_menu (hard : Bool) {b : Board} (r : BoardRegs) (h : ∀ p, b ≠ .menu p) :
    resetRegs hard b r = r := by
  unfold resetRegs
  split
  · exact absurd rfl (h _)
  · rfl

/-- A soft reset of a ready board that is no menu (R453). -/
theorem resetBlock_soft_keeps {s : State} {b : Board} (hm : modelled b = true) (hR : s.Ready b)
    (hn : ∀ p, b ≠ .menu p) : resetBlock false s = { s with result := .done, events := [] } := by
  rw [resetBlock_soft hR.powered (by rw [hR.board]; exact hm) hR.wf.regs hR.windows, ← hR.table,
    resetRegs_of_not_menu false s.board (by rw [hR.board]; exact hn)]
  exact withBoardWindows_of_follow [] (s := { s with result := .done }) hR.windows

/-- Settles O35. -/
theorem softResetKeepsTheBoard : Obligations.SoftResetKeepsTheBoard := by
  unfold Obligations.SoftResetKeepsTheBoard
  intro b s hb hR
  have hboard : modelled b = true ∧ ∀ p, b ≠ .menu p := by
    simp only [List.mem_cons, List.not_mem_nil, or_false] at hb
    rcases hb with rfl | rfl | rfl | rfl | rfl <;> exact ⟨rfl, nofun⟩
  exact congrArg Host.Outcome.next (resetBlock_soft_keeps hboard.1 hR hboard.2)

/-- Settles O37: the first reset leaves the fields the second one sets as it sets them. -/
theorem hardResetIsRepeatable : Obligations.HardResetIsRepeatable := by
  unfold Obligations.HardResetIsRepeatable
  intro s t hw hm hx
  cases hx
  have hfirst := resetBlock_hard hw.counts hm
  obtain ⟨hp, hc, hn, hk⟩ := boardWindows_counts s.cart (hardDefaults s.cart.board)
  refine congrArg Host.Outcome.next ?_
  rw [hfirst]
  exact resetBlock_hard ⟨hp, hc, hn, hk⟩ hm

/-! ### Menus -/

theorem boardWindows_menu {c : Cartridge} {p : MenuParams} (m : Byte) (h : c.board = .menu p) :
    boardWindows c (.menu m) =
      ⟨prg32 c m.toNat, chr8 c m.toNat, nmtOf c (mirrorTable c.mirroring), swapPages c .wrk 8192 0 1⟩ := by
  simp only [boardWindows, h]

/-- The image after a soft reset, as a number (R257). -/
theorem nextMenu_soft_toNat {p : MenuParams} (h : p.legal) (m : Byte) :
    (nextMenu p false m).toNat = (m.toNat + 1) % p.count := by
  obtain ⟨hpos, hmax, -⟩ := h
  have hlt : (m.toNat + 1) % p.count < p.count := Nat.mod_lt _ hpos
  rw [nextMenu, if_neg Bool.false_ne_true, BitVec.toNat_ofNat, Nat.mod_eq_of_lt (by omega)]

/-- A soft reset of a ready `MENU4` (R257 to R259). -/
theorem resetBlock_soft_menu4 {s : State} {m : Byte} (hR : s.Ready menu4) (hm : s.board = .menu m) :
    resetBlock false s = { s with
      board := .menu (BitVec.ofNat 8 ((m.toNat + 1) % 4)), prg := prg32 s.cart ((m.toNat + 1) % 4)
      chr := chr8 s.cart ((m.toNat + 1) % 4), result := .done, events := [] } := by
  have hb : s.cart.board = .menu menu4Params := hR.board
  have hregs : resetRegs false s.cart.board s.board = .menu (nextMenu menu4Params false m) := by rw [hb, hm]; rfl
  have hnum : (nextMenu menu4Params false m).toNat = (m.toNat + 1) % 4 := nextMenu_soft_toNat (by decide) m
  have hw := hR.windows
  rw [hm, boardWindows_menu m hb, State.windows, Windows.mk.injEq] at hw
  obtain ⟨-, -, hn, hk⟩ := hw
  rw [resetBlock_soft hR.powered (by rw [hb]; decide) hR.wf.regs hR.windows, hregs, ← hR.table]
  simp only [State.withBoardWindows, boardWindows_menu _ hb, hnum, ← hn, ← hk]
  rfl

/-- The registers before `SubReset` (R450). -/
theorem resetBase_board (hard : Bool) (s : State) :
    (resetBase hard s).board = if hard then hardDefaults s.cart.board else s.board := by
  cases hard with
  | false => rfl
  | true => exact (defaultWindows_onlyWindows _).board

theorem resetBase_cart (hard : Bool) (s : State) : (resetBase hard s).cart = s.cart := by
  obtain ⟨p, c, n, w, b, hb⟩ := resetBase_eq hard s
  rw [hb]

/-- A menu's `SubReset` leaves the next image, or the default one (R257). -/
theorem subReset_menu_board {hard : Bool} {p : MenuParams} {m : Byte} {s t : State} (hc : s.cart.board = .menu p)
    (hb : s.board = .menu m) (h : subReset hard s = .ok t) : t.board = .menu (nextMenu p hard m) := by
  simp only [subReset, hc, menuSubReset, hb] at h
  exact (updated_closed.menuUpdate h).board

/-- The registers a reset of a menu board leaves when it completes. -/
theorem resetBlock_menu_board {hard : Bool} {p : MenuParams} {m : Byte} {s : State} (hc : s.cart.board = .menu p)
    (hb : (resetBase hard (clearOutput s)).board = .menu m) (hdone : (resetBlock hard s).result = .done) :
    (resetBlock hard s).board = .menu (nextMenu p hard m) := by
  rcases resetBlock_cases hard s with ⟨t, -, ht, hr⟩ | ⟨r, hr⟩
  · rw [hr]
    show t.board = _
    exact subReset_menu_board ((congrArg Cartridge.board (resetBase_cart hard (clearOutput s))).trans hc) hb ht
  · rw [hr] at hdone
    cases hdone

/-- Settles O36. -/
theorem menuSoftResetShowsTheNextImage : Obligations.MenuSoftResetShowsTheNextImage := by
  unfold Obligations.MenuSoftResetShowsTheNextImage
  refine ⟨fun m s hR hm => congrArg Host.Outcome.next (resetBlock_soft_menu4 hR hm),
    fun p m s t hlegal hc hb => ⟨fun hx hdone => ?_, fun hx hdone => ?_⟩⟩
  · cases hx
    exact resetBlock_menu_board hc ((resetBase_board true _).trans (by rw [clearOutput_cart, hc]; rfl)) hdone
  · cases hx
    exact ⟨_, resetBlock_menu_board hc ((resetBase_board false _).trans hb) hdone, nextMenu_soft_toNat hlegal m⟩

/-! ### The reset vector (R457) -/

/-- The byte at `$FFFC` through the last Prg page. -/
theorem exec_prgRd_vector {t : State} {size i k : Nat} (hp : t.powered = true)
    (hb : t.bus = boardTable t.cart) (hz : t.cart.prgSize ≠ 0)
    (hpage : t.prg[3]? = some (swappedPage t.cart .prg size i k)) :
    ∃ u, exec (.prgRd 0xFFFC) t = .next u ∧ u.result = .byte (t.cart.prgBytes.read
      ((maskIndex i t.cart.prgSize size * size + k * 8192 + 8188) % t.cart.prgSize)) := by
  have hbind : t.bus.readAt (0xFFFC : Addr).toNat = .prgWin := by
    rw [hb]
    exact boardTable_readPrg _ (by decide) (by decide)
  have hoff : (swappedPage t.cart .prg size i k).off
      = (maskIndex i t.cart.prgSize size * size + k * 8192) % t.cart.prgSize := if_neg hz
  refine ⟨_, exec_of_cpuRead 0xFFFC (by simp [cpuReads]) (cpuRead_prgWin hp hbind), ?_⟩
  rw [readBM_page (w := .prg) (o := prgOffset 0xFFFC) hz hpage, hoff]
  exact congrArg (fun o => Result.byte (t.cart.prgBytes.read o)) (Nat.mod_add_mod ..)

/-- Up to 16 banks the index 15 is masked to the last one (R290, R297). -/
theorem maskIndex_fifteen {srcSize : Nat} (h : 16384 ≤ srcSize) (h' : srcSize ≤ 262144) :
    maskIndex 15 srcSize 16384 = bankCount srcSize 16384 - 1 := by
  have hq : srcSize / 16384 ≠ 0 ∧ srcSize / 16384 < 2 ^ 5 := by omega
  have hlog : (srcSize / 16384).log2 < 5 := (Nat.log2_lt hq.1).2 hq.2
  rw [maskIndex_eq_mod, bankCount_eq_pow h]
  generalize (srcSize / 16384).log2 = k at hlog
  interval_cases k <;> rfl

/-- A 16 KiB bank at `$C000` that is the last of the Source. -/
theorem lastBank_vector {srcSize bank : Nat} (h : 16384 ≤ srcSize) (hb : bank = bankCount srcSize 16384 - 1) :
    (bank * 16384 + 1 * 8192 + 8188) % srcSize = 16384 * (bankCount srcSize 16384 - 1) + 0x3FFC := by
  have hle := bankCount_mul_le h (by decide)
  have hpos := bankCount_pos srcSize 16384
  rw [Nat.mod_eq_of_lt (by omega)]
  omega

/-- After a hard reset the Prg pages are those of the board's rule, over its table. -/
theorem exec_resetHard_vector {s : State} {size i k o : Nat} (hw : s.Wf) (hm : modelled s.cart.board = true)
    (hz : s.cart.prgSize ≠ 0)
    (hpage : (boardWindows s.cart (hardDefaults s.cart.board)).prg[3]? = some (swappedPage s.cart .prg size i k))
    (ho : (maskIndex i s.cart.prgSize size * size + k * 8192 + 8188) % s.cart.prgSize = o) :
    ∃ u, exec (.prgRd 0xFFFC) (resetBlock true s) = .next u ∧ u.result = .byte (s.cart.prgBytes.read o) := by
  rw [resetBlock_hard hw.counts hm, ← ho]
  exact exec_prgRd_vector rfl rfl hz hpage

/-- Settles O39: page 3 of each board's Prg windows. -/
theorem resetVectorComesFromTheMappedBank : Obligations.ResetVectorComesFromTheMappedBank := by
  unfold Obligations.ResetVectorComesFromTheMappedBank
  intro s hw hsize
  have hz : s.cart.prgSize ≠ 0 := by omega
  have hzero (size : Nat) : maskIndex 0 s.cart.prgSize size = 0 := Nat.zero_and _
  refine ⟨_, rfl, fun o ho => ?_⟩
  rcases ho with ⟨hb, rfl⟩ | ⟨hb, rfl⟩ | ⟨hb, hmax, rfl⟩ | ⟨hb, hmax, rfl⟩ | ⟨hb, h32, rfl⟩
  · refine exec_resetHard_vector (size := 32768) (i := 0) (k := 3) hw (by rw [hb]; rfl) hz ?_ ?_
    · simp only [boardWindows, hb, hardDefaults]
      rfl
    · rw [hzero]
  · refine exec_resetHard_vector (size := 32768) (i := 0) (k := 3) hw (by rw [hb]; rfl) hz ?_ ?_
    · simp only [boardWindows, hb, hardDefaults]
      rfl
    · rw [hzero]
  · refine exec_resetHard_vector (size := 16384) (i := 15) (k := 1) hw (by rw [hb]; rfl) hz ?_
      (lastBank_vector hsize (maskIndex_fifteen hsize hmax))
    simp only [boardWindows, hb, hardDefaults]
    rfl
  · refine exec_resetHard_vector (size := 16384) (i := 0xFFFFFFFF) (k := 1) hw (by rw [hb]; rfl) hz ?_
      (lastBank_vector hsize (maskIndex_ones (by decide) hsize hmax))
    simp only [boardWindows, hb, hardDefaults]
    rfl
  · refine exec_resetHard_vector (size := 32768) (i := 0) (k := 3) hw (by rw [hb]; rfl) hz ?_ ?_
    · simp only [boardWindows, hb, hardDefaults]
      rfl
    · rw [hzero, Nat.mod_eq_of_lt (by omega)]

/-- Settles O60. -/
theorem resetStateIsReady : Obligations.ResetStateIsReady := by
  unfold Obligations.ResetStateIsReady
  refine ⟨⟨⟨by decide, by decide, by decide, by decide, by decide, by decide, by decide, by decide, by decide⟩,
    fun _ => ⟨by decide, by decide⟩, rfl, rfl⟩, congrArg Host.Outcome.next ?_⟩
  decide

/-! ### MMC1's five serial writes (R125, R293 to R296) -/

/-- The registers after one of the first four serial writes. -/
def mmc1Shifted (e : Byte) (r : Mmc1Regs) : Mmc1Regs :=
  { r with shift := r.shift ||| (BitVec.ofNat 5 (e.toNat % 2) <<< r.count.toNat), count := r.count + 1 }

/-- The registers after the fifth serial write, by the address (R293 to R296). -/
def mmc1Loaded (a : Addr) (v : BitVec 5) (r : Mmc1Regs) : Mmc1Regs :=
  if a.toNat < 0xA000 then { r with ctrl := v }
  else if a.toNat < 0xC000 then { r with chr0 := v }
  else if a.toNat < 0xE000 then { r with chr1 := v }
  else { r with prg := v }

theorem mmc1Row_fifth_board (a : Addr) {e : Byte} {r : Mmc1Regs} {s : State} (he : e.toNat < 0x80)
    (hc : r.count = 4) :
    (mmc1Row a e r s).board = .mmc1 (mmc1Loaded a (fifthValue e r) { r with shift := 0, count := 0 }) := by
  rw [mmc1Row, if_neg (by rw [field_bit7_iff]; omega), mmc1Loaded]
  have hs := mmc1Shift_fifth e hc
  split
  · simp only [mmc1ShiftControl, hs]
    exact (updated_closed.mmc1All ..).board
  split
  · simp only [mmc1ShiftChr0, hs]
    exact (updated_closed.mmc1Chr ..).board
  split
  · simp only [mmc1ShiftChr1, hs]
    exact (updated_closed.mmc1Chr ..).board
  · simp only [mmc1ShiftPrg, hs]
    exact (updated_closed.mmc1Prg ..).board

/-- One of the first four serial writes of a ready MMC1, which stays ready. -/
theorem exec_serialWrite {s : State} {r : Mmc1Regs} {a : Addr} {e : Byte} (hR : s.Ready .mmc1)
    (hr : s.board = .mmc1 r) (ha : 0x8000 ≤ a.toNat) (he : e.toNat < 0x80) (hc : r.count.toNat < 4) :
    ∃ t, exec (.cpuWr a e) s = .next t ∧ t.Ready .mmc1 ∧ t.board = .mmc1 (mmc1Shifted e r) := by
  have hw : cpuWrite a e s = { latched e s with board := .mmc1 (mmc1Shifted e r) } := by
    rw [cpuWrite_mmc1 e hR hr ha, mmc1Row_early a _ he hc]
    rfl
  have hx := exec_of_cpuWrite (i := .cpuWr a e) a e (by simp [cpuWrites]) hw
  exact ⟨_, hx, exec_ready rfl hR hx hR.powered, rfl⟩

theorem serialBit_lt (v : BitVec 5) (k : Nat) : (serialBit v k).toNat < 0x80 := by
  have hbit : v.toNat / 2 ^ k % 2 < 2 := Nat.mod_lt _ (by decide)
  rw [serialBit, BitVec.toNat_ofNat]
  omega

/-- The registers after the first four writes of `MMC1W`. -/
def mmc1FourBits (v : BitVec 5) (r : Mmc1Regs) : Mmc1Regs :=
  mmc1Shifted (serialBit v 3) (mmc1Shifted (serialBit v 2) (mmc1Shifted (serialBit v 1)
    (mmc1Shifted (serialBit v 0) r)))

/-- From an empty serial register the fifth write commits the five bits as they were sent. -/
theorem fifthValue_fourBits (v : BitVec 5) {r : Mmc1Regs} (hs : r.shift = 0) (hc : r.count = 0) :
    fifthValue (serialBit v 4) (mmc1FourBits v r) = v := by
  simp only [fifthValue, mmc1FourBits, mmc1Shifted, hs, hc]
  revert v
  decide

theorem mmc1FourBits_count (v : BitVec 5) {r : Mmc1Regs} (hc : r.count = 0) : (mmc1FourBits v r).count = 4 := by
  simp only [mmc1FourBits, mmc1Shifted, hc]
  decide

/-- Clearing the serial registers after the four writes gives the registers before them. -/
theorem mmc1FourBits_cleared (v : BitVec 5) {r : Mmc1Regs} (hs : r.shift = 0) (hc : r.count = 0) :
    { mmc1FourBits v r with shift := 0, count := 0 } = r := by
  obtain ⟨ctrl, chr0, chr1, prg, shift, count⟩ := r
  cases hs
  cases hc
  rfl

/-- The first four writes of `MMC1W` of a ready MMC1. -/
theorem execAll_fourBits {s : State} {r : Mmc1Regs} {a : Addr} (v : BitVec 5) (hR : s.Ready .mmc1)
    (hr : s.board = .mmc1 r) (ha : 0x8000 ≤ a.toNat) (hc : r.count = 0) (rest : List Instr) :
    ∃ t, execAll (.cpuWr a (serialBit v 0) :: .cpuWr a (serialBit v 1) :: .cpuWr a (serialBit v 2)
        :: .cpuWr a (serialBit v 3) :: rest) s = execAll rest t
      ∧ t.Ready .mmc1 ∧ t.board = .mmc1 (mmc1FourBits v r) := by
  have hlt := serialBit_lt v
  obtain ⟨s1, hx1, hR1, hr1⟩ := exec_serialWrite hR hr ha (hlt 0) (by rw [hc]; decide)
  obtain ⟨s2, hx2, hR2, hr2⟩ := exec_serialWrite hR1 hr1 ha (hlt 1) (by simp only [mmc1Shifted, hc]; decide)
  obtain ⟨s3, hx3, hR3, hr3⟩ := exec_serialWrite hR2 hr2 ha (hlt 2) (by simp only [mmc1Shifted, hc]; decide)
  obtain ⟨s4, hx4, hR4, hr4⟩ := exec_serialWrite hR3 hr3 ha (hlt 3) (by simp only [mmc1Shifted, hc]; decide)
  exact ⟨s4, by simp only [execAll, hx1, hx2, hx3, hx4], hR4, hr4⟩

/-- Settles O45: four writes shift, each leaving the state ready, and the fifth loads the five bits. -/
theorem fiveSerialWritesLoadTheRegister : Obligations.FiveSerialWritesLoadTheRegister := by
  unfold Obligations.FiveSerialWritesLoadTheRegister
  intro a v s r hR hr ha hc
  have hs : r.shift = 0 := by
    have hregs := hR.wf.regs
    rw [hR.board, hr] at hregs
    obtain ⟨-, hshift⟩ := hregs
    rw [hc] at hshift
    exact BitVec.eq_of_toNat_eq (Nat.lt_one_iff.1 hshift)
  obtain ⟨t, hx, hRt, hrt⟩ := execAll_fourBits v hR hr ha hc [.cpuWr a (serialBit v 4)]
  refine ⟨cpuWrite a (serialBit v 4) t, hx, ?_⟩
  rw [cpuWrite_mmc1 _ hRt hrt ha, mmc1Row_fifth_board a (serialBit_lt v 4) (mmc1FourBits_count v hc),
    fifthValue_fourBits v hs hc, mmc1FourBits_cleared v hs hc]
  rfl

/-! ### The command latch (R251 to R255) -/

/-- With an empty `Update` there is nothing to recompute (R251). -/
theorem latchUpdate_nil {p : LatchParams} (s : State) (h : p.update = []) : latchUpdate p s = .ok s := by
  unfold latchUpdate
  rw [h]
  split <;> rfl

/-- The `Map` of a write function outside the system region is legal (R182). -/
theorem mapLegal_handler {first last : Nat} (f : WriteFn) (h : 0x4020 ≤ first) (h' : first ≤ last)
    (h'' : last ≤ 0xFFFF) : mapLegal ⟨first, last, none, some (.boardWrite f)⟩ = true :=
  (mapLegal_iff _).2 ⟨h', h, h'', nofun, by rintro (h | h) <;> cases h⟩

/-- `SubReset` of a command-latch board with an empty `Update`: its two `Map` calls (R255). -/
theorem subReset_latch {hard : Bool} {p : LatchParams} {s : State} (hp : p.legal) (hc : s.cart.board = .latch p)
    (hu : p.update = []) :
    subReset hard s = .ok { s with bus :=
      ⟨p.datFirst, p.datLast, none, some (.boardWrite .latchData)⟩
        :: ⟨p.selFirst, p.selLast, none, some (.boardWrite .latchSelect)⟩ :: s.bus } := by
  obtain ⟨hs1, hs2, hs3, hd1, hd2, hd3, -, -, -⟩ := hp
  simp only [subReset, hc, latchSubReset, mapRanges, mapRange, mapLegal_handler .latchSelect hs1 hs2 hs3,
    mapLegal_handler .latchData hd1 hd2 hd3, if_true, latchUpdate_nil _ hu]
  rfl

/-- The data range of the latch's table reaches the data handler (R255). -/
theorem latchTable_data {p : LatchParams} (hp : p.legal) (b : Bus) {k : Nat} (hlo : p.datFirst ≤ k)
    (hhi : k ≤ p.datLast) :
    Bus.writeAt (⟨p.datFirst, p.datLast, none, some (.boardWrite .latchData)⟩
      :: ⟨p.selFirst, p.selLast, none, some (.boardWrite .latchSelect)⟩ :: b) k = .boardWrite .latchData := by
  obtain ⟨-, -, -, hd, -⟩ := hp
  rw [Bus.writeAt_cons _ _ (Nat.le_trans hd hlo), if_pos ⟨hlo, hhi⟩]
  rfl

/-- The select range, which the data range does not meet, reaches the select handler (R251, R255). -/
theorem latchTable_select {p : LatchParams} (hp : p.legal) (b : Bus) {k : Nat} (hlo : p.selFirst ≤ k)
    (hhi : k ≤ p.selLast) :
    Bus.writeAt (⟨p.datFirst, p.datLast, none, some (.boardWrite .latchData)⟩
      :: ⟨p.selFirst, p.selLast, none, some (.boardWrite .latchSelect)⟩ :: b) k = .boardWrite .latchSelect := by
  obtain ⟨hs, -, -, -, -, -, hdisjoint, -, -⟩ := hp
  have hk : 0x4020 ≤ k := Nat.le_trans hs hlo
  rw [Bus.writeAt_cons _ _ hk, if_neg (by simp only []; omega), Bus.writeAt_cons _ _ hk, if_pos ⟨hlo, hhi⟩]
  rfl

/-- A completed handler is the answer of `CPU_WR`. -/
theorem exec_cpuWr_of_ok {s t : State} {a : Addr} {d : Byte} (hp : s.powered = true)
    (h : writeBound (s.bus.writeAt a.toNat) a d (busValue a d (latched d s)) (latched d s) = .ok t) :
    exec (.cpuWr a d) s = .next t := exec_of_cpuWrite a d (by simp [cpuWrites]) (cpuWrite_of_ok hp h)

theorem latchData_in {s : State} {p : LatchParams} {l : Byte} {sub : List Byte} (e : Byte)
    (hc : s.cart.board = .latch p) (hb : s.board = .latch l sub) (h : (l &&& p.selMask).toNat < p.count)
    (hu : p.update = []) :
    latchData e s = .ok { s with board := .latch l (sub.set (l &&& p.selMask).toNat e) } := by
  simp only [latchData, hc, hb, if_pos h, latchUpdate_nil _ hu]

theorem latchData_beyond {s : State} {p : LatchParams} {l : Byte} {sub : List Byte} (e : Byte)
    (hc : s.cart.board = .latch p) (hb : s.board = .latch l sub) (h : p.count ≤ (l &&& p.selMask).toNat) :
    latchData e s = .ok s := by
  simp only [latchData, hc, hb, if_neg (Nat.not_lt.2 h)]

/-- Settles O51. -/
theorem latchWritesGoThroughTheLatch : Obligations.LatchWritesGoThroughTheLatch := by
  unfold Obligations.LatchWritesGoThroughTheLatch
  refine ⟨fun p s hlegal hc hu => ?_, fun a d l sub p s hp hc hb hlen =>
    ⟨fun hbind => ?_, fun hbind hk => ?_, fun hbind hk hu => ?_⟩⟩
  · have hsub := subReset_latch (hard := true) hlegal
      ((congrArg Cartridge.board (resetBase_cart true (clearOutput s))).trans hc) hu
    have hresult : (resetBase true (clearOutput s)).result = .done := by
      obtain ⟨q, c, n, w, b, hb⟩ := resetBase_eq true (clearOutput s)
      rw [hb]
      rfl
    have hboard : (resetBase true (clearOutput s)).board = .latch p.latchDefault p.subDefaults :=
      (resetBase_board true _).trans (by rw [clearOutput_cart, hc]; rfl)
    refine ⟨_, congrArg Host.Outcome.next (resetBlock_hard_of_ok hsub), hresult, hboard, fun k =>
      ⟨fun hlo hhi => latchTable_select hlegal _ hlo hhi, fun hlo hhi => latchTable_data hlegal _ hlo hhi⟩⟩
  · refine exec_cpuWr_of_ok hp ?_
    rw [hbind]
    simp only [writeBound, boardWrite, latchSelect, latched, clearOutput, hb]
  · refine exec_cpuWr_of_ok hp ?_
    rw [hbind]
    exact latchData_beyond (s := latched d s) _ hc hb hk
  · refine exec_cpuWr_of_ok hp ?_
    rw [hbind]
    exact latchData_in (s := latched d s) _ hc hb hk hu

end Sys2Proof.Machine
end

section
/-! SUPPORT. Before the first transaction (45_factory_identification.md): the factory's answer to each id, the
header's fields by their bits, identification, and the reflected CRC-32. -/

namespace Sys2Proof.Machine

/-! ### The factory (R350, R351) -/

theorem create_of_modelled {n : Nat} {b : Board} (p : Params) {prg chr : Nat} (h : modelledBoard n = some b)
    (hl : withinLimits b prg chr = true) : create p (.number n) prg chr = .next b := by
  simp only [create, h, hl, if_true]

theorem create_beyondLimits {n : Nat} {b : Board} (p : Params) {prg chr : Nat} (h : modelledBoard n = some b)
    (hl : withinLimits b prg chr = false) : create p (.number n) prg chr = .refused (.boardNotModelled n) := by
  simp only [create, h, hl, Bool.false_eq_true, if_false]

theorem modelledBoard_none {n : Nat} (h : n ∉ [0, 1, 2, 3, 7]) : modelledBoard n = none := by
  simp only [List.mem_cons, List.not_mem_nil, or_false, not_or] at h
  unfold modelledBoard
  split <;> simp_all

theorem create_other {n : Nat} (p : Params) (prg chr : Nat) (h : n ∉ [0, 1, 2, 3, 7]) :
    create p (.number n) prg chr =
      if p.catalogue.val.contains n then .refused (.boardNotModelled n)
      else .fault (.error (.unsupportedMapper n)) := by
  simp only [create, modelledBoard_none h]

/-- Only MMC1 has size limits (R290, R351). -/
theorem withinLimits_mmc1_iff (prg chr : Nat) :
    withinLimits .mmc1 prg chr = true ↔ prg ≤ 262144 ∧ chr ≤ 131072 := by
  simp [withinLimits]

/-- No catalogue holds 9999 (D21). -/
theorem catalogue_lacks_9999 (p : Params) : 9999 ∉ p.catalogue.val := by
  have h := p.catalogue.property
  simp only [catalogueLegal, Bool.and_eq_true, Bool.not_eq_true', ← Bool.not_eq_true,
    List.contains_iff_mem] at h
  exact h.2

/-- Settles O55. -/
theorem factoryAnswersEveryId : Obligations.FactoryAnswersEveryId := by
  unfold Obligations.FactoryAnswersEveryId
  intro p n prg chr
  have houtside (m : Nat) (hm : m ∉ [0, 1, 2, 3, 7]) (hc : m ∉ p.catalogue.val) :
      create p (.number m) prg chr = .fault (.error (.unsupportedMapper m)) := by
    rw [create_other p prg chr hm, if_neg (by rwa [List.contains_iff_mem])]
  refine ⟨⟨create_of_modelled p rfl rfl, create_of_modelled p rfl rfl, create_of_modelled p rfl rfl,
    create_of_modelled p rfl rfl, rfl⟩, fun h h' => ?_, fun h => ?_, fun hn hc => ?_, houtside n,
    houtside 9999 (by decide) (catalogue_lacks_9999 p)⟩
  · exact create_of_modelled p rfl ((withinLimits_mmc1_iff prg chr).2 ⟨h, h'⟩)
  · refine create_beyondLimits p rfl ?_
    rw [Bool.eq_false_iff, Ne, withinLimits_mmc1_iff]
    omega
  · rw [create_other p prg chr hn, if_pos (List.contains_iff_mem.2 hc)]

/-! ### The header (R119, R363) -/

/-- The flags word has byte 6 in its low half and byte 7 in its high half (R119). -/
theorem headerFlags_eq (file : List Byte) :
    headerFlags file = (fileByte file 6).toNat + 256 * (fileByte file 7).toNat := by
  simp [headerFlags, numberOf]

/-- A bit of the flags word is a bit of byte 6 or, from bit 8 on, of byte 7 (R119). -/
theorem flagBit_eq (file : List Byte) (k : Nat) :
    flagBit file k = if k < 8 then (fileByte file 6).getLsbD k else (fileByte file 7).getLsbD (k - 8) := by
  rw [flagBit, headerFlags_eq, Nat.add_comm]
  exact Nat.testBit_two_pow_mul_add (fileByte file 7).toNat (i := 8) (fileByte file 6).isLt k

/-- Settles O56. -/
theorem headerFieldsComeFromTheirBits : Obligations.HeaderFieldsComeFromTheirBits := by
  unfold Obligations.HeaderFieldsComeFromTheirBits
  intro p file _
  have h6 := (fileByte file 6).isLt
  have h7 := (fileByte file 7).isLt
  refine ⟨rfl, rfl, ?_, ?_, flagBit_eq file 1, flagBit_eq file 2, flagBit_eq file 8, rfl⟩
  · show headerFlags file / 2 ^ 12 % 16 * 16 + headerFlags file / 2 ^ 4 % 16 =
      (fileByte file 7).toNat / 16 * 16 + (fileByte file 6).toNat / 16
    rw [headerFlags_eq]
    omega
  · show (if flagBit file 3 then _ else if flagBit file 0 then _ else _) = _
    rw [flagBit_eq, flagBit_eq]
    rfl

/-! ### Identification (R361 to R372) -/

theorem signatureOk_iff (file : List Byte) : signatureOk file = true ↔ file.take 4 = [0x4E, 0x45, 0x53, 0x1A] :=
  beq_iff_eq

theorem sizesOk_iff (h : Header) (file : List Byte) :
    sizesOk h file = true ↔ h.prgSize ≠ 0 ∧ prgStart h + h.prgSize + h.chrSize ≤ file.length := by
  simp [sizesOk]

theorem identify_signature (p : Params) (db : List DbEntry) {file : List Byte}
    (h : file.take 4 ≠ [0x4E, 0x45, 0x53, 0x1A]) : identify p db file = .error (.invalidHeader .signature) :=
  if_pos (Bool.eq_false_iff.2 fun hok => h ((signatureOk_iff file).1 hok))

theorem identify_size (p : Params) (db : List DbEntry) {file : List Byte} (h : signatureOk file = true)
    (hs : sizesOk (readHeader p file) file = false) : identify p db file = .error (.invalidHeader .size) := by
  rw [identify, if_neg (by rw [h]; decide), if_pos hs]

theorem identify_ok (p : Params) (db : List DbEntry) {file : List Byte} (h : signatureOk file = true)
    (hs : sizesOk (readHeader p file) file = true) :
    identify p db file =
      let h := readHeader p file
      let crc := crc32 (crcPayload p h file)
      .ok (withDatabase (dbLookup db crc) h crc file) := by
  rw [identify, if_neg (by rw [h]; decide), if_neg (by rw [hs]; decide)]

/-- The CRC covers PRG and then CHR, the trainer first under `CRC_WITH_TRAINER` (R367). -/
theorem crcPayload_eq (p : Params) (h : Header) (file : List Byte) :
    crcPayload p h file =
      (if p.crcWithTrainer ∧ h.trainer then (file.drop 16).take 512 else [])
        ++ (file.drop (prgStart h)).take h.prgSize ++ (file.drop (prgStart h + h.prgSize)).take h.chrSize := by
  rw [crcPayload, List.append_assoc, List.take_add, List.drop_drop]
  congr 1
  simp

theorem withDatabase_prg (hit : Option DbEntry) (h : Header) (crc : Word) (file : List Byte) :
    (withDatabase hit h crc file).prg = (file.drop (prgStart h)).take h.prgSize := rfl

theorem withDatabase_chr (hit : Option DbEntry) (h : Header) (crc : Word) (file : List Byte) :
    (withDatabase hit h crc file).chr = (file.drop (prgStart h + h.prgSize)).take h.chrSize := rfl

/-- A database hit overrides the header (R369). -/
theorem withDatabase_hit {db : List DbEntry} {crc : Word} {h : Header} {file : List Byte} (e : DbEntry)
    (he : dbLookup db crc = some e) :
    let d := withDatabase (dbLookup db crc) h crc file
    d.boardId = e.boardId ∧ d.mirroring = e.mirroring ∧ d.battery = e.battery ∧ d.system = some e.system := by
  rw [he]
  exact ⟨rfl, rfl, rfl, rfl⟩

/-- On a miss the header's values stand (R370). -/
theorem withDatabase_miss {db : List DbEntry} {crc : Word} {h : Header} {file : List Byte}
    (he : dbLookup db crc = none) :
    let d := withDatabase (dbLookup db crc) h crc file
    d.boardId = h.mapperId ∧ d.mirroring = h.mirroring ∧ d.battery = h.battery := by
  rw [he]
  exact ⟨rfl, rfl, rfl⟩

/-! ### CRC-32 (R367) -/

theorem crcByte_eq_iterate (c : Word) (b : Byte) : crcByte c b = crcBit^[8] (c ^^^ b.setWidth 32) := rfl

theorem crc32_eq (bs : List Byte) : crc32 bs = ~~~ bs.foldl crcByte 0xFFFFFFFF :=
  BitVec.xor_allOnes

theorem crc32_append (bs : List Byte) (b : Byte) :
    crc32 (bs ++ [b]) = ~~~ (crcBit^[8] (~~~ crc32 bs ^^^ b.setWidth 32)) := by
  rw [crc32_eq, crc32_eq, BitVec.not_not, List.foldl_append, List.foldl_cons, List.foldl_nil, crcByte_eq_iterate]

/-- Settles O57. -/
theorem identificationChecksThenLooksUp : Obligations.IdentificationChecksThenLooksUp := by
  unfold Obligations.IdentificationChecksThenLooksUp
  intro p db file
  refine ⟨fun h => identify_signature p db h, fun h hbad => ?_, fun h hz hlen => ?_,
    fun bs b => crc32_append bs b, by decide⟩
  · refine identify_size p db ((signatureOk_iff file).2 h) (Bool.eq_false_iff.2 fun hok => ?_)
    obtain ⟨hprg, hlen⟩ := (sizesOk_iff _ file).1 hok
    rcases hbad with hbad | hbad
    · exact hprg hbad
    · exact absurd hlen (Nat.not_le.2 hbad)
  · have hid := identify_ok p db ((signatureOk_iff file).2 h) ((sizesOk_iff _ file).2 ⟨hz, hlen⟩)
    have hlength : prgStart (readHeader p file) + (readHeader p file).prgSize + (readHeader p file).chrSize
        ≤ file.length := hlen
    refine ⟨_, hid, ?_, ?_, rfl, rfl, rfl, congrArg crc32 (crcPayload_eq p _ file),
      fun e he => withDatabase_hit e he, fun he => withDatabase_miss he⟩
    · rw [withDatabase_prg, List.length_take, List.length_drop]
      omega
    · rw [withDatabase_chr, List.length_take, List.length_drop]
      omega

end Sys2Proof.Machine
end

section
/-! SUPPORT. Save states (46_state_codec.md): what a save writes, what a malformed stream fails with, an unknown
chunk, and a load that gives back a save. -/

namespace Sys2Proof.Machine

/-! ### Tags and register bytes -/

theorem bytes32_tagReg : bytes32 tagReg = [0x52, 0x45, 0x47, 0x00] := by decide

theorem bytes32_tagWrk : bytes32 tagWrk = [0x57, 0x52, 0x4B, 0x00] := by decide

theorem bytes32_tagCrm : bytes32 tagCrm = [0x43, 0x52, 0x4D, 0x00] := by decide

/-- The numbers of MMC1's register bytes (R299). -/
theorem regBytes_mmc1_toNat (r : Mmc1Regs) :
    (regBytes (.mmc1 r)).map BitVec.toNat =
      [r.ctrl.toNat, r.chr0.toNat, r.chr1.toNat, r.prg.toNat, r.shift.toNat, r.count.toNat] := by
  have wide5 (v : BitVec 5) : (v.setWidth 8).toNat = v.toNat := BitVec.toNat_setWidth_of_le (by decide)
  have wide3 (v : BitVec 3) : (v.setWidth 8).toNat = v.toNat := BitVec.toNat_setWidth_of_le (by decide)
  simp only [regBytes, List.map_cons, List.map_nil, wide5, wide3]

/-- Settles O52. -/
theorem saveWritesTheChunks : Obligations.SaveWritesTheChunks := by
  unfold Obligations.SaveWritesTheChunks
  refine ⟨fun s hp => congrArg Host.Outcome.next ?_, regBytes_mmc1_toNat, fun v => ⟨rfl, rfl, rfl, rfl⟩, rfl, ?_⟩
  · have hwrk : (if s.cart.hasWrk then chunkBytes tagWrk (0 :: s.ramWrk.toBytes s.cart.wrkSize) else []) =
        if s.cart.wrkSize = 0 then [] else
          [0x57, 0x52, 0x4B, 0x00] ++ bytes32 (s.cart.wrkSize + 1) ++ 0
            :: (List.range s.cart.wrkSize).map s.ramWrk.read := by
      by_cases hz : s.cart.wrkSize = 0
      · simp [Cartridge.hasWrk, hz]
      · simp [Cartridge.hasWrk, hz, chunkBytes, bytes32_tagWrk, Memory.toBytes]
    have hcrm : (if s.cart.chrIsRam then chunkBytes tagCrm (0 :: s.ramChr.toBytes 8192) else []) =
        if s.cart.chrSize = 0 then
          [0x43, 0x52, 0x4D, 0x00] ++ bytes32 8193 ++ 0 :: (List.range 8192).map s.ramChr.read else [] := by
      by_cases hz : s.cart.chrSize = 0
      · rw [if_pos hz, if_pos (by simp [Cartridge.chrIsRam, hz]), chunkBytes, bytes32_tagCrm, List.length_cons,
          Memory.toBytes_length]
        rfl
      · rw [if_neg hz, if_neg (by simp [Cartridge.chrIsRam, hz])]
    rw [saveBlock_on hp, saveStream_eq, hwrk, hcrm, chunkBytes, bytes32_tagReg]
  · intro b hb
    simp only [List.mem_cons, List.not_mem_nil, or_false] at hb
    rcases hb with rfl | rfl | rfl | rfl | rfl <;> rfl

/-! ### Loads that fail -/

/-- A stream that fails a check is the error of that check, and the state is kept (R421). -/
theorem exec_load_of_error {s : State} {c : LoadCheck} (hp : s.powered = true)
    (h : parseStream s.cart s.stream = .error c) :
    exec .load s = .next { s with result := .error (.corruptSaveState c), events := [] } := by
  refine congrArg Host.Outcome.next ?_
  rcases loadBlock_cases hp with ⟨c', h', hl⟩ | ⟨got, t, h', -, -⟩ | ⟨got, r, h', -, -⟩ <;> rw [h] at h' <;> cases h'
  exact hl

theorem parseStream_of_error {c : Cartridge} {bs : List Byte} {e : LoadCheck}
    (h : readChunks c (bs.length + 1) ⟨[bs]⟩ Collected.empty = .error e) : parseStream c bs = .error e := by
  rw [parseStream, Loader.new, h]

theorem readChunks_of_begin_error {c : Cartridge} {fuel : Nat} {bs : List Byte} {e : LoadCheck} (got : Collected)
    (h : Loader.beginChunk ⟨[bs]⟩ = .error e) : readChunks c (fuel + 1) ⟨[bs]⟩ got = .error e := by
  rw [readChunks, h]

/-- A board with registers needs a `REG` (R401). -/
theorem parseStream_nil {c : Cartridge} (h : hasRegs c.board = true) : parseStream c [] = .error .missingReg := by
  rw [parseStream, Loader.new, readChunks_nil, h]
  rfl

/-- A header cut short (R391). -/
theorem beginChunk_truncated {bs : List Byte} (h : 0 < bs.length) (h' : bs.length < 8) :
    Loader.beginChunk ⟨[bs]⟩ = .error .truncatedHeader := by
  rw [Loader.beginChunk_single, if_neg (List.length_pos_iff.1 h), if_pos h']

/-- The two numbers of a header, and what is behind them (R121). -/
theorem header_parts (tag len : Nat) (rest : List Byte) :
    ((bytes32 tag ++ bytes32 len ++ rest).drop 4).take 4 = bytes32 len
      ∧ (bytes32 tag ++ bytes32 len ++ rest).drop 8 = rest := ⟨rfl, rfl⟩

/-- A length beyond the bytes left (R391). -/
theorem beginChunk_lengthExceeds {tag len : Nat} {rest : List Byte} (hl : len < 2 ^ 32) (h : rest.length < len) :
    Loader.beginChunk ⟨[bytes32 tag ++ bytes32 len ++ rest]⟩ = .error .lengthExceeds := by
  obtain ⟨hlen, hrest⟩ := header_parts tag len rest
  rw [Loader.beginChunk_single, hlen, hrest, numberOf_bytes32 hl, if_neg (by simp [bytes32]), if_neg (by simp; omega),
    if_pos h]

/-- A first chunk that fails fails the stream, whatever follows it (R427). -/
theorem parseStream_first_error {c : Cartridge} {tag : Nat} {payload rest : List Byte} {e : LoadCheck}
    (ht : tag < 2 ^ 32) (h0 : tag ≠ 0) (hp : payload.length < 2 ^ 32)
    (h : readChunk c tag ⟨[payload, rest]⟩ Collected.empty = .error e) :
    parseStream c (chunkBytes tag payload ++ rest) = .error e := by
  refine parseStream_of_error ?_
  rw [readChunks_whole c _ ht h0 hp, h]

/-- A second chunk that fails behind a first one that is read. -/
theorem parseStream_second_error {c : Cartridge} {tag tag' : Nat} {payload payload' rest : List Byte} {e : LoadCheck}
    {got : Collected} (ht : tag < 2 ^ 32) (h0 : tag ≠ 0) (hp : payload.length < 2 ^ 32) (ht' : tag' < 2 ^ 32)
    (h0' : tag' ≠ 0) (hp' : payload'.length < 2 ^ 32)
    (h : readChunk c tag ⟨[payload, chunkBytes tag' payload' ++ rest]⟩ Collected.empty = .ok got)
    (h' : readChunk c tag' ⟨[payload', rest]⟩ got = .error e) :
    parseStream c (chunkBytes tag payload ++ (chunkBytes tag' payload' ++ rest)) = .error e := by
  refine parseStream_of_error ?_
  rw [readChunks_whole c _ ht h0 hp, h]
  simp only []
  rw [readChunks_whole c _ ht' h0' hp', h']

/-! ### One chunk -/

theorem readChunk_reg {c : Cartridge} {ld : Loader} {got : Collected} (h : got.reg = none) :
    readChunk c tagReg ld got =
      match regsOfBytes c.board ld.current with
      | .ok r => .ok { got with reg := some r }
      | .error e => .error e := by
  rw [readChunk, if_pos rfl, h]
  rfl

theorem readChunk_reg_twice {c : Cartridge} {ld : Loader} {got : Collected} {r : BoardRegs} (h : got.reg = some r) :
    readChunk c tagReg ld got = .error .duplicateTag := by
  rw [readChunk, if_pos rfl, h]
  rfl

theorem readChunk_wrk {c : Cartridge} {ld : Loader} {got : Collected} (h : got.wrk = none) :
    readChunk c tagWrk ld got =
      match readBulk (c.sourceSize .wrk) ld with
      | .ok bs => .ok { got with wrk := some bs }
      | .error e => .error e := by
  rw [readChunk, if_neg (by decide), if_pos rfl, h]
  rfl

theorem readChunk_wrk_twice {c : Cartridge} {ld : Loader} {got : Collected} {bs : List Byte} (h : got.wrk = some bs) :
    readChunk c tagWrk ld got = .error .duplicateTag := by
  rw [readChunk, if_neg (by decide), if_pos rfl, h]
  rfl

theorem readChunk_crm {c : Cartridge} {ld : Loader} {got : Collected} (h : got.crm = none) :
    readChunk c tagCrm ld got =
      match readBulk (c.sourceSize .chr) ld with
      | .ok bs => .ok { got with crm := some bs }
      | .error e => .error e := by
  rw [readChunk, if_neg (by decide), if_neg (by decide), if_pos rfl, h]
  rfl

theorem readChunk_crm_twice {c : Cartridge} {ld : Loader} {got : Collected} {bs : List Byte} (h : got.crm = some bs) :
    readChunk c tagCrm ld got = .error .duplicateTag := by
  rw [readChunk, if_neg (by decide), if_neg (by decide), if_pos rfl, h]
  rfl

theorem readChunk_unknown (c : Cartridge) {tag : Nat} (ld : Loader) (got : Collected)
    (h : tag ∉ [0, tagReg, tagWrk, tagCrm]) : readChunk c tag ld got = .ok got := by
  simp only [List.mem_cons, List.not_mem_nil, or_false, not_or] at h
  obtain ⟨-, hr, hw, hc⟩ := h
  rw [readChunk, if_neg hr, if_neg hw, if_neg hc]

/-! ### Bulk payloads that fail (R394, R401) -/

theorem readBulk_nil (size : Nat) (rest : List (List Byte)) : readBulk size ⟨[] :: rest⟩ = .error .truncatedRead := rfl

/-- What a payload with a method byte gives. -/
theorem readBulk_cons (size : Nat) (m : Byte) (data : List Byte) (rest : List (List Byte)) :
    readBulk size ⟨(m :: data) :: rest⟩ =
      match (if m = 0 then .ok data
        else if m = 1 then (Config.bulkDecode data).elim (.error .bulkDecode) .ok
        else .error .bulkMethod : Except LoadCheck (List Byte)) with
      | .ok bs => if bs.length = size then .ok bs else .error .bulkSize
      | .error e => .error e := by
  have hread : Loader.read8 ⟨(m :: data) :: rest⟩ = .ok (m, ⟨data :: rest⟩) := rfl
  rw [readBulk, hread]
  simp only [Loader.current, List.headD_cons]
  cases Config.bulkDecode data <;> rfl

theorem readBulk_method {size : Nat} {m : Byte} {data : List Byte} {rest : List (List Byte)} (h : 2 ≤ m.toNat) :
    readBulk size ⟨(m :: data) :: rest⟩ = .error .bulkMethod := by
  have h0 : m ≠ 0 := by rintro rfl; exact absurd h (by decide)
  have h1 : m ≠ 1 := by rintro rfl; exact absurd h (by decide)
  rw [readBulk_cons, if_neg h0, if_neg h1]

theorem readBulk_raw_size {size : Nat} {data : List Byte} {rest : List (List Byte)} (h : data.length ≠ size) :
    readBulk size ⟨(0 :: data) :: rest⟩ = .error .bulkSize := by
  rw [readBulk_cons, if_pos rfl]
  exact if_neg h

theorem readBulk_undecoded {size : Nat} {data : List Byte} {rest : List (List Byte)}
    (h : Config.bulkDecode data = none) : readBulk size ⟨(1 :: data) :: rest⟩ = .error .bulkDecode := by
  rw [readBulk_cons, if_neg (by decide), if_pos rfl, h]
  rfl

theorem readBulk_decoded_size {size : Nat} {data bs : List Byte} {rest : List (List Byte)}
    (h : Config.bulkDecode data = some bs) (hl : bs.length ≠ size) :
    readBulk size ⟨(1 :: data) :: rest⟩ = .error .bulkSize := by
  rw [readBulk_cons, if_neg (by decide), if_pos rfl, h]
  exact if_neg hl

/-- The chunks with a bulk payload, and the Sources they give (R399, R400). -/
def bulkChunks : List (Nat × WinId) := [(tagWrk, .wrk), (tagCrm, .chr)]

theorem bulkChunks_tag {tw : Nat × WinId} (h : tw ∈ bulkChunks) : tw.1 < 2 ^ 32 ∧ tw.1 ≠ 0 := by
  simp only [bulkChunks, List.mem_cons, List.not_mem_nil, or_false] at h
  rcases h with rfl | rfl <;> decide

theorem readChunk_bulk_error {c : Cartridge} {tw : Nat × WinId} {ld : Loader} {e : LoadCheck} (htw : tw ∈ bulkChunks)
    (h : readBulk (c.sourceSize tw.2) ld = .error e) : readChunk c tw.1 ld Collected.empty = .error e := by
  simp only [bulkChunks, List.mem_cons, List.not_mem_nil, or_false] at htw
  rcases htw with rfl | rfl
  · rw [readChunk_wrk rfl, h]
  · rw [readChunk_crm rfl, h]

/-- A bulk chunk that is read is not read again. -/
theorem readChunk_bulk_twice {c : Cartridge} {tw : Nat × WinId} {ld : Loader} {bs : List Byte} (htw : tw ∈ bulkChunks)
    (h : readBulk (c.sourceSize tw.2) ld = .ok bs) :
    ∃ got, readChunk c tw.1 ld Collected.empty = .ok got ∧ ∀ ld', readChunk c tw.1 ld' got = .error .duplicateTag := by
  simp only [bulkChunks, List.mem_cons, List.not_mem_nil, or_false] at htw
  rcases htw with rfl | rfl
  · exact ⟨{ Collected.empty with wrk := some bs }, by rw [readChunk_wrk rfl, h], fun ld' => readChunk_wrk_twice rfl⟩
  · exact ⟨{ Collected.empty with crm := some bs }, by rw [readChunk_crm rfl, h], fun ld' => readChunk_crm_twice rfl⟩

/-! ### Register payloads that fail -/

/-- A payload shorter than the layout (R401). -/
theorem regsOfBytes_short {b : Board} {bs : List Byte} (hm : modelled b = true)
    (h : bs.length < (regBytes (hardDefaults b)).length) : regsOfBytes b bs = .error .shortReg := by
  have one (hb : bs.length < 1) : bs = [] := List.length_eq_zero_iff.1 (by omega)
  cases b with
  | nrom => exact absurd h (by simp [hardDefaults, regBytes])
  | mmc1 =>
    match bs, h with
    | [], _ | [_], _ | [_, _], _ | [_, _, _], _ | [_, _, _, _], _ | [_, _, _, _, _], _ => rfl
    | _ :: _ :: _ :: _ :: _ :: _ :: more, h =>
      have hl : more.length + 6 < 6 := h
      omega
  | uxrom => rw [one h]; rfl
  | cnrom => rw [one h]; rfl
  | axrom => rw [one h]; rfl
  | menu p => rw [one h]; rfl
  | latch p => exact absurd hm (by simp [modelled])
  | pattern p => exact absurd hm (by simp [modelled])

/-- MMC1 registers out of their ranges (R299). -/
theorem regsOfBytes_mmc1_illegal {c c0 c1 p sh n : Byte} {more : List Byte}
    (h : 32 ≤ c.toNat ∨ 32 ≤ c0.toNat ∨ 32 ≤ c1.toNat ∨ 32 ≤ p.toNat ∨ 32 ≤ sh.toNat ∨ 5 ≤ n.toNat
      ∨ 2 ^ n.toNat ≤ sh.toNat) :
    regsOfBytes .mmc1 (c :: c0 :: c1 :: p :: sh :: n :: more) = .error .illegalReg := by
  refine if_neg fun hl => ?_
  simp only [mmc1Legal, Bool.and_eq_true, decide_eq_true_eq] at hl
  omega

/-- A menu number beyond `MENU4`'s images (R401). -/
theorem regsOfBytes_menu4_illegal {v : Byte} {more : List Byte} (h : 4 ≤ v.toNat) :
    regsOfBytes menu4 (v :: more) = .error .illegalReg := if_pos h

theorem readChunk_reg_error {c : Cartridge} {ld : Loader} {e : LoadCheck}
    (h : regsOfBytes c.board ld.current = .error e) : readChunk c tagReg ld Collected.empty = .error e := by
  rw [readChunk_reg rfl, h]

/-- Settles O13: each stream fails in the check that reads it, and a failed check keeps the state. -/
theorem failedLoadLeavesTheState : Obligations.FailedLoadLeavesTheState := by
  unfold Obligations.FailedLoadLeavesTheState
  refine ⟨fun s t e hx he => ?_, fun s hp hr hs => ?_, fun s hp h0 h8 => ?_, fun s tag len payload hp hl hlen hs => ?_,
    fun s v w hp hb hs => ?_, fun s payload rest hp hl => ?_⟩
  · rcases exec_outcome hx with ⟨r, rfl⟩ | ⟨-, c, rfl⟩ | hc
    · cases he
    · cases he
      exact ⟨rfl, c, rfl⟩
    · exact absurd he (hc.noError e)
  · exact exec_load_of_error hp (hs ▸ parseStream_nil hr)
  · exact exec_load_of_error hp (parseStream_of_error (readChunks_of_begin_error _ (beginChunk_truncated h0 h8)))
  · refine exec_load_of_error hp (parseStream_of_error (readChunks_of_begin_error _ ?_))
    rw [hs]
    exact beginChunk_lengthExceeds hlen hl
  · have hread (u : Byte) : regsOfBytes s.cart.board [u] = .ok (.uxrom u) := by rw [hb]; rfl
    have hstream : s.stream = chunkBytes tagReg [v] ++ (chunkBytes tagReg [w] ++ []) := hs
    refine exec_load_of_error hp ?_
    rw [hstream]
    refine parseStream_second_error (by decide) (by decide) (by simp) (by decide) (by decide) (by simp)
      (got := { Collected.empty with reg := some (.uxrom v) }) ?_ (readChunk_reg_twice rfl)
    rw [readChunk_reg rfl, Loader.current, List.headD_cons, hread]
  · refine ⟨fun hs => ?_, fun tw htw => ⟨fun hs => ?_, fun data hd hdl hs => ?_⟩⟩
    · have fails {e : LoadCheck} (h : regsOfBytes s.cart.board payload = .error e) :
          exec .load s = .next { s with result := .error (.corruptSaveState e), events := [] } :=
        exec_load_of_error hp
          (hs ▸ parseStream_first_error (by decide) (by decide) hl (readChunk_reg_error h))
      refine ⟨fun hm hshort => fails (regsOfBytes_short hm hshort), ?_, ?_⟩
      · rintro c c0 c1 p sh n more hb rfl h
        exact fails (hb ▸ regsOfBytes_mmc1_illegal h)
      · rintro v more hb rfl h
        exact fails (hb ▸ regsOfBytes_menu4_illegal h)
    · have fails {e : LoadCheck} (h : readBulk (s.cart.sourceSize tw.2) ⟨[payload, rest]⟩ = .error e) :
          exec .load s = .next { s with result := .error (.corruptSaveState e), events := [] } :=
        exec_load_of_error hp
          (hs ▸ parseStream_first_error (bulkChunks_tag htw).1 (bulkChunks_tag htw).2 hl (readChunk_bulk_error htw h))
      refine ⟨?_, ?_⟩
      · rintro rfl
        exact fails (readBulk_nil _ _)
      · rintro m data rfl
        refine ⟨fun h => fails (readBulk_method h), ?_, ?_⟩
        · rintro rfl h
          exact fails (readBulk_raw_size h)
        · rintro rfl
          cases h : Config.bulkDecode data with
          | none => exact fails (readBulk_undecoded h)
          | some bs => exact fun hsize => fails (readBulk_decoded_size h hsize)
    · obtain ⟨got, hread, htwice⟩ := readChunk_bulk_twice htw
        (readBulk_raw (s.cart.sourceSize tw.2) [chunkBytes tw.1 payload ++ rest] hd)
      have hstream : s.stream = chunkBytes tw.1 (0 :: data) ++ (chunkBytes tw.1 payload ++ rest) :=
        hs.trans (List.append_assoc _ _ _)
      refine exec_load_of_error hp ?_
      rw [hstream]
      exact parseStream_second_error (bulkChunks_tag htw).1 (bulkChunks_tag htw).2 hdl (bulkChunks_tag htw).1
        (bulkChunks_tag htw).2 hl hread (htwice _)

/-! ### Unknown chunks (R393) -/

/-- An unknown chunk in front of a stream gives nothing. -/
theorem parseStream_unknown (c : Cartridge) {tag : Nat} {payload rest : List Byte}
    (h : tag ∉ [0, tagReg, tagWrk, tagCrm]) (ht : tag < 2 ^ 32) (hp : payload.length < 2 ^ 32) :
    parseStream c (chunkBytes tag payload ++ rest) = parseStream c rest := by
  have h0 : tag ≠ 0 := fun e => h (e ▸ List.mem_cons_self)
  rw [parseStream, Loader.new, readChunks_whole c _ ht h0 hp, readChunk_unknown c _ _ h]
  rfl

/-- A load of another stream that parses alike does the same, the stream apart (R405). -/
theorem loadBlock_withStream {s : State} {bs : List Byte} (hp : s.powered = true)
    (h : parseStream s.cart bs = parseStream s.cart s.stream) :
    loadBlock (s.withStream bs) = (loadBlock s).withStream bs := by
  have hclear : clearOutput (s.withStream bs) = (clearOutput s).withStream bs := rfl
  have hcart : ((clearOutput s).withStream bs).cart = s.cart := rfl
  have hstream : ((clearOutput s).withStream bs).stream = bs := rfl
  rw [loadBlock, loadBlock, transact_powered _ hp, transact_powered _ (by exact hp), transact, transact, hclear, hcart,
    hstream, clearOutput_cart, clearOutput_stream, h]
  cases parseStream s.cart s.stream with
  | error c => rfl
  | ok got =>
    simp only []
    rw [applyLoad_withStream, boardUpdate_streamFree]
    cases boardUpdate (applyLoad got (clearOutput s)) with
    | ok t => rfl
    | error e => cases e <;> rfl

theorem exec_load_withStream {s t : State} {bs : List Byte} (h : parseStream s.cart bs = parseStream s.cart s.stream)
    (hx : exec .load s = .next t) : exec .load (s.withStream bs) = .next (t.withStream bs) := by
  cases hp : s.powered with
  | false =>
    rw [exec_off hp (by decide)] at hx
    cases hx
    exact exec_off (s := s.withStream bs) hp (by decide)
  | true =>
    cases hx
    exact congrArg Host.Outcome.next (loadBlock_withStream hp h)

/-- Settles O54: the chunk is skipped, so the stream parses as the rest does. -/
theorem unknownChunkIsSkipped : Obligations.UnknownChunkIsSkipped := by
  unfold Obligations.UnknownChunkIsSkipped
  intro s t tag payload rest h ht hp hx
  exact exec_load_withStream (s := { s with stream := rest }) (bs := chunkBytes tag payload ++ rest)
    (parseStream_unknown s.cart h ht hp) hx

/-! ### Loads that complete (R405, R406) -/

/-- The chunks of a stream from here on, with the fuel a whole stream gets. -/
def readRest (c : Cartridge) (bs : List Byte) (got : Collected) : Except LoadCheck Collected :=
  readChunks c (bs.length + 1) ⟨[bs]⟩ got

theorem parseStream_eq (c : Cartridge) (bs : List Byte) :
    parseStream c bs =
      match readRest c bs Collected.empty with
      | .error e => .error e
      | .ok got => if hasRegs c.board && got.reg.isNone then .error .missingReg else .ok got := rfl

/-- A chunk that is read is left behind. -/
theorem readRest_chunk {c : Cartridge} {tag : Nat} {payload rest : List Byte} {got got' : Collected}
    (ht : tag < 2 ^ 32) (h0 : tag ≠ 0) (hp : payload.length < 2 ^ 32)
    (h : readChunk c tag ⟨[payload, rest]⟩ got = .ok got') :
    readRest c (chunkBytes tag payload ++ rest) got = readRest c rest got' := by
  rw [readRest, readChunks_whole c _ ht h0 hp, h]
  rfl

/-- A bulk payload that gives a Source's bytes (R394). -/
def Gives (c : Cartridge) (w : WinId) (payload data : List Byte) : Prop :=
  (payload = 0 :: data ∨ ∃ e, payload = 1 :: e ∧ Config.bulkDecode e = some data)
    ∧ data.length = c.sourceSize w ∧ payload.length < 2 ^ 32

theorem regBytes_length {b : Board} {r : BoardRegs} (hm : modelled b = true) (hr : regsMatch b r) :
    (regBytes r).length < 2 ^ 32 := by
  cases b <;> cases r <;> simp_all [regsMatch, modelled, regBytes]

/-- Two register records of a modelled board without registers are equal. -/
theorem regs_of_no_regs {b : Board} {r r' : BoardRegs} (hm : modelled b = true) (h : hasRegs b = false)
    (hr : regsMatch b r) (hr' : regsMatch b r') : r = r' := by
  have none_of_nrom {q : BoardRegs} (h : regsMatch .nrom q) : q = .none := by
    cases q <;> simp_all [regsMatch]
  cases b with
  | nrom => rw [none_of_nrom hr, none_of_nrom hr']
  | pattern p => exact absurd hm (by simp [modelled])
  | _ => exact absurd h (by simp [hasRegs])

/-- A chunk that need not stand in a stream. -/
def optChunk (tag : Nat) (pd : Option (List Byte × List Byte)) : List Byte :=
  (pd.map fun pd => chunkBytes tag pd.1).getD []

theorem readRest_reg {c : Cartridge} {r : BoardRegs} (rest : List Byte) {got : Collected} (hm : modelled c.board = true)
    (hr : regsMatch c.board r) (hg : got.reg = none) :
    readRest c ((if hasRegs c.board then chunkBytes tagReg (regBytes r) else []) ++ rest) got =
      readRest c rest { got with reg := if hasRegs c.board then some r else none } := by
  cases h : hasRegs c.board with
  | false =>
    simp only [Bool.false_eq_true, if_false, List.nil_append]
    rw [← hg]
  | true =>
    refine readRest_chunk (by decide) (by decide) (regBytes_length hm hr) ?_
    rw [readChunk_reg hg, Loader.current, List.headD_cons, regsOfBytes_regBytes hm hr]
    rfl

theorem readRest_wrk {c : Cartridge} {pd : Option (List Byte × List Byte)} (rest : List Byte) {got : Collected}
    (h : ∀ x ∈ pd, Gives c .wrk x.1 x.2) (hg : got.wrk = none) :
    readRest c (optChunk tagWrk pd ++ rest) got = readRest c rest { got with wrk := pd.map (·.2) } := by
  cases pd with
  | none => exact congrArg (readRest c rest) (by rw [Option.map_none, ← hg])
  | some x =>
    obtain ⟨hdata, hsize, hlen⟩ := h x rfl
    refine readRest_chunk (by decide) (by decide) hlen ?_
    rw [readChunk_wrk hg, readBulk_of _ hdata hsize]
    rfl

theorem readRest_crm {c : Cartridge} {pd : Option (List Byte × List Byte)} (rest : List Byte) {got : Collected}
    (h : ∀ x ∈ pd, Gives c .chr x.1 x.2) (hg : got.crm = none) :
    readRest c (optChunk tagCrm pd ++ rest) got = readRest c rest { got with crm := pd.map (·.2) } := by
  cases pd with
  | none => exact congrArg (readRest c rest) (by rw [Option.map_none, ← hg])
  | some x =>
    obtain ⟨hdata, hsize, hlen⟩ := h x rfl
    refine readRest_chunk (by decide) (by decide) hlen ?_
    rw [readChunk_crm hg, readBulk_of _ hdata hsize]
    rfl

/-- A stream of registers and, each or not, the two RAMs. -/
def loadStream (b : Board) (r : BoardRegs) (wrk crm : Option (List Byte × List Byte)) : List Byte :=
  (if hasRegs b then chunkBytes tagReg (regBytes r) else []) ++ optChunk tagWrk wrk ++ optChunk tagCrm crm

theorem parseStream_loadStream {c : Cartridge} {r : BoardRegs} {wrk crm : Option (List Byte × List Byte)}
    (hm : modelled c.board = true) (hr : regsMatch c.board r) (hw : ∀ x ∈ wrk, Gives c .wrk x.1 x.2)
    (hc : ∀ x ∈ crm, Gives c .chr x.1 x.2) :
    parseStream c (loadStream c.board r wrk crm) =
      .ok ⟨if hasRegs c.board then some r else none, wrk.map (·.2), crm.map (·.2)⟩ := by
  have hread : readRest c (loadStream c.board r wrk crm) Collected.empty =
      .ok ⟨if hasRegs c.board then some r else none, wrk.map (·.2), crm.map (·.2)⟩ := by
    rw [loadStream, List.append_assoc, readRest_reg _ hm hr rfl, readRest_wrk _ hw rfl,
      ← List.append_nil (optChunk tagCrm crm), readRest_crm _ hc rfl]
    exact readChunks_nil c 0 _
  rw [parseStream_eq, hread]
  cases hasRegs c.board <;> rfl

/-- A load of such a stream: its registers and RAM, and the windows of the registers. -/
theorem exec_load_loadStream {b : Board} {s : State} {r : BoardRegs} {wrk crm : Option (List Byte × List Byte)}
    (hm : modelled b = true) (hR : s.Ready b) (hr : regsMatch b r) (hw : ∀ x ∈ wrk, Gives s.cart .wrk x.1 x.2)
    (hc : ∀ x ∈ crm, Gives s.cart .chr x.1 x.2) :
    exec .load (s.withStream (loadStream b r wrk crm)) =
      .next (State.withBoardWindows
        { s with
          stream := loadStream b r wrk crm
          board := r
          ramWrk := (wrk.map fun pd => Memory.ofBytes 0 pd.2).getD s.ramWrk
          ramChr := if s.cart.chrSize = 0 then (crm.map fun pd => Memory.ofBytes 0 pd.2).getD s.ramChr else s.ramChr
          result := .done } []) := by
  have hb := hR.board
  subst hb
  have hReady : (s.withStream (loadStream s.cart.board r wrk crm)).Ready s.cart.board :=
    ⟨hR.wf.with_frame s.latch s.refused s.pending _ s.result s.events s.draws, hR.settled, hR.powered, rfl⟩
  have hgot : (if hasRegs s.cart.board then some r else none).getD s.board = r := by
    cases h : hasRegs s.cart.board with
    | true => rfl
    | false => exact regs_of_no_regs hm h hR.wf.regs hr
  refine congrArg Host.Outcome.next
    ((loadBlock_ready hm hReady (parseStream_loadStream hm hr hw hc) hr hgot).trans ?_)
  cases wrk <;> cases crm <;> rfl

/-! ### Loading a save (R407) -/

/-- What a save holds of one RAM: its raw payload and its bytes (R399, R400). -/
def savedRam (present : Bool) (m : Memory) (size : Nat) : Option (List Byte × List Byte) :=
  if present then some (0 :: m.toBytes size, m.toBytes size) else none

theorem saveStream_eq_loadStream (s : State) :
    saveStream s = loadStream s.cart.board s.board (savedRam s.cart.hasWrk s.ramWrk s.cart.wrkSize)
      (savedRam s.cart.chrIsRam s.ramChr 8192) := by
  rw [saveStream_eq, loadStream]
  cases s.cart.hasWrk <;> cases s.cart.chrIsRam <;> rfl

theorem savedRam_gives {c : Cartridge} {w : WinId} {present : Bool} {m : Memory} {size : Nat}
    (h : present = true → c.sourceSize w = size) (hsize : size + 1 < 2 ^ 32) :
    ∀ x ∈ savedRam present m size, Gives c w x.1 x.2 := by
  cases present with
  | false => exact fun x hx => absurd hx (by simp [savedRam])
  | true =>
    intro x hx
    cases hx
    refine ⟨.inl rfl, ?_, ?_⟩
    · rw [Memory.toBytes_length, h rfl]
    · rwa [List.length_cons, Memory.toBytes_length]

/-- A saved RAM gives back its memory. -/
theorem savedRam_restores {m : Memory} {size : Nat} (m' : Memory) (hm : m.wf) (hs : m.within size) :
    ((savedRam true m size).map fun pd => Memory.ofBytes 0 pd.2).getD m' = m := Memory.ofBytes_toBytes hm hs

/-- The RAM of an absent Source is empty. -/
theorem Memory.eq_nil_of_within_zero {m : Memory} (h : m.within 0) : m = [] := by
  cases m with
  | nil => rfl
  | cons c rest => exact absurd (h c (by simp)) (by omega)

/-- The work RAM a load of a save leaves is the saved one. -/
theorem restored_ramWrk {s s' : State} (hw : s.Wf) (hw' : s'.Wf) (hc : s'.cart = s.cart) :
    ((savedRam s.cart.hasWrk s.ramWrk s.cart.wrkSize).map fun pd => Memory.ofBytes 0 pd.2).getD s'.ramWrk =
      s.ramWrk := by
  cases h : s.cart.hasWrk with
  | true => exact savedRam_restores _ hw.wrkRam.1 hw.wrkRam.2
  | false =>
    have hzero : s.cart.wrkSize = 0 := by simpa [Cartridge.hasWrk] using h
    have empty : s.ramWrk = [] := Memory.eq_nil_of_within_zero (hzero ▸ hw.wrkRam.2)
    have empty' : s'.ramWrk = [] := Memory.eq_nil_of_within_zero (hzero ▸ hc ▸ hw'.wrkRam.2)
    rw [empty]
    exact empty'

/-- The CHR RAM a load of a save leaves is the saved one; over CHR ROM both are empty. -/
theorem restored_ramChr {s s' : State} (hw : s.Wf) (hw' : s'.Wf) (hc : s'.cart = s.cart) :
    (if s'.cart.chrSize = 0 then
        ((savedRam s.cart.chrIsRam s.ramChr 8192).map fun pd => Memory.ofBytes 0 pd.2).getD s'.ramChr
      else s'.ramChr) = s.ramChr := by
  have hin : s.ramChr.within (if s.cart.chrIsRam then 8192 else 0) := hw.chrRam.2
  have hin' : s'.ramChr.within (if s.cart.chrIsRam then 8192 else 0) := hc ▸ hw'.chrRam.2
  by_cases hz : s.cart.chrSize = 0
  · have hram : s.cart.chrIsRam = true := by simp [Cartridge.chrIsRam, hz]
    rw [hc, if_pos hz, hram]
    rw [hram] at hin
    exact savedRam_restores _ hw.chrRam.1 hin
  · have hram : s.cart.chrIsRam = false := by simp [Cartridge.chrIsRam, hz]
    rw [hram] at hin hin'
    rw [hc, if_neg hz, Memory.eq_nil_of_within_zero hin, Memory.eq_nil_of_within_zero hin']

/-- Settles O53: a save is a stream of its registers and RAM, which a load takes in order. -/
theorem loadRestoresASave : Obligations.LoadRestoresASave := by
  unfold Obligations.LoadRestoresASave
  refine ⟨fun b s r wrk crm hm hR hr => ?_, fun b s s' hm hR hR' hcart hsize => ?_⟩
  · intro gives hw hc
    exact exec_load_loadStream hm hR hr hw hc
  · intro bs
    have hboard := hR.board
    have hload := exec_load_loadStream hm hR' (r := s.board) (hboard ▸ hR.wf.regs)
      (savedRam_gives (m := s.ramWrk) (present := s.cart.hasWrk) (fun _ => hcart ▸ rfl) hsize)
      (savedRam_gives (m := s.ramChr) (present := s.cart.chrIsRam)
        (fun h => by rw [hcart, Cartridge.sourceSize, if_pos h]) (by decide))
    rw [← hboard, ← saveStream_eq_loadStream, restored_ramWrk hR.wf hR'.wf hcart, restored_ramChr hR.wf hR'.wf hcart]
      at hload
    refine ⟨congrArg Host.Outcome.next (saveBlock_on hR.powered), hload.trans ?_⟩
    have hwin : boardWindows s'.cart s.board = s.windows := hcart ▸ hR.windows.symm
    simp only [State.withBoardWindows, hwin]
    rfl

end Sys2Proof.Machine
end
